-- ==== Sys2Proof/Word.lean ====
section
/-! DEFINITION. The two word types of the engine. -/

namespace Sys2Proof

/-- A 32-bit register pattern (R14, R50). -/
abbrev Word := BitVec 32

/-- An IEEE 754 binary32 bit pattern: sign bit 31, exponent 30:23, fraction 22:0 (R20). -/
abbrev F32 := BitVec 32

end Sys2Proof
end

