-- ==== Sys2Proof/Syntax.lean ====
section
/-! DEFINITION. The abstract syntax: one constructor per row of spec/opcode_table.json (R135, R136). -/

namespace Sys2Proof

/-- A command of the DSMV-FC command set, revision 1 (R135). A command of a unit with instances carries `inst`, the
value of the command word's INST field (R133); VAR and MOD are fixed by the constructor. -/
inductive Instr where
  /-- NOP (R380) -/
  | nop
  /-- SRESET (R381) -/
  | sreset
  /-- CLRSTAT (R382) -/
  | clrstat
  /-- AVG.PROC (R200) -/
  | avgProc (inst : Nat)
  /-- AVG.CLR (R201) -/
  | avgClr (inst : Nat)
  /-- LP1 (R233) -/
  | lp1 (inst : Nat)
  /-- LP2 (R234) -/
  | lp2 (inst : Nat)
  /-- LP3 (R235) -/
  | lp3 (inst : Nat)
  /-- HP1 (R236) -/
  | hp1 (inst : Nat)
  /-- HP2 (R237) -/
  | hp2 (inst : Nat)
  /-- HP3 (R238) -/
  | hp3 (inst : Nat)
  /-- LO.CLR.ALL (R239) -/
  | loClrAll (inst : Nat)
  /-- LO.CLR.LP1 (R239) -/
  | loClrLp1 (inst : Nat)
  /-- LO.CLR.LP2 (R239) -/
  | loClrLp2 (inst : Nat)
  /-- LO.CLR.LP3 (R239) -/
  | loClrLp3 (inst : Nat)
  /-- LO.CLR.HP1 (R239) -/
  | loClrHp1 (inst : Nat)
  /-- LO.CLR.HP2 (R239) -/
  | loClrHp2 (inst : Nat)
  /-- LO.CLR.HP3 (R239) -/
  | loClrHp3 (inst : Nat)
  /-- GIIR.CFG (R260) -/
  | giirCfg (inst : Nat)
  /-- GIIR.SETB (R261) -/
  | giirSetb (inst : Nat)
  /-- GIIR.SETA (R262) -/
  | giirSeta (inst : Nat)
  /-- GIIR.GETB (R263) -/
  | giirGetb (inst : Nat)
  /-- GIIR.GETA (R264) -/
  | giirGeta (inst : Nat)
  /-- GIIR.PROC (R265) -/
  | giirProc (inst : Nat)
  /-- GIIR.PROC2 (R266) -/
  | giirProc2 (inst : Nat)
  /-- GIIR.CLR (R267) -/
  | giirClr (inst : Nat)
  /-- FIR.MA.RECT (R310) -/
  | firMaRect (inst : Nat)
  /-- FIR.MA.HAMM (R310) -/
  | firMaHamm (inst : Nat)
  /-- FIR.LP.RECT (R311) -/
  | firLpRect (inst : Nat)
  /-- FIR.LP.HAMM (R311) -/
  | firLpHamm (inst : Nat)
  /-- FIR.HP.RECT (R312) -/
  | firHpRect (inst : Nat)
  /-- FIR.HP.HAMM (R312) -/
  | firHpHamm (inst : Nat)
  /-- FIR.BP.RECT (R313) -/
  | firBpRect (inst : Nat)
  /-- FIR.BP.HAMM (R313) -/
  | firBpHamm (inst : Nat)
  /-- FIR.BS.RECT (R314) -/
  | firBsRect (inst : Nat)
  /-- FIR.BS.HAMM (R314) -/
  | firBsHamm (inst : Nat)
  /-- FIR.PROCF.MOD (R346) -/
  | firProcfMod (inst : Nat)
  /-- FIR.PROCF.BRANCH (R346) -/
  | firProcfBranch (inst : Nat)
  /-- FIR.PROCF.DBL (R346) -/
  | firProcfDbl (inst : Nat)
  /-- FIR.PROCI.MOD (R347) -/
  | firProciMod (inst : Nat)
  /-- FIR.PROCI.BRANCH (R347) -/
  | firProciBranch (inst : Nat)
  /-- FIR.PROCI.DBL (R347) -/
  | firProciDbl (inst : Nat)
  /-- FIR.PROC2.MOD (R348) -/
  | firProc2Mod (inst : Nat)
  /-- FIR.PROC2.BRANCH (R348) -/
  | firProc2Branch (inst : Nat)
  /-- FIR.PROC2.DBL (R348) -/
  | firProc2Dbl (inst : Nat)
  /-- FIR.GETCF (R317) -/
  | firGetcf (inst : Nat)
  /-- FIR.GETCI (R318) -/
  | firGetci (inst : Nat)
  /-- FIR.SETCONV (R349) -/
  | firSetconv (inst : Nat)
  /-- FIR.CLR (R350) -/
  | firClr (inst : Nat)
  /-- SCALE.F (R370) -/
  | scaleF
  /-- SCALE.I (R371) -/
  | scaleI
  deriving DecidableEq, Repr

/-- The instance number a command carries, 0 for a command without instances (R133). -/
def Instr.inst : Instr → Nat
  | .nop => 0
  | .sreset => 0
  | .clrstat => 0
  | .avgProc n => n
  | .avgClr n => n
  | .lp1 n => n
  | .lp2 n => n
  | .lp3 n => n
  | .hp1 n => n
  | .hp2 n => n
  | .hp3 n => n
  | .loClrAll n => n
  | .loClrLp1 n => n
  | .loClrLp2 n => n
  | .loClrLp3 n => n
  | .loClrHp1 n => n
  | .loClrHp2 n => n
  | .loClrHp3 n => n
  | .giirCfg n => n
  | .giirSetb n => n
  | .giirSeta n => n
  | .giirGetb n => n
  | .giirGeta n => n
  | .giirProc n => n
  | .giirProc2 n => n
  | .giirClr n => n
  | .firMaRect n => n
  | .firMaHamm n => n
  | .firLpRect n => n
  | .firLpHamm n => n
  | .firHpRect n => n
  | .firHpHamm n => n
  | .firBpRect n => n
  | .firBpHamm n => n
  | .firBsRect n => n
  | .firBsHamm n => n
  | .firProcfMod n => n
  | .firProcfBranch n => n
  | .firProcfDbl n => n
  | .firProciMod n => n
  | .firProciBranch n => n
  | .firProciDbl n => n
  | .firProc2Mod n => n
  | .firProc2Branch n => n
  | .firProc2Dbl n => n
  | .firGetcf n => n
  | .firGetci n => n
  | .firSetconv n => n
  | .firClr n => n
  | .scaleF => 0
  | .scaleI => 0

end Sys2Proof
end

