-- ==== Sys2Proof/WellFormed.lean ====
section
/-! DEFINITION. Well-formed commands: those the command word can hold. -/

namespace Sys2Proof

/-- A command is well formed when its instance number fits the 4-bit INST field (R131: "instance number n, 0..15").
Whether the unit HAS that instance is a run-time check that ends the command with RANGE (R133), not a matter of form. -/
abbrev Instr.WellFormed (i : Instr) : Prop := i.inst ≤ 15

end Sys2Proof
end

