-- ==== Sys2Proof/Decode.lean ====
section
/-! DEFINITION. The decoder, total on every command word, from the mask and match table of R136, and after it the
encoder, from the fields of R131 and R135. -/

namespace Sys2Proof

/-! ### Fields of the command word (R131, R132) -/

/-- `OPC = cmd[7:0]` -/
def opcField (w : Word) : Nat := (w.extractLsb' 0 8).toNat

/-- `INST = cmd[11:8]` -/
def instField (w : Word) : Nat := (w.extractLsb' 8 4).toNat

/-- `VAR = cmd[15:12]` -/
def varField (w : Word) : Nat := (w.extractLsb' 12 4).toNat

/-- `MOD = cmd[19:16]` -/
def modField (w : Word) : Nat := (w.extractLsb' 16 4).toNat

/-- `RSV = cmd[31:20]` -/
def rsvField (w : Word) : Nat := (w.extractLsb' 20 12).toNat

/-! ### The decoder -/

/-- Why a command word is no command (R137, R403): the first four are error ILLEGAL, the last error UNSUPPORTED. -/
inductive DecodeError where
  /-- RSV ≠ 0 -/
  | reservedBits
  /-- OPC is not in the table of R135 (R138) -/
  | unknownOpcode
  /-- VAR or MOD outside the values R135 lists for the opcode -/
  | badVariant
  /-- INST ≠ 0 for an opcode without instances (R133) -/
  | badInstance
  /-- the dual-channel integer FIR, OPC 0x42 with VAR ≤ 2 and MOD = 1 (R137, R348) -/
  | unsupported
  deriving DecidableEq, Repr

/-- One row of the mask and match table (R136): a word w selects the row when `w & mask = pattern`. -/
structure Row where
  mask    : Word
  pattern : Word
  build   : Nat → Instr

/-- The mask of an opcode with instances: RSV, MOD, VAR and OPC fixed, INST free (R136). -/
def instMask : Word := 0xFFFFF0FF#32

/-- The mask of an opcode without instances: every bit fixed (R136, R133). -/
def fullMask : Word := 0xFFFFFFFF#32

def controlRows : List Row := [
  ⟨fullMask, 0x00000000#32, fun _ => .nop⟩,
  ⟨fullMask, 0x00000001#32, fun _ => .sreset⟩,
  ⟨fullMask, 0x00000002#32, fun _ => .clrstat⟩]

def averageRows : List Row := [
  ⟨instMask, 0x00000010#32, .avgProc⟩,
  ⟨instMask, 0x00000011#32, .avgClr⟩]

def lowOrderRows : List Row := [
  ⟨instMask, 0x00010020#32, .lp1⟩,
  ⟨instMask, 0x00020020#32, .lp2⟩,
  ⟨instMask, 0x00030020#32, .lp3⟩,
  ⟨instMask, 0x00011020#32, .hp1⟩,
  ⟨instMask, 0x00021020#32, .hp2⟩,
  ⟨instMask, 0x00031020#32, .hp3⟩,
  ⟨instMask, 0x00000021#32, .loClrAll⟩,
  ⟨instMask, 0x00010021#32, .loClrLp1⟩,
  ⟨instMask, 0x00020021#32, .loClrLp2⟩,
  ⟨instMask, 0x00030021#32, .loClrLp3⟩,
  ⟨instMask, 0x00011021#32, .loClrHp1⟩,
  ⟨instMask, 0x00021021#32, .loClrHp2⟩,
  ⟨instMask, 0x00031021#32, .loClrHp3⟩]

def generalIirRows : List Row := [
  ⟨instMask, 0x00000030#32, .giirCfg⟩,
  ⟨instMask, 0x00000031#32, .giirSetb⟩,
  ⟨instMask, 0x00000032#32, .giirSeta⟩,
  ⟨instMask, 0x00000033#32, .giirGetb⟩,
  ⟨instMask, 0x00000034#32, .giirGeta⟩,
  ⟨instMask, 0x00000035#32, .giirProc⟩,
  ⟨instMask, 0x00000036#32, .giirProc2⟩,
  ⟨instMask, 0x00000037#32, .giirClr⟩]

def firDesignRows : List Row := [
  ⟨instMask, 0x00000040#32, .firMaRect⟩,
  ⟨instMask, 0x00010040#32, .firMaHamm⟩,
  ⟨instMask, 0x00001040#32, .firLpRect⟩,
  ⟨instMask, 0x00011040#32, .firLpHamm⟩,
  ⟨instMask, 0x00002040#32, .firHpRect⟩,
  ⟨instMask, 0x00012040#32, .firHpHamm⟩,
  ⟨instMask, 0x00003040#32, .firBpRect⟩,
  ⟨instMask, 0x00013040#32, .firBpHamm⟩,
  ⟨instMask, 0x00004040#32, .firBsRect⟩,
  ⟨instMask, 0x00014040#32, .firBsHamm⟩]

def firConvRows : List Row := [
  ⟨instMask, 0x00000041#32, .firProcfMod⟩,
  ⟨instMask, 0x00001041#32, .firProcfBranch⟩,
  ⟨instMask, 0x00002041#32, .firProcfDbl⟩,
  ⟨instMask, 0x00010041#32, .firProciMod⟩,
  ⟨instMask, 0x00011041#32, .firProciBranch⟩,
  ⟨instMask, 0x00012041#32, .firProciDbl⟩,
  ⟨instMask, 0x00000042#32, .firProc2Mod⟩,
  ⟨instMask, 0x00001042#32, .firProc2Branch⟩,
  ⟨instMask, 0x00002042#32, .firProc2Dbl⟩,
  ⟨instMask, 0x00000043#32, .firGetcf⟩,
  ⟨instMask, 0x00001043#32, .firGetci⟩,
  ⟨instMask, 0x00000044#32, .firSetconv⟩,
  ⟨instMask, 0x00000045#32, .firClr⟩]

def scaleRows : List Row := [
  ⟨fullMask, 0x00000050#32, fun _ => .scaleF⟩,
  ⟨fullMask, 0x00000051#32, fun _ => .scaleI⟩]

/-- The opcode map (R135, R136). -/
def opcodeRows : List Row :=
  controlRows ++ averageRows ++ lowOrderRows ++ generalIirRows ++ firDesignRows ++ firConvRows ++ scaleRows

/-- The opcodes of R135 (R138 lists their complement). -/
def knownOpcodes : List Nat :=
  [0x00, 0x01, 0x02, 0x10, 0x11, 0x20, 0x21, 0x30, 0x31, 0x32, 0x33, 0x34, 0x35, 0x36, 0x37,
   0x40, 0x41, 0x42, 0x43, 0x44, 0x45, 0x50, 0x51]

/-- The opcodes without instances (R133). -/
def plainOpcodes : List Nat := [0x00, 0x01, 0x02, 0x50, 0x51]

/-- The (VAR, MOD) values R135 lists for an opcode, as R137 spells them out. -/
def variantListed (opc var mod : Nat) : Bool :=
  match opc with
  | 0x20 => var ≤ 1 && 1 ≤ mod && mod ≤ 3
  | 0x21 => (var == 0 && mod == 0) || (var ≤ 1 && 1 ≤ mod && mod ≤ 3)
  | 0x40 => var ≤ 4 && mod ≤ 1
  | 0x41 => var ≤ 2 && mod ≤ 1
  | 0x42 => var ≤ 2 && mod ≤ 1
  | 0x43 => var ≤ 1 && mod == 0
  | _    => var == 0 && mod == 0

/-- Which condition of R137 refuses a word that selects no row, in the order of R403. -/
def refusal (w : Word) : DecodeError :=
  if rsvField w ≠ 0 then .reservedBits
  else if opcField w ∉ knownOpcodes then .unknownOpcode
  else if ¬ variantListed (opcField w) (varField w) (modField w) then .badVariant
  else if opcField w ∈ plainOpcodes ∧ instField w ≠ 0 then .badInstance
  else .unsupported

/-- The decoder: the row the word selects (R136), or the reason there is none (R137). -/
def decode (w : Word) : Except DecodeError Instr :=
  match opcodeRows.find? (fun r => w &&& r.mask == r.pattern) with
  | some r => .ok (r.build (instField w))
  | none   => .error (refusal w)

/-- The instruction of a table row's word: a command is one 32-bit word (R130), so the bits the table does not give
are 0 and the word is `w` itself. -/
def decodeTableWord (nbits w : Nat) : Option Instr :=
  match decode (BitVec.ofNat 32 (w % 2 ^ nbits)) with
  | .ok i    => some i
  | .error _ => none

/-! ### The encoder -/

/-- A command word from its fields, RSV = 0 (R131). -/
def commandWord (opc inst var mod : Nat) : Word :=
  BitVec.ofNat 12 0 ++ BitVec.ofNat 4 mod ++ BitVec.ofNat 4 var ++ BitVec.ofNat 4 inst ++ BitVec.ofNat 8 opc

/-- The command word of a command (R135): `commandWord OPC INST VAR MOD`. -/
def encode : Instr → Word
  | .nop => commandWord 0x00 0 0 0
  | .sreset => commandWord 0x01 0 0 0
  | .clrstat => commandWord 0x02 0 0 0
  | .avgProc n => commandWord 0x10 n 0 0
  | .avgClr n => commandWord 0x11 n 0 0
  | .lp1 n => commandWord 0x20 n 0 1
  | .lp2 n => commandWord 0x20 n 0 2
  | .lp3 n => commandWord 0x20 n 0 3
  | .hp1 n => commandWord 0x20 n 1 1
  | .hp2 n => commandWord 0x20 n 1 2
  | .hp3 n => commandWord 0x20 n 1 3
  | .loClrAll n => commandWord 0x21 n 0 0
  | .loClrLp1 n => commandWord 0x21 n 0 1
  | .loClrLp2 n => commandWord 0x21 n 0 2
  | .loClrLp3 n => commandWord 0x21 n 0 3
  | .loClrHp1 n => commandWord 0x21 n 1 1
  | .loClrHp2 n => commandWord 0x21 n 1 2
  | .loClrHp3 n => commandWord 0x21 n 1 3
  | .giirCfg n => commandWord 0x30 n 0 0
  | .giirSetb n => commandWord 0x31 n 0 0
  | .giirSeta n => commandWord 0x32 n 0 0
  | .giirGetb n => commandWord 0x33 n 0 0
  | .giirGeta n => commandWord 0x34 n 0 0
  | .giirProc n => commandWord 0x35 n 0 0
  | .giirProc2 n => commandWord 0x36 n 0 0
  | .giirClr n => commandWord 0x37 n 0 0
  | .firMaRect n => commandWord 0x40 n 0 0
  | .firMaHamm n => commandWord 0x40 n 0 1
  | .firLpRect n => commandWord 0x40 n 1 0
  | .firLpHamm n => commandWord 0x40 n 1 1
  | .firHpRect n => commandWord 0x40 n 2 0
  | .firHpHamm n => commandWord 0x40 n 2 1
  | .firBpRect n => commandWord 0x40 n 3 0
  | .firBpHamm n => commandWord 0x40 n 3 1
  | .firBsRect n => commandWord 0x40 n 4 0
  | .firBsHamm n => commandWord 0x40 n 4 1
  | .firProcfMod n => commandWord 0x41 n 0 0
  | .firProcfBranch n => commandWord 0x41 n 1 0
  | .firProcfDbl n => commandWord 0x41 n 2 0
  | .firProciMod n => commandWord 0x41 n 0 1
  | .firProciBranch n => commandWord 0x41 n 1 1
  | .firProciDbl n => commandWord 0x41 n 2 1
  | .firProc2Mod n => commandWord 0x42 n 0 0
  | .firProc2Branch n => commandWord 0x42 n 1 0
  | .firProc2Dbl n => commandWord 0x42 n 2 0
  | .firGetcf n => commandWord 0x43 n 0 0
  | .firGetci n => commandWord 0x43 n 1 0
  | .firSetconv n => commandWord 0x44 n 0 0
  | .firClr n => commandWord 0x45 n 0 0
  | .scaleF => commandWord 0x50 0 0 0
  | .scaleI => commandWord 0x51 0 0 0

end Sys2Proof
end

