-- ==== Sys2Proof/Config.lean ====
section
/-! DEFINITION. What an implementation fixes: the parameters of R11 and R101 as plain data, the uninterpreted
FSIN and FCOS of R30, and the free NaN patterns of R24. -/

namespace Sys2Proof

/-- `COEF_ROUND` (R11, R26): how a float coefficient becomes an integer. -/
inductive CoefRound where
  | trunc
  | nearest
  deriving DecidableEq, Repr

/-- `LO_FORM` (R11, R231): the recurrence family of the low-order IIR filters; BE is the only one defined. -/
inductive LoForm where
  | be
  deriving DecidableEq, Repr

/-- The implementation parameters of R11 and `FC_BASE` of R101, which "the model takes ... as arguments".
They stand in State as plain data that no step changes (log 1), so a claim over every state is a claim over every
parameter choice. `sinKnown` and `cosKnown` are the values of FSIN and FCOS a claim names (log 2). -/
structure Params where
  avgCap    : Nat
  giirCap   : Nat
  firMax    : Nat
  niAvg     : Nat
  niLo      : Nat
  niGiir    : Nat
  niFir     : Nat
  p         : Nat
  coefRound : CoefRound
  loForm    : LoForm
  fcBase    : Nat
  sinKnown  : List (F32 × F32)
  cosKnown  : List (F32 × F32)
  deriving DecidableEq, Repr

/-- The legal ranges of R11 and the alignment of FC_BASE (R101). -/
abbrev Params.Legal (c : Params) : Prop :=
  (1 ≤ c.avgCap ∧ c.avgCap ≤ 65535) ∧ (1 ≤ c.giirCap ∧ c.giirCap ≤ 65535) ∧
  (1 ≤ c.firMax ∧ c.firMax ≤ 32767) ∧
  (1 ≤ c.niAvg ∧ c.niAvg ≤ 16) ∧ (1 ≤ c.niLo ∧ c.niLo ≤ 16) ∧
  (1 ≤ c.niGiir ∧ c.niGiir ≤ 16) ∧ (1 ≤ c.niFir ∧ c.niFir ≤ 16) ∧
  c.p ≤ 30 ∧ c.fcBase % 256 = 0

/-- The test configuration T0 (95_test_vectors.md section 0); DESIGN CHOICE (log 1): FC_BASE is 0, and no value of
FSIN or FCOS is named. -/
def Params.t0 : Params where
  avgCap := 8
  giirCap := 8
  firMax := 16
  niAvg := 2
  niLo := 2
  niGiir := 2
  niFir := 2
  p := 9
  coefRound := .trunc
  loForm := .be
  fcBase := 0
  sinKnown := []
  cosKnown := []

namespace Config

/-- FSIN of R30: a total function nothing is assumed of (log 2). -/
opaque fsin : F32 → F32

/-- FCOS of R30: a total function nothing is assumed of (log 2). -/
opaque fcos : F32 → F32

/-- The free part of a NaN result (R24): the sign (bit 22) and the 22 payload bits below the quiet bit of the NaN that
operation number `op` of the command with draw index `draw` returns, if its result is a NaN (log 3). -/
opaque freeNaN : (draw op : Nat) → BitVec 23

end Config

/-- `FSIN(a)` (R30): the value the parameters name for `a`, else the uninterpreted constant. -/
def Params.sin (c : Params) (a : F32) : F32 := (c.sinKnown.lookup a).getD (Config.fsin a)

/-- `FCOS(a)` (R30): the value the parameters name for `a`, else the uninterpreted constant. -/
def Params.cos (c : Params) (a : F32) : F32 := (c.cosKnown.lookup a).getD (Config.fcos a)

end Sys2Proof
end

