-- ==== Sys2Proof/Machine/State.lean ====
section
/-! DEFINITION. The state of the engine as plain data (R73), the reset state (R450), and the reasons a step stops. -/

namespace Sys2Proof.Machine

/-- The completion codes of R401, the values STATUS.LAST takes; codes 7 to 255 are never produced. -/
inductive Code where
  | ok
  | illegal
  | range
  | param
  | notcfg
  | overflow
  | unsupported
  deriving DecidableEq, Repr

/-- One ring-buffer average instance (R60). -/
structure AvgInst where
  /-- `BUF[0..AVG_CAP-1]`, the raw storage array -/
  buf : List F32
  /-- `CUR`, the write cursor -/
  cur : Nat
  deriving DecidableEq, Repr

/-- The state of one low-order filter (R62): previous section outputs and previous input. -/
structure LoFilter where
  s1 : F32
  s2 : F32
  s3 : F32
  x1 : F32
  deriving DecidableEq, Repr

/-- One low-order instance: six independent filter states (R62). -/
structure LoInst where
  lp1 : LoFilter
  lp2 : LoFilter
  lp3 : LoFilter
  hp1 : LoFilter
  hp2 : LoFilter
  hp3 : LoFilter
  deriving DecidableEq, Repr

/-- One general-IIR instance (R64). -/
structure GiirInst where
  /-- `NB`, number of input taps; 0 = unconfigured -/
  nb : Nat
  /-- `NA`, number of output taps including a_0; 0 = unconfigured -/
  na : Nat
  /-- `B`, input taps -/
  b  : List F32
  /-- `A`, output taps; `A[0]` is stored and never used in arithmetic -/
  a  : List F32
  /-- `X`, channel-1 input history -/
  x  : List F32
  /-- `Y`, channel-1 output history -/
  y  : List F32
  /-- `X2`, channel-2 input history -/
  x2 : List F32
  /-- `Y2`, channel-2 output history -/
  y2 : List F32
  deriving DecidableEq, Repr

/-- One FIR instance (R67). -/
structure FirInst where
  /-- `ORDER`, number of taps of the current design; 0 = not designed -/
  order  : Nat
  /-- `HF`, float coefficients -/
  hf     : List F32
  /-- `HI`, fixed-point coefficients -/
  hi     : List Int
  /-- `BUFA`, channel-A float sample buffer, doubled layout -/
  bufA   : List F32
  /-- `BUFB`, channel-B float sample buffer, doubled layout -/
  bufB   : List F32
  /-- `BUFR`, raw i32 sample buffer, doubled layout -/
  bufR   : List Word
  /-- `CUR`, the one write cursor of the three buffers -/
  cur    : Nat
  /-- `KSCALE`, reference-voltage scale of the integer path -/
  kScale : F32
  /-- `KGAIN`, gain of the integer path -/
  kGain  : F32
  /-- `KOFF`, offset of the integer path -/
  kOff   : F32
  deriving DecidableEq, Repr

/-- What the outside world does to the engine, one action a step (log 4): the two memory primitives of R16 and the
platform reset of R450. Addresses and access widths (in bytes) are plain numbers. -/
inductive HostAction where
  /-- `MemRead(addr, width)` -/
  | read (addr width : Nat)
  /-- `MemWrite(addr, width, value)` -/
  | write (addr width : Nat) (value : Word)
  /-- the power-on or platform reset of the engine (R450) -/
  | reset
  deriving DecidableEq, Repr

/-- The machine state (R73): the host-visible registers of R51 to R57 and the instance records of R60, R62, R64 and
R67, beside the parameters and three fields of the model's own. -/
structure State where
  /-- the implementation parameters (R11, R101), which no step changes; the model's own home for them (log 1) -/
  cfg      : Params
  /-- CMD, the last command word written (R51) -/
  cmd      : Word
  /-- STATUS.LAST, STATUS bits 7:0 (R52) -/
  last     : Code
  /-- STATUS.ERR, STATUS bit 8, sticky (R52) -/
  err      : Bool
  /-- OP0 to OP7 (R56) -/
  op       : Vector Word 8
  /-- RES0 to RES3 (R57) -/
  res      : Vector Word 4
  /-- the average instances `AVG[0..NI_AVG-1]` (R60) -/
  avg      : List AvgInst
  /-- the low-order instances `LO[0..NI_LO-1]` (R62) -/
  lo       : List LoInst
  /-- the general-IIR instances `GIIR[0..NI_GIIR-1]` (R64) -/
  giir     : List GiirInst
  /-- the FIR instances `FIR[0..NI_FIR-1]` (R67) -/
  fir      : List FirInst
  /-- the model's own: the draw index of the next command's NaN results (R24, log 3) -/
  draws    : Nat
  /-- the model's own: the host's actions not yet served, oldest first (log 4) -/
  bus      : List HostAction
  /-- the model's own: the word the last MemRead returned (log 5) -/
  readData : Word
  deriving DecidableEq, Repr

/-- Why the machine stops. No command ever stops: every error of a command is a completion code (R400). -/
inductive Fault where
  /-- Raised by `serve` for a host access of the register window that is not a 32-bit access at a word-aligned offset:
  "the model gives it no step (the host is stuck)" (R105, I20). Safe: nothing follows from a run that stops (log 6). -/
  | inadmissibleAccess
  /-- Raised by `serve` for a host access outside the 256-byte register window, the engine's only address space
  (R101). Safe: nothing follows from a run that stops (log 7). -/
  | outsideWindow
  deriving DecidableEq, Repr

/-- Why the model has no meaning for a command. -/
inductive Refusal where
  /-- An instruction of the opcode table without a meaning. No arm of `exec` answers it: every row is modelled. Safe. -/
  | notModelled (mnemonic : String)
  deriving DecidableEq, Repr

/-! ### Reset (R450) -/

/-- Reset and AVG.CLR value of an average instance (R61). -/
def AvgInst.reset (c : Params) : AvgInst where
  buf := List.replicate c.avgCap 0
  cur := 0

/-- Reset and LO.CLR value of a low-order filter state (R63). -/
def LoFilter.reset : LoFilter where
  s1 := 0
  s2 := 0
  s3 := 0
  x1 := 0

/-- Reset value of a low-order instance (R63). -/
def LoInst.reset : LoInst where
  lp1 := .reset
  lp2 := .reset
  lp3 := .reset
  hp1 := .reset
  hp2 := .reset
  hp3 := .reset

/-- Reset value of a general-IIR instance: unconfigured (R66). -/
def GiirInst.reset (c : Params) : GiirInst where
  nb := 0
  na := 0
  b := List.replicate c.giirCap 0
  a := List.replicate c.giirCap 0
  x := List.replicate c.giirCap 0
  y := List.replicate c.giirCap 0
  x2 := List.replicate c.giirCap 0
  y2 := List.replicate c.giirCap 0

/-- Reset value of a FIR instance: not designed, `KSCALE` = `KGAIN` = ONE, `KOFF` = ZERO (R69). -/
def FirInst.reset (c : Params) : FirInst where
  order := 0
  hf := List.replicate c.firMax 0
  hi := List.replicate c.firMax 0
  bufA := List.replicate (2 * c.firMax) 0
  bufB := List.replicate (2 * c.firMax) 0
  bufR := List.replicate (2 * c.firMax) 0
  cur := 0
  kScale := 0x3F800000#32
  kGain := 0x3F800000#32
  kOff := 0

/-- The state right after reset, for the parameters `c` (R450). The last three fields are the model's own
(DESIGN CHOICE, log 3, log 4, log 5). -/
def State.resetOf (c : Params) : State where
  cfg := c
  cmd := 0
  last := .ok
  err := false
  op := Vector.replicate 8 0
  res := Vector.replicate 4 0
  avg := List.replicate c.niAvg (.reset c)
  lo := List.replicate c.niLo .reset
  giir := List.replicate c.niGiir (.reset c)
  fir := List.replicate c.niFir (.reset c)
  draws := 0
  bus := []
  readData := 0

/-- The machine right after reset (R450), with the parameters of the spec's test configuration T0 (DESIGN CHOICE,
log 1). -/
def State.reset : State := .resetOf .t0

end Sys2Proof.Machine
end

