-- ==== Sys2Proof/Machine/Flags.lean ====
section
/-! DEFINITION. STATUS (R52, R401): its fields, its word, and the two ways a command ends (R17, R18, R400). -/

namespace Sys2Proof.Machine

/-- The number of a completion code (R401). -/
def Code.number : Code → Nat
  | .ok          => 0
  | .illegal     => 1
  | .range       => 2
  | .param       => 3
  | .notcfg      => 4
  | .overflow    => 5
  | .unsupported => 6

/-- The STATUS register as the host reads it (R52): LAST in bits 7:0, ERR in bit 8, bits 31:9 read as 0. -/
def statusWord (last : Code) (err : Bool) : Word :=
  BitVec.ofNat 23 0 ++ BitVec.ofBool err ++ BitVec.ofNat 8 last.number

/-- `raise Error(c)` (R17, R400): STATUS.LAST <- c, STATUS.ERR <- 1, and nothing else changes. -/
def State.raise (s : State) (c : Code) : State := { s with last := c, err := true }

/-- A command that reaches its end (R18): STATUS.LAST <- OK; STATUS.ERR is not changed. -/
def State.complete (s : State) : State := { s with last := .ok }

end Sys2Proof.Machine
end

