-- ==== Sys2Proof/Machine/Float.lean ====
section
/-! DEFINITION. IEEE 754 binary32 arithmetic (R20 to R26, R29): exact integers in units of 2^-149, rounded once to
nearest, ties to even. Each operation that can answer a NaN takes the NaN it answers as its first argument (R24). -/

namespace Sys2Proof.Machine

/-! ### The parts of a pattern (R20) -/

/-- The sign, bit 31. -/
def fsign (a : F32) : Bool := a.msb

/-- The magnitude bits 30:0; they order the magnitudes of all non-NaN values. -/
def fmag (a : F32) : Nat := a.toNat % 2 ^ 31

/-- The exponent field, bits 30:23. -/
def fexp (a : F32) : Nat := fmag a / 2 ^ 23

/-- The fraction field, bits 22:0. -/
def ffrac (a : F32) : Nat := fmag a % 2 ^ 23

/-- The magnitude bits of an infinity. -/
def infMag : Nat := 0x7F800000

def isNaN (a : F32) : Bool := infMag < fmag a

def isInf (a : F32) : Bool := fmag a == infMag

/-- `isfinite(a)` (R25): neither an infinity nor a NaN. -/
def isFinite (a : F32) : Bool := fmag a < infMag

def isZero (a : F32) : Bool := fmag a == 0

/-- The magnitude with exponent field `e` and fraction `m`, in units of 2^-149: subnormal when the exponent field is
0, else with the hidden bit. -/
def unitsOf (e m : Nat) : Nat := if e = 0 then m else (2 ^ 23 + m) * 2 ^ (e - 1)

/-- |a| of a finite `a`, in units of 2^-149 (exact). -/
def funits (a : F32) : Nat := unitsOf (fexp a) (ffrac a)

/-- A finite `a` as an integer multiple of 2^-149 (exact). -/
def fint (a : F32) : Int := if fsign a then -(funits a : Int) else funits a

/-- A pattern from its sign and magnitude bits. -/
def fpack (neg : Bool) (mag : Nat) : F32 := BitVec.ofNat 32 (if neg then 2 ^ 31 + mag else mag)

/-! ### Rounding (R21, R22) -/

/-- `n / d` rounded to the nearest integer, ties to even. -/
def roundEven (n d : Nat) : Nat :=
  let q := n / d
  let r := n % d
  if 2 * r < d then q else if d < 2 * r then q + 1 else q + q % 2

/-- The magnitude bits of `n / d` units of 2^-149 rounded once to binary32, nearest, ties to even: with `2 ^ k` units
between neighbours, the significand lies in 2^23 .. 2^24 (below 2^23 only for subnormals, where k = 0), and
`k * 2 ^ 23` plus the significand is the bit pattern. A value that rounds past the largest finite is an infinity. -/
def roundMag (n d : Nat) : Nat :=
  let k := (n / d).log2 - 23
  min (k * 2 ^ 23 + roundEven n (d * 2 ^ k)) infMag

/-! ### Arithmetic (R21) -/

/-- `fneg(a)`: flips bit 31 only. -/
def fneg (a : F32) : F32 := a ^^^ 0x80000000#32

/-- `fadd(a, b)`; `nan` is the NaN answered when the IEEE result is a NaN. -/
def fadd (nan a b : F32) : F32 :=
  if isNaN a || isNaN b then nan
  else if isInf a then (if isInf b && (fsign a != fsign b) then nan else a)
  else if isInf b then b
  else
    let v := fint a + fint b
    if v = 0 then fpack (fsign a && fsign b) 0 else fpack (decide (v < 0)) (roundMag v.natAbs 1)

/-- `fsub(a, b)` = `fadd(a, -b)`. -/
def fsub (nan a b : F32) : F32 := fadd nan a (fneg b)

/-- `fmul(a, b)`. -/
def fmul (nan a b : F32) : F32 :=
  if isNaN a || isNaN b then nan
  else if isInf a || isInf b then
    (if isZero a || isZero b then nan else fpack (fsign a != fsign b) infMag)
  else fpack (fsign a != fsign b) (roundMag (funits a * funits b) (2 ^ 149))

/-- `fdiv(a, b)`. -/
def fdiv (nan a b : F32) : F32 :=
  if isNaN a || isNaN b then nan
  else if isInf a then (if isInf b then nan else fpack (fsign a != fsign b) infMag)
  else if isInf b then fpack (fsign a != fsign b) 0
  else if isZero b then (if isZero a then nan else fpack (fsign a != fsign b) infMag)
  else fpack (fsign a != fsign b) (roundMag (funits a * 2 ^ 149) (funits b))

/-! ### Comparison (R25) -/

/-- The position of a non-NaN value in the order of the reals; both zeros stand at 0. -/
def forder (a : F32) : Int := if fsign a then -(fmag a : Int) else fmag a

/-- `flt(a, b)`: ordered less-than, false when either operand is a NaN. -/
def flt (a b : F32) : Bool := !isNaN a && !isNaN b && decide (forder a < forder b)

/-- `fgt(a, b)`: ordered greater-than, false when either operand is a NaN. -/
def fgt (a b : F32) : Bool := flt b a

/-! ### Conversion (R26) -/

/-- `i2f(n)`: an integer rounded to binary32, nearest, ties to even. -/
def i2f (n : Int) : F32 := fpack (decide (n < 0)) (roundMag (n.natAbs * 2 ^ 149) 1)

/-- The magnitude of `f2i`: toward zero (TRUNC), or to nearest with ties away from zero (NEAREST). -/
def truncMag (r : CoefRound) (a : F32) : Nat :=
  match r with
  | .trunc   => funits a / 2 ^ 149
  | .nearest => (2 * funits a + 2 ^ 149) / 2 ^ 150

/-- `f2i(a)` of a finite `a` (R26); the rules apply it to finite operands only. -/
def f2i (r : CoefRound) (a : F32) : Int := if fsign a then -(truncMag r a : Int) else truncMag r a

/-! ### Constants (R29) -/

def fZERO : F32 := 0x00000000#32
def fONE : F32 := 0x3F800000#32
def fTWO : F32 := 0x40000000#32
def fTHREE : F32 := 0x40400000#32
def fPI : F32 := 0x40490FDB#32
def fTWOPI : F32 := 0x40C90FDB#32
def fC054 : F32 := 0x3F0A3D71#32
def fC046 : F32 := 0x3EEB851F#32

/-- `SCALE_P` = 2^P, exact for 0 ≤ P ≤ 30. -/
def scaleP (c : Params) : F32 := i2f (2 ^ c.p)

/-! ### NaN results (R24) -/

/-- A quiet NaN from its free part: sign (bit 22 of `d`), exponent all ones, quiet bit, 22 payload bits. -/
def quietNaN (d : BitVec 23) : F32 := d.extractLsb' 22 1 ++ 0xFF#8 ++ 1#1 ++ d.extractLsb' 0 22

/-- The NaN results of one command: `ν k` is the NaN that operation number `k` of the command answers. -/
abbrev NaNs := Nat → F32

/-- The NaN results of the command with draw index `draw` (R24, log 3). -/
def freeNaNs (draw : Nat) : NaNs := fun k => quietNaN (Config.freeNaN draw k)

/-- One of `m` disjoint streams of a command's NaN results: stream `c` < `m`. -/
def NaNs.lane (ν : NaNs) (m c : Nat) : NaNs := fun k => ν (m * k + c)

end Sys2Proof.Machine
end

