-- ==== Sys2Proof/Machine/Operands.lean ====
section
/-! DEFINITION. Operand and result forms: how a command reads OP0 to OP7 (R14, R31, R33, R107, R134) and writes RES0
upward (R57, R135). -/

namespace Sys2Proof.Machine

/-! ### Reading operand registers -/

/-- `as_f32(r)` (R14): the same 32 bits, read as binary32. -/
def asF32 (r : Word) : F32 := r

/-- `as_u32(r)` (R14, R31): 0 .. 2^32-1; a value with bit 31 set is a large number. -/
def asU32 (r : Word) : Nat := r.toNat

/-- `sext_32(r)`, also `as_i32(r)` (R14, R33): two's complement. -/
def sext32 (r : Word) : Int := r.toInt

/-- `sext_64({hi, lo})` (R14, R371): a 64-bit two's-complement value from two registers, `hi` in the high bits (R13). -/
def sext64 (hi lo : Word) : Int := (hi ++ lo).toInt

/-- `low32(v)` = v mod 2^32 as a 32-bit pattern (R14). -/
def low32 (v : Int) : Word := BitVec.ofInt 32 v

/-- `v[63:32]` of an integer (R13). -/
def high32 (v : Int) : Word := BitVec.ofInt 32 (v / 2 ^ 32)

/-- `asr(v, s)` = floor(v / 2^s) (R28). -/
def asr (v : Int) (s : Nat) : Int := v / 2 ^ s

/-! ### Result registers -/

/-- What a successful command writes: results go to RES0 upward, the other result registers keep their values
(R57, R135). No command writes more than two. -/
inductive Results where
  | none
  | one (r0 : Word)
  | two (r0 r1 : Word)
  deriving DecidableEq, Repr

/-- The result registers after the results are written. -/
def Results.write (r : Results) (res : Vector Word 4) : Vector Word 4 :=
  match r with
  | .none      => res
  | .one r0    => res.set 0 r0
  | .two r0 r1 => (res.set 0 r0).set 1 r1

end Sys2Proof.Machine
end

