-- ==== Sys2Proof/Machine/Ops.lean ====
section
/-! DEFINITION. The shared operations: ending a command, running a command on one instance of a unit, array access,
the ring, shift and doubled buffers, and the reset of the whole engine. -/

namespace Sys2Proof.Machine

/-- The outcome type of every meaning. -/
abbrev Result := Host.Outcome State Fault Refusal

/-! ### How a command ends (R17, R18, R400)

The engine takes no traps (R406): an error is a completion code in the NEXT state, and there is nothing to return
from. A command's body answers either the code it raises or the state it commits, so whatever a body computed before
it raised is discarded. -/

/-- A command from its body: the raised code on the state as it was, or the committed state with LAST = OK. -/
def finish (s : State) (body : Except Code State) : Result :=
  match body with
  | .error c => .next (s.raise c)
  | .ok t    => .next t.complete

/-- The NaN results of the command about to run (R24, log 3). -/
def State.nans (s : State) : NaNs := freeNaNs s.draws

/-! ### Commands of a unit with instances (R72, R133)

`runAvg`, `runLo`, `runGiir` and `runFir` are the only way such a command reaches state: the body sees the one
instance the INST field selects and answers its new value and the results. An INST value at or above the instance
count raises RANGE before anything else is checked (R403). -/

def State.avgAt (s : State) (n : Nat) : AvgInst := s.avg.getD n (.reset s.cfg)
def State.loAt (s : State) (n : Nat) : LoInst := s.lo.getD n .reset
def State.giirAt (s : State) (n : Nat) : GiirInst := s.giir.getD n (.reset s.cfg)
def State.firAt (s : State) (n : Nat) : FirInst := s.fir.getD n (.reset s.cfg)

def State.setAvg (s : State) (n : Nat) (a : AvgInst) (r : Results) : State :=
  { s with avg := s.avg.set n a, res := r.write s.res }
def State.setLo (s : State) (n : Nat) (a : LoInst) (r : Results) : State :=
  { s with lo := s.lo.set n a, res := r.write s.res }
def State.setGiir (s : State) (n : Nat) (a : GiirInst) (r : Results) : State :=
  { s with giir := s.giir.set n a, res := r.write s.res }
def State.setFir (s : State) (n : Nat) (a : FirInst) (r : Results) : State :=
  { s with fir := s.fir.set n a, res := r.write s.res }

/-- A command on `AVG[n]`. -/
def runAvg (n : Nat) (body : State → AvgInst → Except Code (AvgInst × Results)) (s : State) : Result :=
  finish s <|
    if s.cfg.niAvg ≤ n then .error .range
    else (body s (s.avgAt n)).map fun (a, r) => s.setAvg n a r

/-- A command on `LO[n]`. -/
def runLo (n : Nat) (body : State → LoInst → Except Code (LoInst × Results)) (s : State) : Result :=
  finish s <|
    if s.cfg.niLo ≤ n then .error .range
    else (body s (s.loAt n)).map fun (a, r) => s.setLo n a r

/-- A command on `GIIR[n]`. -/
def runGiir (n : Nat) (body : State → GiirInst → Except Code (GiirInst × Results)) (s : State) : Result :=
  finish s <|
    if s.cfg.niGiir ≤ n then .error .range
    else (body s (s.giirAt n)).map fun (a, r) => s.setGiir n a r

/-- A command on `FIR[n]`. -/
def runFir (n : Nat) (body : State → FirInst → Except Code (FirInst × Results)) (s : State) : Result :=
  finish s <|
    if s.cfg.niFir ≤ n then .error .range
    else (body s (s.firAt n)).map fun (a, r) => s.setFir n a r

/-- A command without instances that writes results only (R370, R371). -/
def runPlain (body : State → Results) (s : State) : Result :=
  finish s (.ok { s with res := (body s).write s.res })

/-! ### Arrays

An array is a list as long as its capacity. Reading past the end answers +0.0 or 0, which happens in no state a run
reaches (R120, log 10). -/

/-- Entry `k` of an array of 32-bit patterns. -/
def rd (l : List Word) (k : Nat) : Word := l.getD k 0

/-- Entry `k` of an array of integers. -/
def rdInt (l : List Int) (k : Nat) : Int := l.getD k 0

/-- An array of `cap` entries, every one +0.0 (or 0). -/
def zeros (cap : Nat) : List Word := List.replicate cap 0

/-- The checks of a coefficient access (R261 to R264, R317, R318): a table of `len` taps, `len` = 0 when the instance
is not configured, at index `k`; the error it raises, if any. -/
def tapCheck (len k : Nat) : Option Code :=
  if len = 0 then some .notcfg else if len ≤ k then some .range else none

/-- Single ring (R115): where the sample written `i` writes ago stands, for the cursor `c` before it advances and
capacity `C`: `(c - i) mod C`. -/
def ringIndex (C c i : Nat) : Nat := ((c : Int) - i).emod C |>.toNat

/-- Shift array (R119): `for k = m downto 1: H[k] <- H[k-1]`. -/
def shiftUp : Nat → List F32 → List F32
  | 0,     h => h
  | k + 1, h => shiftUp k (h.set (k + 1) (rd h k))

/-- Doubled ring (R116, R340): `BUF[c] <- v; BUF[c + N] <- v`. -/
def writeBoth (N c : Nat) (v : Word) (buf : List Word) : List Word := (buf.set c v).set (c + N) v

/-- The buffer-indexing policies of R117. -/
inductive Policy where
  | mod
  | branch
  | dbl
  deriving DecidableEq, Repr

/-- The index functions of R117. -/
def Policy.index (p : Policy) (c k N : Nat) : Nat :=
  match p with
  | .mod    => (c + k) % N
  | .branch => if N ≤ c + k then c + k - N else c + k
  | .dbl    => c + k

/-- A weighted sum (R27): `acc <- t 0; acc <- fadd(acc, t 1); …; acc <- fadd(acc, t m)`, m + 1 terms in that order,
starting at the first term. The addition of term `k` draws its NaN from `ν k`. -/
def sumF (ν : NaNs) (t : Nat → F32) : Nat → F32
  | 0     => t 0
  | k + 1 => fadd (ν (k + 1)) (sumF ν t k) (t (k + 1))

/-- An exact integer sum of the terms `t 0 … t (m-1)` (R28). -/
def sumI (t : Nat → Int) : Nat → Int
  | 0     => 0
  | k + 1 => sumI t k + t k

/-! ### Reset of the engine (R450)

Every register and instance field takes its reset value. The parameters are no registers, and the model's own fields
are the host's side of the machine: they keep their values (log 8). -/

def State.resetEngine (s : State) : State :=
  { State.resetOf s.cfg with draws := s.draws, bus := s.bus, readData := s.readData }

end Sys2Proof.Machine
end

