-- ==== Sys2Proof/Machine/Average.lean ====
section
/-! DEFINITION. Ring-buffer average (40_average.md). -/

namespace Sys2Proof.Machine

/-- The sum of R200: the sample just written first, then backward in time with wraparound, N samples. -/
def avgSum (ν : NaNs) (C c N : Nat) (buf : List F32) : F32 :=
  sumF ν (fun i => rd buf (ringIndex C c i)) (N - 1)

/-- The body of AVG.PROC (R200). -/
def avgProc (s : State) (A : AvgInst) : Except Code (AvgInst × Results) :=
  let C := s.cfg.avgCap
  let x := asF32 s.op[0]
  let N := asU32 s.op[1]
  if N < 1 ∨ C < N then .error .range
  else
    let c := A.cur
    let buf := A.buf.set c x
    let avg := fdiv (s.nans 0) (avgSum s.nans C c N buf) (i2f N)
    .ok ({ buf := buf, cur := (c + 1) % C }, .one avg)

/-- AVG.PROC (R200): write one sample and return the mean of the N most recent. -/
def execAvgProc (n : Nat) (s : State) : Result := runAvg n avgProc s

/-- The body of AVG.CLR (R201). -/
def avgClr (s : State) (_ : AvgInst) : Except Code (AvgInst × Results) := .ok (.reset s.cfg, .none)

/-- AVG.CLR (R201): re-initialise an average instance. -/
def execAvgClr (n : Nat) (s : State) : Result := runAvg n avgClr s

end Sys2Proof.Machine
end

