-- ==== Sys2Proof/Machine/Control.lean ====
section
/-! DEFINITION. Engine control commands (46_control.md). -/

namespace Sys2Proof.Machine

/-- NOP (R380): no effect besides STATUS.LAST <- OK. -/
def execNop (s : State) : Result := finish s (.ok s)

/-- SRESET (R381): everything takes its reset value, then CMD reads back the word written. -/
def execSreset (s : State) : Result := finish s (.ok { s.resetEngine with cmd := 0x00000001#32 })

/-- CLRSTAT (R382): STATUS.ERR <- 0. -/
def execClrstat (s : State) : Result := finish s (.ok { s with err := false })

end Sys2Proof.Machine
end

