-- ==== Sys2Proof/Machine/FirConv.lean ====
section
/-! DEFINITION. FIR convolution over a doubled circular buffer (44_fir_convolution.md). -/

namespace Sys2Proof.Machine

/-! ### Common parts (R340 to R345) -/

/-- The cursor after the advance (R341). -/
def nextCursor (F : FirInst) : Nat := (F.cur + 1) % F.order

/-- `dot_f(BUF, c')` (R345): increasing tap index, starting at the first term. -/
def dotF (ν : NaNs) (p : Policy) (F : FirInst) (buf : List F32) (c : Nat) : F32 :=
  sumF (ν.lane 2 0) (fun k => fmul (ν.lane 2 1 k) (rd F.hf k) (rd buf (p.index c k F.order))) (F.order - 1)

/-- The exact integer dot product of R347. -/
def dotI (p : Policy) (F : FirInst) (buf : List Word) (c : Nat) : Int :=
  sumI (fun k => rdInt F.hi k * sext32 (rd buf (p.index c k F.order))) F.order

/-- The instance after the buffer writes and the cursor advance of FIR.PROCF and FIR.PROCI (R340, R341, R346). -/
def firPush (F : FirInst) (x : F32) (r : Word) : FirInst :=
  { F with
    bufA := writeBoth F.order F.cur x F.bufA
    bufR := writeBoth F.order F.cur r F.bufR
    cur := nextCursor F }

/-- The instance after the buffer writes and the cursor advance of FIR.PROC2 (R340, R341, R348). -/
def firPush2 (F : FirInst) (xA xB : F32) : FirInst :=
  { F with
    bufA := writeBoth F.order F.cur xA F.bufA
    bufB := writeBoth F.order F.cur xB F.bufB
    cur := nextCursor F }

/-! ### FIR.PROCF (R346) -/

/-- The body of FIR.PROCF (R346) under an indexing policy. -/
def firProcf (p : Policy) (s : State) (F : FirInst) : Except Code (FirInst × Results) :=
  if F.order = 0 then .error .notcfg
  else
    let G := firPush F (asF32 s.op[0]) s.op[1]
    .ok (G, .one (dotF s.nans p G G.bufA G.cur))

/-- FIR.PROCF.MOD (R346). -/
def execFirProcfMod (n : Nat) (s : State) : Result := runFir n (firProcf .mod) s

/-- FIR.PROCF.BRANCH (R346). -/
def execFirProcfBranch (n : Nat) (s : State) : Result := runFir n (firProcf .branch) s

/-- FIR.PROCF.DBL (R346). -/
def execFirProcfDbl (n : Nat) (s : State) : Result := runFir n (firProcf .dbl) s

/-! ### FIR.PROCI (R347) -/

/-- The integer sum does not fit 64 bits (R347). -/
def overflows64 (v : Int) : Bool := decide (v < -2 ^ 63) || decide (2 ^ 63 - 1 < v)

/-- The physical conversion of R347: `fadd(fmul(fmul(i2f(yi), KSCALE), KGAIN), KOFF)`. -/
def physical (ν : NaNs) (F : FirInst) (yi : Int) : F32 :=
  fadd (ν 2) (fmul (ν 1) (fmul (ν 0) (i2f yi) F.kScale) F.kGain) F.kOff

/-- The body of FIR.PROCI (R347) under an indexing policy. -/
def firProci (p : Policy) (s : State) (F : FirInst) : Except Code (FirInst × Results) :=
  if F.order = 0 then .error .notcfg
  else
    let G := firPush F (asF32 s.op[0]) s.op[1]
    let sum := dotI p G G.bufR G.cur
    if overflows64 sum then .error .overflow
    else
      let yi := asr sum s.cfg.p
      .ok (G, .two (physical s.nans G yi) (low32 yi))

/-- FIR.PROCI.MOD (R347). -/
def execFirProciMod (n : Nat) (s : State) : Result := runFir n (firProci .mod) s

/-- FIR.PROCI.BRANCH (R347). -/
def execFirProciBranch (n : Nat) (s : State) : Result := runFir n (firProci .branch) s

/-- FIR.PROCI.DBL (R347). -/
def execFirProciDbl (n : Nat) (s : State) : Result := runFir n (firProci .dbl) s

/-! ### FIR.PROC2 (R348)

The word with MOD = 1 ends with UNSUPPORTED; it is no row of the opcode table, and the decoder answers it (R137). -/

/-- The body of FIR.PROC2 (R348) under an indexing policy. -/
def firProc2 (p : Policy) (s : State) (F : FirInst) : Except Code (FirInst × Results) :=
  if F.order = 0 then .error .notcfg
  else
    let G := firPush2 F (asF32 s.op[0]) (asF32 s.op[1])
    .ok (G, .two (dotF (s.nans.lane 2 0) p G G.bufA G.cur) (dotF (s.nans.lane 2 1) p G G.bufB G.cur))

/-- FIR.PROC2.MOD (R348). -/
def execFirProc2Mod (n : Nat) (s : State) : Result := runFir n (firProc2 .mod) s

/-- FIR.PROC2.BRANCH (R348). -/
def execFirProc2Branch (n : Nat) (s : State) : Result := runFir n (firProc2 .branch) s

/-- FIR.PROC2.DBL (R348). -/
def execFirProc2Dbl (n : Nat) (s : State) : Result := runFir n (firProc2 .dbl) s

/-! ### FIR.SETCONV and FIR.CLR (R349, R350) -/

/-- The body of FIR.SETCONV (R349). -/
def firSetconv (s : State) (F : FirInst) : Except Code (FirInst × Results) :=
  .ok ({ F with kScale := asF32 s.op[0], kGain := asF32 s.op[1], kOff := asF32 s.op[2] }, .none)

/-- FIR.SETCONV (R349): set the integer path's physical conversion. -/
def execFirSetconv (n : Nat) (s : State) : Result := runFir n firSetconv s

/-- The body of FIR.CLR (R350). -/
def firClr (s : State) (F : FirInst) : Except Code (FirInst × Results) :=
  let len := 2 * s.cfg.firMax
  .ok ({ F with bufA := zeros len, bufB := zeros len, bufR := zeros len, cur := 0 }, .none)

/-- FIR.CLR (R350): clear the sample buffers, keep the design. -/
def execFirClr (n : Nat) (s : State) : Result := runFir n firClr s

end Sys2Proof.Machine
end

