-- ==== Sys2Proof/Machine/FirDesign.lean ====
section
/-! DEFINITION. FIR coefficient design and readback (43_fir_design.md). -/

namespace Sys2Proof.Machine

/-- The design types, the VAR field of OPC 0x40 (R135). -/
inductive FirKind where
  | ma
  | lp
  | hp
  | bp
  | bs
  deriving DecidableEq, Repr

/-- The windows, the MOD field of OPC 0x40 (R300). -/
inductive Window where
  | rect
  | hamm
  deriving DecidableEq, Repr

/-- What a design is computed from (R300): type, window, the two cutoffs, the order and the sample frequency. -/
structure Design where
  kind   : FirKind
  window : Window
  f1     : F32
  f2     : F32
  order  : Nat
  fs     : F32
  deriving DecidableEq, Repr

/-- The design operands (R300): OP0 = f1, OP1 = f2, OP2 = N, OP3 = fs. -/
def designOf (kind : FirKind) (window : Window) (s : State) : Design where
  kind := kind
  window := window
  f1 := asF32 s.op[0]
  f2 := asF32 s.op[1]
  order := asU32 s.op[2]
  fs := asF32 s.op[3]

/-- Finite and positive, the test of a frequency operand (R301). -/
def posFinite (f : F32) : Bool := isFinite f && fgt f fZERO

/-- The design checks of R301, in its order: the error of the first that fails, if any. -/
def designCheck (c : Params) (D : Design) : Option Code :=
  if D.order < 1 ∨ c.firMax < D.order then some .range
  else if D.kind = .ma then none
  else if D.order % 2 = 0 then some .range
  else if D.window = .hamm ∧ D.order = 1 then some .range
  else if ¬ posFinite D.fs then some .param
  else if ¬ posFinite D.f1 then some .param
  else if (D.kind = .bp ∨ D.kind = .bs) ∧ ¬ (isFinite D.f2 ∧ flt D.f1 D.f2) then some .param
  else none

/-! ### One tap (R302 to R305) -/

/-- The centre tap in closed form: `lpc(f) = fdiv(fmul(TWO, f), fs)` (R303). -/
def lpCentre (ν : NaNs) (f fs : F32) : F32 := fdiv (ν 1) (fmul (ν 0) fTWO f) fs

/-- The off-centre tap: `lp(f, t) = fdiv(FSIN(fmul(fdiv(fmul(TWO_PI_F, f), fs), t)), fmul(PI_F, t))` (R303). -/
def lpTap (c : Params) (ν : NaNs) (f fs t : F32) : F32 :=
  fdiv (ν 4) (c.sin (fmul (ν 2) (fdiv (ν 1) (fmul (ν 0) fTWOPI f) fs) t)) (fmul (ν 3) fPI t)

/-- The window of tap `i` (R304). -/
def windowTap (c : Params) (ν : NaNs) (w : Window) (i N : Nat) : F32 :=
  match w with
  | .rect => fONE
  | .hamm => fsub (ν 3) fC054 (fmul (ν 2) fC046 (c.cos (fdiv (ν 1) (fmul (ν 0) fTWOPI (i2f i)) (i2f (N - 1 : Int)))))

/-- The ideal response of tap `i` (R310 to R314); M = (N - 1)/2 is the centre index and t_i = i2f(i - M) (R302). -/
def idealTap (c : Params) (ν : NaNs) (D : Design) (i : Nat) : F32 :=
  let M := (D.order - 1) / 2
  let t := i2f ((i : Int) - M)
  let low (ν : NaNs) (f : F32) : F32 := if i = M then lpCentre ν f D.fs else lpTap c ν f D.fs t
  let l1 := low (ν.lane 4 0) D.f1
  let l2 := low (ν.lane 4 1) D.f2
  match D.kind with
  | .ma => fdiv (ν.lane 4 2 0) fONE (i2f D.order)
  | .lp => l1
  | .hp => if i = M then fsub (ν.lane 4 2 0) fONE l1 else fneg l1
  | .bp => fsub (ν.lane 4 2 0) l2 l1
  | .bs => if i = M then fsub (ν.lane 4 2 0) fONE (fsub (ν.lane 4 2 1) l2 l1) else fsub (ν.lane 4 2 0) l1 l2

/-- The window of tap `i` of a design: none for the moving average, whatever MOD says (R310). -/
def designWindow (c : Params) (ν : NaNs) (D : Design) (i : Nat) : F32 :=
  match D.kind with
  | .ma => fONE
  | _   => windowTap c ν D.window i D.order

/-- The float coefficient `hf_i <- fmul(ideal_i, w_i)` (R305). -/
def tapF (c : Params) (ν : NaNs) (D : Design) (i : Nat) : F32 :=
  fmul (ν.lane 4 2 0) (idealTap c (ν.lane 4 0) D i) (designWindow c (ν.lane 4 1) D i)

/-- The scaled coefficient `hw_i <- fmul(fmul(ideal_i, SCALE_P), w_i)`, windowed once, not re-scaled (R305). -/
def tapW (c : Params) (ν : NaNs) (D : Design) (i : Nat) : F32 :=
  fmul (ν.lane 4 2 2) (fmul (ν.lane 4 2 1) (idealTap c (ν.lane 4 0) D i) (scaleP c))
    (designWindow c (ν.lane 4 1) D i)

/-- The NaN results of tap `i`: its operations are numbered below 128. -/
def NaNs.tap (ν : NaNs) (i : Nat) : NaNs := fun k => ν (128 * i + k)

/-! ### Validation and commit (R315, R316) -/

/-- `-2^31 ≤ v ≤ 2^31 - 1`. -/
def fitsI32 (v : Int) : Bool := decide (-2 ^ 31 ≤ v) && decide (v ≤ 2 ^ 31 - 1)

/-- Tap `i` passes the validation of R315. -/
def tapValid (c : Params) (ν : NaNs) (D : Design) (i : Nat) : Bool :=
  isFinite (tapF c (ν.tap i) D i) && isFinite (tapW c (ν.tap i) D i) &&
    fitsI32 (f2i c.coefRound (tapW c (ν.tap i) D i))

/-- The first `N` entries of an array replaced by `f 0 … f (N-1)`, the others by `z` (R316). -/
def fillArray {α : Type} (cap N : Nat) (f : Nat → α) (z : α) : List α :=
  (List.range cap).map fun i => if i < N then f i else z

/-- The commit of a valid design (R316); the conversion registers are unchanged. -/
def commitDesign (c : Params) (ν : NaNs) (D : Design) (F : FirInst) : FirInst :=
  { F with
    order := D.order
    hf := fillArray c.firMax D.order (fun i => tapF c (ν.tap i) D i) 0
    hi := fillArray c.firMax D.order (fun i => f2i c.coefRound (tapW c (ν.tap i) D i)) 0
    bufA := zeros (2 * c.firMax)
    bufB := zeros (2 * c.firMax)
    bufR := zeros (2 * c.firMax)
    cur := 0 }

/-- The body of a design command: R301, then every tap, R315 and R316. -/
def firDesign (kind : FirKind) (window : Window) (s : State) (F : FirInst) : Except Code (FirInst × Results) :=
  let D := designOf kind window s
  match designCheck s.cfg D with
  | some e => .error e
  | none   =>
    if (List.range D.order).all (tapValid s.cfg s.nans D) then .ok (commitDesign s.cfg s.nans D F, .none)
    else .error .param

/-- FIR.MA.RECT (R310). -/
def execFirMaRect (n : Nat) (s : State) : Result := runFir n (firDesign .ma .rect) s

/-- FIR.MA.HAMM (R310): the window is accepted and ignored. -/
def execFirMaHamm (n : Nat) (s : State) : Result := runFir n (firDesign .ma .hamm) s

/-- FIR.LP.RECT (R311). -/
def execFirLpRect (n : Nat) (s : State) : Result := runFir n (firDesign .lp .rect) s

/-- FIR.LP.HAMM (R311). -/
def execFirLpHamm (n : Nat) (s : State) : Result := runFir n (firDesign .lp .hamm) s

/-- FIR.HP.RECT (R312). -/
def execFirHpRect (n : Nat) (s : State) : Result := runFir n (firDesign .hp .rect) s

/-- FIR.HP.HAMM (R312). -/
def execFirHpHamm (n : Nat) (s : State) : Result := runFir n (firDesign .hp .hamm) s

/-- FIR.BP.RECT (R313). -/
def execFirBpRect (n : Nat) (s : State) : Result := runFir n (firDesign .bp .rect) s

/-- FIR.BP.HAMM (R313). -/
def execFirBpHamm (n : Nat) (s : State) : Result := runFir n (firDesign .bp .hamm) s

/-- FIR.BS.RECT (R314). -/
def execFirBsRect (n : Nat) (s : State) : Result := runFir n (firDesign .bs .rect) s

/-- FIR.BS.HAMM (R314). -/
def execFirBsHamm (n : Nat) (s : State) : Result := runFir n (firDesign .bs .hamm) s

/-! ### Coefficient readback (R317, R318) -/

/-- The body of FIR.GETCF (R317). -/
def firGetcf (s : State) (F : FirInst) : Except Code (FirInst × Results) :=
  let k := asU32 s.op[0]
  match tapCheck F.order k with
  | some c => .error c
  | none   => .ok (F, .one (rd F.hf k))

/-- FIR.GETCF (R317): read one float coefficient. -/
def execFirGetcf (n : Nat) (s : State) : Result := runFir n firGetcf s

/-- The body of FIR.GETCI (R318). -/
def firGetci (s : State) (F : FirInst) : Except Code (FirInst × Results) :=
  let k := asU32 s.op[0]
  match tapCheck F.order k with
  | some c => .error c
  | none   => .ok (F, .one (low32 (rdInt F.hi k)))

/-- FIR.GETCI (R318): read one fixed-point coefficient. -/
def execFirGetci (n : Nat) (s : State) : Result := runFir n firGetci s

end Sys2Proof.Machine
end

