-- ==== Sys2Proof/Machine/GeneralIir.lean ====
section
/-! DEFINITION. General IIR filter, direct form I, single and dual channel (42_general_iir.md). -/

namespace Sys2Proof.Machine

/-! ### Configuration and coefficient access (R260 to R264) -/

/-- The body of GIIR.CFG (R260). -/
def giirCfg (s : State) (_ : GiirInst) : Except Code (GiirInst × Results) :=
  let cap := s.cfg.giirCap
  let nb := asU32 s.op[0]
  let na := asU32 s.op[1]
  if nb < 1 ∨ cap < nb ∨ na < 1 ∨ cap < na then .error .range
  else .ok ({ nb := nb, na := na, b := zeros cap, a := zeros cap,
              x := zeros cap, y := zeros cap, x2 := zeros cap, y2 := zeros cap }, .none)

/-- GIIR.CFG (R260): set the tap counts and clear the instance. -/
def execGiirCfg (n : Nat) (s : State) : Result := runGiir n giirCfg s

/-- The body of GIIR.SETB (R261). -/
def giirSetb (s : State) (G : GiirInst) : Except Code (GiirInst × Results) :=
  let k := asU32 s.op[0]
  match tapCheck G.nb k with
  | some c => .error c
  | none   => .ok ({ G with b := G.b.set k (asF32 s.op[1]) }, .none)

/-- GIIR.SETB (R261): write one input tap. -/
def execGiirSetb (n : Nat) (s : State) : Result := runGiir n giirSetb s

/-- The body of GIIR.SETA (R262). -/
def giirSeta (s : State) (G : GiirInst) : Except Code (GiirInst × Results) :=
  let k := asU32 s.op[0]
  match tapCheck G.na k with
  | some c => .error c
  | none   => .ok ({ G with a := G.a.set k (asF32 s.op[1]) }, .none)

/-- GIIR.SETA (R262): write one output tap. -/
def execGiirSeta (n : Nat) (s : State) : Result := runGiir n giirSeta s

/-- The body of GIIR.GETB (R263). -/
def giirGetb (s : State) (G : GiirInst) : Except Code (GiirInst × Results) :=
  let k := asU32 s.op[0]
  match tapCheck G.nb k with
  | some c => .error c
  | none   => .ok (G, .one (rd G.b k))

/-- GIIR.GETB (R263): read one input tap. -/
def execGiirGetb (n : Nat) (s : State) : Result := runGiir n giirGetb s

/-- The body of GIIR.GETA (R264). -/
def giirGeta (s : State) (G : GiirInst) : Except Code (GiirInst × Results) :=
  let k := asU32 s.op[0]
  match tapCheck G.na k with
  | some c => .error c
  | none   => .ok (G, .one (rd G.a k))

/-- GIIR.GETA (R264): read one output tap. -/
def execGiirGeta (n : Nat) (s : State) : Result := runGiir n giirGeta s

/-! ### Processing (R265, R266, R268) -/

/-- Σ c[k]·h[k] for k = hi downto lo, accumulated from the highest index down (R268). -/
def dotDown (ν : NaNs) (c h : List F32) (hi lo : Nat) : F32 :=
  sumF (ν.lane 2 0) (fun i => fmul (ν.lane 2 1 i) (rd c (hi - i)) (rd h (hi - i))) (hi - lo)

/-- `df1_step(X, Y, x)` on one channel's histories (R268), shift before accumulate: the new X, the new Y and y. -/
def df1Step (ν : NaNs) (G : GiirInst) (X Y : List F32) (x : F32) : List F32 × List F32 × F32 :=
  let X' := (shiftUp (G.nb - 1) X).set 0 x
  let accB := dotDown (ν.lane 3 0) G.b X' (G.nb - 1) 0
  let Ys := shiftUp (G.na - 1) Y
  let y := if G.na = 1 then accB else fsub (ν.lane 3 1 0) accB (dotDown (ν.lane 3 2) G.a Ys (G.na - 1) 1)
  (X', Ys.set 0 y, y)

/-- The body of GIIR.PROC (R265). -/
def giirProc (s : State) (G : GiirInst) : Except Code (GiirInst × Results) :=
  if G.nb = 0 then .error .notcfg
  else
    let (X, Y, y) := df1Step (s.nans.lane 2 0) G G.x G.y (asF32 s.op[0])
    .ok ({ G with x := X, y := Y }, .one y)

/-- GIIR.PROC (R265): filter one sample on channel 1. -/
def execGiirProc (n : Nat) (s : State) : Result := runGiir n giirProc s

/-- The body of GIIR.PROC2 (R266). -/
def giirProc2 (s : State) (G : GiirInst) : Except Code (GiirInst × Results) :=
  if G.nb = 0 then .error .notcfg
  else
    let (X, Y, y1) := df1Step (s.nans.lane 2 0) G G.x G.y (asF32 s.op[0])
    let (X2, Y2, y2) := df1Step (s.nans.lane 2 1) G G.x2 G.y2 (asF32 s.op[1])
    .ok ({ G with x := X, y := Y, x2 := X2, y2 := Y2 }, .two y1 y2)

/-- GIIR.PROC2 (R266): filter one sample on each of two channels with the same coefficients. -/
def execGiirProc2 (n : Nat) (s : State) : Result := runGiir n giirProc2 s

/-- The body of GIIR.CLR (R267). -/
def giirClr (s : State) (G : GiirInst) : Except Code (GiirInst × Results) :=
  let cap := s.cfg.giirCap
  .ok ({ G with x := zeros cap, y := zeros cap, x2 := zeros cap, y2 := zeros cap }, .none)

/-- GIIR.CLR (R267): clear the histories, keep the coefficients. -/
def execGiirClr (n : Nat) (s : State) : Result := runGiir n giirClr s

end Sys2Proof.Machine
end

