-- ==== Sys2Proof/Machine/LowOrder.lean ====
section
/-! DEFINITION. Low-order IIR low-pass and high-pass filters, orders 1 to 3 (41_low_order_iir.md). -/

namespace Sys2Proof.Machine

/-! ### Filters of an instance (R62) -/

/-- The six filters of a low-order instance. -/
inductive LoId where
  | lp1
  | lp2
  | lp3
  | hp1
  | hp2
  | hp3
  deriving DecidableEq, Repr

def LoInst.get (L : LoInst) : LoId → LoFilter
  | .lp1 => L.lp1
  | .lp2 => L.lp2
  | .lp3 => L.lp3
  | .hp1 => L.hp1
  | .hp2 => L.hp2
  | .hp3 => L.hp3

def LoInst.put (L : LoInst) (f : LoId) (F : LoFilter) : LoInst :=
  match f with
  | .lp1 => { L with lp1 := F }
  | .lp2 => { L with lp2 := F }
  | .lp3 => { L with lp3 := F }
  | .hp1 => { L with hp1 := F }
  | .hp2 => { L with hp2 := F }
  | .hp3 => { L with hp3 := F }

/-- `Sj` of a filter, j = 1, 2, 3. -/
def LoFilter.sec (F : LoFilter) (j : Nat) : F32 :=
  match j with
  | 1 => F.s1
  | 2 => F.s2
  | _ => F.s3

/-- `Sj <- u`, j = 1, 2, 3. -/
def LoFilter.setSec (F : LoFilter) (j : Nat) (u : F32) : LoFilter :=
  match j with
  | 1 => { F with s1 := u }
  | 2 => { F with s2 := u }
  | _ => { F with s3 := u }

/-! ### The discretisation factor (R230) -/

/-- `w = fdiv(fs, fmul(TWO_PI_F, fc))` with the checks of R230. -/
def loFactor (ν : NaNs) (fc fs : F32) : Except Code F32 :=
  if ¬ (isFinite fc ∧ fgt fc fZERO) then .error .param
  else if ¬ (isFinite fs ∧ fgt fs fZERO) then .error .param
  else
    let w := fdiv (ν 1) fs (fmul (ν 0) fTWOPI fc)
    if ¬ (isFinite w ∧ fgt w fZERO) then .error .param
    else .ok w

/-! ### Section procedures of family BE (R231, R232) -/

/-- One low-pass section: `u <- fadd(S, fdiv(fsub(v, S), a))`. -/
def lpSection (ν : NaNs) (a S v : F32) : F32 := fadd (ν 2) S (fdiv (ν 1) (fsub (ν 0) v S) a)

/-- One high-pass section: `u <- fmul(g, fadd(S, fsub(v, p)))`. -/
def hpSection (ν : NaNs) (g S v p : F32) : F32 := fmul (ν 2) g (fadd (ν 1) S (fsub (ν 0) v p))

/-- `lo_lp` after sections 1 … k (R232): the filter and `v`. -/
def loLp (ν : NaNs) (a x : F32) (F : LoFilter) : Nat → LoFilter × F32
  | 0     => (F, x)
  | k + 1 =>
    let (G, v) := loLp ν a x F k
    let u := lpSection (ν.lane 4 k) a (G.sec (k + 1)) v
    (G.setSec (k + 1) u, u)

/-- `lo_hp` after sections 1 … k (R232), before `X1 <- x`: the filter, `v` and `p`. -/
def loHp (ν : NaNs) (g x : F32) (F : LoFilter) : Nat → LoFilter × F32 × F32
  | 0     => (F, x, F.x1)
  | k + 1 =>
    let (G, v, p) := loHp ν g x F k
    let S := G.sec (k + 1)
    let u := hpSection (ν.lane 4 k) g S v p
    (G.setSec (k + 1) u, u, S)

/-! ### Commands -/

/-- The body of LPk (R233 to R235), on filter `f` of the instance. -/
def lpProc (f : LoId) (k : Nat) (s : State) (L : LoInst) : Except Code (LoInst × Results) :=
  let ν := s.nans.lane 2 0
  let x := asF32 s.op[0]
  match s.cfg.loForm, loFactor ν (asF32 s.op[1]) (asF32 s.op[2]) with
  | .be, .error c => .error c
  | .be, .ok w    =>
    let a := fadd (ν 2) fONE w
    let (F, y) := loLp (s.nans.lane 2 1) a x (L.get f) k
    .ok (L.put f F, .one y)

/-- The body of HPk (R236 to R238), on filter `f` of the instance. -/
def hpProc (f : LoId) (k : Nat) (s : State) (L : LoInst) : Except Code (LoInst × Results) :=
  let ν := s.nans.lane 2 0
  let x := asF32 s.op[0]
  match s.cfg.loForm, loFactor ν (asF32 s.op[1]) (asF32 s.op[2]) with
  | .be, .error c => .error c
  | .be, .ok w    =>
    let a := fadd (ν 2) fONE w
    let g := fdiv (ν 3) w a
    let (F, y, _) := loHp (s.nans.lane 2 1) g x (L.get f) k
    .ok (L.put f { F with x1 := x }, .one y)

/-- LP1 (R233). -/
def execLp1 (n : Nat) (s : State) : Result := runLo n (lpProc .lp1 1) s

/-- LP2 (R234). -/
def execLp2 (n : Nat) (s : State) : Result := runLo n (lpProc .lp2 2) s

/-- LP3 (R235). -/
def execLp3 (n : Nat) (s : State) : Result := runLo n (lpProc .lp3 3) s

/-- HP1 (R236). -/
def execHp1 (n : Nat) (s : State) : Result := runLo n (hpProc .hp1 1) s

/-- HP2 (R237). -/
def execHp2 (n : Nat) (s : State) : Result := runLo n (hpProc .hp2 2) s

/-- HP3 (R238). -/
def execHp3 (n : Nat) (s : State) : Result := runLo n (hpProc .hp3 3) s

/-- The body of LO.CLR (R239): the selected filters are re-initialised. -/
def loClr (fs : List LoId) (_ : State) (L : LoInst) : Except Code (LoInst × Results) :=
  .ok (fs.foldl (fun L f => L.put f .reset) L, .none)

/-- LO.CLR.ALL (R239): all six filters. -/
def execLoClrAll (n : Nat) (s : State) : Result := runLo n (loClr [.lp1, .lp2, .lp3, .hp1, .hp2, .hp3]) s

/-- LO.CLR.LP1 (R239). -/
def execLoClrLp1 (n : Nat) (s : State) : Result := runLo n (loClr [.lp1]) s

/-- LO.CLR.LP2 (R239). -/
def execLoClrLp2 (n : Nat) (s : State) : Result := runLo n (loClr [.lp2]) s

/-- LO.CLR.LP3 (R239). -/
def execLoClrLp3 (n : Nat) (s : State) : Result := runLo n (loClr [.lp3]) s

/-- LO.CLR.HP1 (R239). -/
def execLoClrHp1 (n : Nat) (s : State) : Result := runLo n (loClr [.hp1]) s

/-- LO.CLR.HP2 (R239). -/
def execLoClrHp2 (n : Nat) (s : State) : Result := runLo n (loClr [.hp2]) s

/-- LO.CLR.HP3 (R239). -/
def execLoClrHp3 (n : Nat) (s : State) : Result := runLo n (loClr [.hp3]) s

end Sys2Proof.Machine
end

