-- ==== Sys2Proof/Machine/Scale.lean ====
section
/-! DEFINITION. Scale/gain stage (45_scale.md); it has no state (R70). -/

namespace Sys2Proof.Machine

/-- SCALE.F (R370): `RES[0] <- fmul(OP[0], OP[1])`. -/
def execScaleF (s : State) : Result :=
  runPlain (fun s => .one (fmul (s.nans 0) (asF32 s.op[0]) (asF32 s.op[1]))) s

/-- The result of SCALE.I (R371): `asr(v * f, 32)`, the exact product floored. -/
def scaleInt (v lo hi : Word) : Int := asr (sext32 v * sext64 hi lo) 32

/-- SCALE.I (R371): fixed-point gain with a factor pre-scaled by 2^32. -/
def execScaleI (s : State) : Result :=
  runPlain (fun s =>
    let r := scaleInt s.op[0] s.op[1] s.op[2]
    .two (low32 r) (high32 r)) s

end Sys2Proof.Machine
end

