-- ==== Sys2Proof/Machine/Dispatch.lean ====
section
/-! DEFINITION. The meaning of every command, one arm a constructor. -/

namespace Sys2Proof.Machine

def exec (i : Instr) (s : State) : Host.Outcome State Fault Refusal :=
  match i with
  | .nop => Sys2Proof.Machine.execNop s
  | .sreset => Sys2Proof.Machine.execSreset s
  | .clrstat => Sys2Proof.Machine.execClrstat s
  | .avgProc n => Sys2Proof.Machine.execAvgProc n s
  | .avgClr n => Sys2Proof.Machine.execAvgClr n s
  | .lp1 n => Sys2Proof.Machine.execLp1 n s
  | .lp2 n => Sys2Proof.Machine.execLp2 n s
  | .lp3 n => Sys2Proof.Machine.execLp3 n s
  | .hp1 n => Sys2Proof.Machine.execHp1 n s
  | .hp2 n => Sys2Proof.Machine.execHp2 n s
  | .hp3 n => Sys2Proof.Machine.execHp3 n s
  | .loClrAll n => Sys2Proof.Machine.execLoClrAll n s
  | .loClrLp1 n => Sys2Proof.Machine.execLoClrLp1 n s
  | .loClrLp2 n => Sys2Proof.Machine.execLoClrLp2 n s
  | .loClrLp3 n => Sys2Proof.Machine.execLoClrLp3 n s
  | .loClrHp1 n => Sys2Proof.Machine.execLoClrHp1 n s
  | .loClrHp2 n => Sys2Proof.Machine.execLoClrHp2 n s
  | .loClrHp3 n => Sys2Proof.Machine.execLoClrHp3 n s
  | .giirCfg n => Sys2Proof.Machine.execGiirCfg n s
  | .giirSetb n => Sys2Proof.Machine.execGiirSetb n s
  | .giirSeta n => Sys2Proof.Machine.execGiirSeta n s
  | .giirGetb n => Sys2Proof.Machine.execGiirGetb n s
  | .giirGeta n => Sys2Proof.Machine.execGiirGeta n s
  | .giirProc n => Sys2Proof.Machine.execGiirProc n s
  | .giirProc2 n => Sys2Proof.Machine.execGiirProc2 n s
  | .giirClr n => Sys2Proof.Machine.execGiirClr n s
  | .firMaRect n => Sys2Proof.Machine.execFirMaRect n s
  | .firMaHamm n => Sys2Proof.Machine.execFirMaHamm n s
  | .firLpRect n => Sys2Proof.Machine.execFirLpRect n s
  | .firLpHamm n => Sys2Proof.Machine.execFirLpHamm n s
  | .firHpRect n => Sys2Proof.Machine.execFirHpRect n s
  | .firHpHamm n => Sys2Proof.Machine.execFirHpHamm n s
  | .firBpRect n => Sys2Proof.Machine.execFirBpRect n s
  | .firBpHamm n => Sys2Proof.Machine.execFirBpHamm n s
  | .firBsRect n => Sys2Proof.Machine.execFirBsRect n s
  | .firBsHamm n => Sys2Proof.Machine.execFirBsHamm n s
  | .firProcfMod n => Sys2Proof.Machine.execFirProcfMod n s
  | .firProcfBranch n => Sys2Proof.Machine.execFirProcfBranch n s
  | .firProcfDbl n => Sys2Proof.Machine.execFirProcfDbl n s
  | .firProciMod n => Sys2Proof.Machine.execFirProciMod n s
  | .firProciBranch n => Sys2Proof.Machine.execFirProciBranch n s
  | .firProciDbl n => Sys2Proof.Machine.execFirProciDbl n s
  | .firProc2Mod n => Sys2Proof.Machine.execFirProc2Mod n s
  | .firProc2Branch n => Sys2Proof.Machine.execFirProc2Branch n s
  | .firProc2Dbl n => Sys2Proof.Machine.execFirProc2Dbl n s
  | .firGetcf n => Sys2Proof.Machine.execFirGetcf n s
  | .firGetci n => Sys2Proof.Machine.execFirGetci n s
  | .firSetconv n => Sys2Proof.Machine.execFirSetconv n s
  | .firClr n => Sys2Proof.Machine.execFirClr n s
  | .scaleF => Sys2Proof.Machine.execScaleF s
  | .scaleI => Sys2Proof.Machine.execScaleI s

end Sys2Proof.Machine
end

