-- ==== Sys2Proof/Machine/Bus.lean ====
section
/-! DEFINITION. The host-visible register window (20_memory.md): its map, reads and writes, and the execution of a
command word. -/

namespace Sys2Proof.Machine

/-! ### The register map (R103) -/

/-- What stands at a word-aligned offset of the register window. -/
inductive Reg where
  | cmd
  | status
  | id
  | rev
  | cap0
  | cap1
  | cap2
  | op (i : Fin 8)
  | res (i : Fin 4)
  | unmapped
  deriving DecidableEq, Repr

/-- The register at an offset from FC_BASE (R103); 0x1C and 0x50 to 0xFC are unmapped. -/
def regAt (off : Nat) : Reg :=
  match off / 4 with
  | 0  => .cmd
  | 1  => .status
  | 2  => .id
  | 3  => .rev
  | 4  => .cap0
  | 5  => .cap1
  | 6  => .cap2
  | 8  => .op 0
  | 9  => .op 1
  | 10 => .op 2
  | 11 => .op 3
  | 12 => .op 4
  | 13 => .op 5
  | 14 => .op 6
  | 15 => .op 7
  | 16 => .res 0
  | 17 => .res 1
  | 18 => .res 2
  | 19 => .res 3
  | _  => .unmapped

/-! ### Constant registers (R53 to R55) -/

/-- ID: the ASCII bytes "DSMV", "D" in bits 31:24 (R53). -/
def idWord : Word := 0x44534D56#32

/-- The REV bit of COEF_ROUND: 0 = TRUNC, 1 = NEAREST (R54). -/
def CoefRound.bit : CoefRound → Nat
  | .trunc   => 0
  | .nearest => 1

/-- REV: revision 1 in bits 7:0, P in bits 15:8, COEF_ROUND in bit 16, bits 31:17 read as 0 (R54). -/
def revWord (c : Params) : Word :=
  BitVec.ofNat 15 0 ++ BitVec.ofNat 1 (CoefRound.bit c.coefRound) ++ BitVec.ofNat 8 c.p ++ BitVec.ofNat 8 1

/-- CAP0: AVG_CAP in bits 15:0, GIIR_CAP in bits 31:16 (R55). -/
def cap0Word (c : Params) : Word := BitVec.ofNat 16 c.giirCap ++ BitVec.ofNat 16 c.avgCap

/-- CAP1: FIR_MAX in bits 15:0, bits 31:16 read as 0 (R55). -/
def cap1Word (c : Params) : Word := BitVec.ofNat 16 0 ++ BitVec.ofNat 16 c.firMax

/-- CAP2: NI_AVG in bits 4:0, NI_LO in 12:8, NI_GIIR in 20:16, NI_FIR in 28:24, all other bits read as 0 (R55). -/
def cap2Word (c : Params) : Word :=
  BitVec.ofNat 3 0 ++ BitVec.ofNat 5 c.niFir ++ BitVec.ofNat 3 0 ++ BitVec.ofNat 5 c.niGiir ++
  BitVec.ofNat 3 0 ++ BitVec.ofNat 5 c.niLo ++ BitVec.ofNat 3 0 ++ BitVec.ofNat 5 c.niAvg

/-! ### Reads and writes -/

/-- The value a host read returns (R51 to R57, R104); a read has no side effect (R108). -/
def State.readReg (s : State) (r : Reg) : Word :=
  match r with
  | .cmd      => s.cmd
  | .status   => statusWord s.last s.err
  | .id       => idWord
  | .rev      => revWord s.cfg
  | .cap0     => cap0Word s.cfg
  | .cap1     => cap1Word s.cfg
  | .cap2     => cap2Word s.cfg
  | .op i     => s.op[i]
  | .res i    => s.res[i]
  | .unmapped => 0

/-- The completion code of a word that is no command (R137, R401). -/
def decodeCode : DecodeError → Code
  | .reservedBits  => .illegal
  | .unknownOpcode => .illegal
  | .badVariant    => .illegal
  | .badInstance   => .illegal
  | .unsupported   => .unsupported

/-- The next command draws its NaN results anew (R24, log 3). -/
def State.nextDraw (s : State) : State := { s with draws := s.draws + 1 }

/-- An outcome with the next state changed. -/
def Result.onNext (f : State → State) : Result → Result
  | .next t    => .next (f t)
  | .fault e   => .fault e
  | .refused e => .refused e

/-- A host write of CMD (R51, R108): the word is stored, then the command it encodes is executed; a word that encodes
none ends with its completion code (R137, R402). -/
def runCommand (w : Word) (s : State) : Result :=
  let t := { s with cmd := w }
  Result.onNext State.nextDraw <|
    match decode w with
    | .ok i    => exec i t
    | .error e => .next (t.raise (decodeCode e))

/-- A host write (R103, R104, R108): OP0 to OP7 only store the value, CMD runs the command, and a write to a read-only
register or an unmapped offset has no effect. -/
def State.writeReg (s : State) (r : Reg) (v : Word) : Result :=
  match r with
  | .cmd      => runCommand v s
  | .op i     => .next { s with op := s.op.set i v }
  | .status   => .next s
  | .id       => .next s
  | .rev      => .next s
  | .cap0     => .next s
  | .cap1     => .next s
  | .cap2     => .next s
  | .res _    => .next s
  | .unmapped => .next s

/-! ### One host action -/

/-- Whether the engine has a step for an access (R101, R105): its offset in the register window, or the fault. -/
def accessOffset (c : Params) (addr width : Nat) : Except Fault Nat :=
  if addr < c.fcBase ∨ c.fcBase + 256 ≤ addr then .error .outsideWindow
  else if width ≠ 4 ∨ (addr - c.fcBase) % 4 ≠ 0 then .error .inadmissibleAccess
  else .ok (addr - c.fcBase)

/-- The effect of one action of the host or the platform (R16, R108, R450). -/
def serve (a : HostAction) (s : State) : Result :=
  match a with
  | .read addr width =>
    match accessOffset s.cfg addr width with
    | .error e => .fault e
    | .ok off  => .next { s with readData := s.readReg (regAt off) }
  | .write addr width v =>
    match accessOffset s.cfg addr width with
    | .error e => .fault e
    | .ok off  => s.writeReg (regAt off) v
  | .reset => .next s.resetEngine

/-- The host's write of a command word to CMD (R103: offset 0x00). -/
def commandWrite (c : Params) (w : Word) : HostAction := .write c.fcBase 4 w

end Sys2Proof.Machine
end

