-- ==== Sys2Proof/Machine/Step.lean ====
section
/-! DEFINITION. One step of the machine: the oldest pending host action is served (R110); an idle engine stays as it
is (R414). -/

namespace Sys2Proof.Machine

/-- One step. The engine fetches nothing (R113): it acts on the host's pending actions, oldest first, one a step, each
whole (R109). With none pending the engine is idle and all state persists (R414, R100). -/
def step (s : State) : Host.Outcome State Fault Refusal :=
  match s.bus with
  | []        => .next s
  | a :: rest => serve a { s with bus := rest }

/-- `s` with the host's write of the command word `w` as the next pending action, so that the next step runs it
(log 4). A command is one 32-bit word (R130). -/
def State.withFetchWord (s : State) (nbits w : Nat) : State :=
  { s with bus := commandWrite s.cfg (BitVec.ofNat 32 (w % 2 ^ nbits)) :: s.bus }

end Sys2Proof.Machine
end

