-- ==== Sys2Proof/Machine/Assembler.lean ====
section
/-! DEFINITION. Host command programs (R141 to R144): the lines, their expansion into host accesses, and the reading of
their text. The notation has no meaning beyond the expansion (D38). -/

namespace Sys2Proof.Machine

/-! ### Operands of a command (R134, R135) -/

/-- The type an opcode reads an operand register as (R14). -/
inductive OperandType where
  | f32
  | u32
  | i32
  deriving DecidableEq, Repr

/-- The operand registers a command reads, in the order R135 lists them, with the type of each. -/
def operandsOf : Instr → List (Nat × OperandType)
  | .nop => []
  | .sreset => []
  | .clrstat => []
  | .avgProc _ => [(0, .f32), (1, .u32)]
  | .avgClr _ => []
  | .lp1 _ => [(0, .f32), (1, .f32), (2, .f32)]
  | .lp2 _ => [(0, .f32), (1, .f32), (2, .f32)]
  | .lp3 _ => [(0, .f32), (1, .f32), (2, .f32)]
  | .hp1 _ => [(0, .f32), (1, .f32), (2, .f32)]
  | .hp2 _ => [(0, .f32), (1, .f32), (2, .f32)]
  | .hp3 _ => [(0, .f32), (1, .f32), (2, .f32)]
  | .loClrAll _ => []
  | .loClrLp1 _ => []
  | .loClrLp2 _ => []
  | .loClrLp3 _ => []
  | .loClrHp1 _ => []
  | .loClrHp2 _ => []
  | .loClrHp3 _ => []
  | .giirCfg _ => [(0, .u32), (1, .u32)]
  | .giirSetb _ => [(0, .u32), (1, .f32)]
  | .giirSeta _ => [(0, .u32), (1, .f32)]
  | .giirGetb _ => [(0, .u32)]
  | .giirGeta _ => [(0, .u32)]
  | .giirProc _ => [(0, .f32)]
  | .giirProc2 _ => [(0, .f32), (1, .f32)]
  | .giirClr _ => []
  | .firMaRect _ => [(2, .u32)]
  | .firMaHamm _ => [(2, .u32)]
  | .firLpRect _ => [(0, .f32), (2, .u32), (3, .f32)]
  | .firLpHamm _ => [(0, .f32), (2, .u32), (3, .f32)]
  | .firHpRect _ => [(0, .f32), (2, .u32), (3, .f32)]
  | .firHpHamm _ => [(0, .f32), (2, .u32), (3, .f32)]
  | .firBpRect _ => [(0, .f32), (1, .f32), (2, .u32), (3, .f32)]
  | .firBpHamm _ => [(0, .f32), (1, .f32), (2, .u32), (3, .f32)]
  | .firBsRect _ => [(0, .f32), (1, .f32), (2, .u32), (3, .f32)]
  | .firBsHamm _ => [(0, .f32), (1, .f32), (2, .u32), (3, .f32)]
  | .firProcfMod _ => [(0, .f32), (1, .i32)]
  | .firProcfBranch _ => [(0, .f32), (1, .i32)]
  | .firProcfDbl _ => [(0, .f32), (1, .i32)]
  | .firProciMod _ => [(0, .f32), (1, .i32)]
  | .firProciBranch _ => [(0, .f32), (1, .i32)]
  | .firProciDbl _ => [(0, .f32), (1, .i32)]
  | .firProc2Mod _ => [(0, .f32), (1, .f32)]
  | .firProc2Branch _ => [(0, .f32), (1, .f32)]
  | .firProc2Dbl _ => [(0, .f32), (1, .f32)]
  | .firGetcf _ => [(0, .u32)]
  | .firGetci _ => [(0, .u32)]
  | .firSetconv _ => [(0, .f32), (1, .f32), (2, .f32)]
  | .firClr _ => []
  | .scaleF => [(0, .f32), (1, .f32)]
  | .scaleI => [(0, .i32), (1, .u32), (2, .u32)]

/-! ### Lines and their expansion (R141, R143, R144) -/

/-- One line of a host command program. An operand that is `none` is written `_`: the operand register keeps its
value (R143). -/
inductive Line where
  /-- `WR <reg>, <value>` -/
  | wr (r : Reg) (v : Word)
  /-- `RD <reg>` -/
  | rd (r : Reg)
  /-- a command line -/
  | command (i : Instr) (operands : List (Option Word))
  /-- the pseudo-instruction `GIIR.LOAD #n, [b0,…], [a0,…]` (R144) -/
  | giirLoad (n : Nat) (b a : List F32)
  deriving DecidableEq, Repr

/-- The offset of a register in the window (R103); `none` for no register. -/
def Reg.offset : Reg → Option Nat
  | .cmd      => some 0x00
  | .status   => some 0x04
  | .id       => some 0x08
  | .rev      => some 0x0C
  | .cap0     => some 0x10
  | .cap1     => some 0x14
  | .cap2     => some 0x18
  | .op i     => some (0x20 + 4 * i)
  | .res i    => some (0x40 + 4 * i)
  | .unmapped => none

/-- `MemWrite` of a register. -/
def writeAccess (c : Params) (r : Reg) (v : Word) : List HostAction :=
  match r.offset with
  | some off => [.write (c.fcBase + off) 4 v]
  | none     => []

/-- `MemRead` of a register. -/
def readAccess (c : Params) (r : Reg) : List HostAction :=
  match r.offset with
  | some off => [.read (c.fcBase + off) 4]
  | none     => []

/-- The operand writes of a command line, in increasing register number (R143); R135 lists them in that order. -/
def operandWrites (c : Params) (regs : List (Nat × OperandType)) (vals : List (Option Word)) : List HostAction :=
  (regs.zip vals).flatMap fun (r, v) =>
    match v with
    | some v => [.write (c.fcBase + 0x20 + 4 * r.1) 4 v]
    | none   => []

/-- A command line: its operand writes, then the write of its word to CMD (R143). -/
def commandActions (c : Params) (i : Instr) (vals : List (Option Word)) : List HostAction :=
  operandWrites c (operandsOf i) vals ++ [commandWrite c (encode i)]

/-- The tap writes of GIIR.LOAD: the command `set` for k = 0, 1, … (R144). -/
def loadTaps (c : Params) (set : Instr) (taps : List F32) : List HostAction :=
  taps.zipIdx.flatMap fun (v, k) => commandActions c set [some (BitVec.ofNat 32 k), some v]

/-- The expansion of a line into host accesses (R141, R143, R144). -/
def Line.expand (c : Params) : Line → List HostAction
  | .wr r v         => writeAccess c r v
  | .rd r           => readAccess c r
  | .command i vals => commandActions c i vals
  | .giirLoad n b a =>
    commandActions c (.giirCfg n) [some (BitVec.ofNat 32 b.length), some (BitVec.ofNat 32 a.length)] ++
    loadTaps c (.giirSetb n) b ++ loadTaps c (.giirSeta n) a

/-- The expansion of a program. -/
def expandProgram (c : Params) (p : List Line) : List HostAction := p.flatMap (Line.expand c)

/-- The state with a program's host accesses pending after those already there (log 4). -/
def State.loadProgram (s : State) (p : List Line) : State :=
  { s with bus := s.bus ++ expandProgram s.cfg p }

/-! ### Mnemonics (R135, R142, R144) -/

/-- Every mnemonic with its suffix; the argument is the INST value. -/
def mnemonics : List (String × (Nat → Instr)) :=
  [("NOP", fun _ => .nop),
   ("SRESET", fun _ => .sreset),
   ("CLRSTAT", fun _ => .clrstat),
   ("AVG.PROC", .avgProc),
   ("AVG.CLR", .avgClr),
   ("LP1", .lp1),
   ("LP2", .lp2),
   ("LP3", .lp3),
   ("HP1", .hp1),
   ("HP2", .hp2),
   ("HP3", .hp3),
   ("LO.CLR.ALL", .loClrAll),
   ("LO.CLR.LP1", .loClrLp1)] ++
  [("LO.CLR.LP2", .loClrLp2),
   ("LO.CLR.LP3", .loClrLp3),
   ("LO.CLR.HP1", .loClrHp1),
   ("LO.CLR.HP2", .loClrHp2),
   ("LO.CLR.HP3", .loClrHp3),
   ("GIIR.CFG", .giirCfg),
   ("GIIR.SETB", .giirSetb),
   ("GIIR.SETA", .giirSeta),
   ("GIIR.GETB", .giirGetb),
   ("GIIR.GETA", .giirGeta),
   ("GIIR.PROC", .giirProc),
   ("GIIR.PROC2", .giirProc2),
   ("GIIR.CLR", .giirClr)] ++
  [("FIR.MA.RECT", .firMaRect),
   ("FIR.MA.HAMM", .firMaHamm),
   ("FIR.LP.RECT", .firLpRect),
   ("FIR.LP.HAMM", .firLpHamm),
   ("FIR.HP.RECT", .firHpRect),
   ("FIR.HP.HAMM", .firHpHamm),
   ("FIR.BP.RECT", .firBpRect),
   ("FIR.BP.HAMM", .firBpHamm),
   ("FIR.BS.RECT", .firBsRect),
   ("FIR.BS.HAMM", .firBsHamm),
   ("FIR.PROCF.MOD", .firProcfMod),
   ("FIR.PROCF.BRANCH", .firProcfBranch),
   ("FIR.PROCF.DBL", .firProcfDbl)] ++
  [("FIR.PROCI.MOD", .firProciMod),
   ("FIR.PROCI.BRANCH", .firProciBranch),
   ("FIR.PROCI.DBL", .firProciDbl),
   ("FIR.PROC2.MOD", .firProc2Mod),
   ("FIR.PROC2.BRANCH", .firProc2Branch),
   ("FIR.PROC2.DBL", .firProc2Dbl),
   ("FIR.GETCF", .firGetcf),
   ("FIR.GETCI", .firGetci),
   ("FIR.SETCONV", .firSetconv),
   ("FIR.CLR", .firClr),
   ("SCALE.F", fun _ => .scaleF),
   ("SCALE.I", fun _ => .scaleI)]

/-- Default suffixes (R142) and the pseudo-instructions that are other names (R144). -/
def shortNames : List (String × (Nat → Instr)) :=
  [("LO.CLR", .loClrAll), ("FIR.MA", .firMaRect), ("FIR.LP", .firLpRect), ("FIR.HP", .firHpRect),
   ("FIR.BP", .firBpRect), ("FIR.BS", .firBsRect), ("FIR.PROCF", .firProcfDbl), ("FIR.PROCI", .firProciDbl),
   ("FIR.PROC2", .firProc2Dbl), ("FIR.PROC", .firProcfDbl), ("RESET", fun _ => .sreset)]

/-- Register mnemonics (R103, R141). -/
def regNames : List (String × Reg) :=
  [("CMD", .cmd), ("STATUS", .status), ("ID", .id), ("REV", .rev), ("CAP0", .cap0), ("CAP1", .cap1),
   ("CAP2", .cap2), ("OP0", .op 0), ("OP1", .op 1), ("OP2", .op 2), ("OP3", .op 3), ("OP4", .op 4),
   ("OP5", .op 5), ("OP6", .op 6), ("OP7", .op 7), ("RES0", .res 0), ("RES1", .res 1), ("RES2", .res 2),
   ("RES3", .res 3)]

/-! ### Reading the text of a line (R141) -/

/-- The value of a list of digits in a base, most significant first; `none` if one is no digit of the base. -/
def digitsValue (base : Nat) (l : List Char) : Option Nat :=
  l.foldl (fun acc ch =>
    match acc with
    | none   => none
    | some n =>
      let d := if '0' ≤ ch ∧ ch ≤ '9' then ch.toNat - '0'.toNat
               else if 'A' ≤ ch ∧ ch ≤ 'F' then ch.toNat - 'A'.toNat + 10
               else if 'a' ≤ ch ∧ ch ≤ 'f' then ch.toNat - 'a'.toNat + 10
               else base
      if d < base then some (n * base + d) else none) (some 0)

/-- A non-empty list of digits. -/
def number (base : Nat) (l : List Char) : Option Nat := if l.isEmpty then none else digitsValue base l

/-- A decimal literal as the binary32 value nearest to it, ties to even (R141). -/
def decimalF32 (l : List Char) : Option F32 :=
  let (neg, l) := match l with
    | '-' :: r => (true, r)
    | _        => (false, l)
  let whole := l.takeWhile (· != '.')
  let frac := (l.dropWhile (· != '.')).drop 1
  (number 10 (whole ++ frac)).map fun n => fpack neg (roundMag (n * 2 ^ 149) (10 ^ frac.length))

/-- An integer literal, decimal or negative decimal, as a 32-bit pattern (R141). DESIGN CHOICE (log 11): R141 gives an
integer that does not fit 32 bits no meaning; its low 32 bits are taken. -/
def integerWord (l : List Char) : Option Word :=
  match l with
  | '-' :: r => (number 10 r).map fun n => low32 (-(n : Int))
  | _        => (number 10 l).map fun n => low32 (n : Int)

/-- An operand literal of a type; a 0x-prefixed literal is the bit pattern, whatever the type (R141). DESIGN CHOICE
(log 11): R141 gives an integer or 0x literal that does not fit 32 bits no meaning, and says 8 digits only of the 0x
literal of an f32; the low 32 bits are taken, and a 0x literal may have any number of digits. -/
def literal (t : OperandType) (l : List Char) : Option Word :=
  match l with
  | '0' :: 'x' :: r => (number 16 r).map fun n => BitVec.ofNat 32 n
  | _ =>
    match t with
    | .f32 => decimalF32 l
    | .u32 => integerWord l
    | .i32 => integerWord l

/-- The text before a comment (R141). -/
def stripComment (l : List Char) : List Char := l.takeWhile (· != ';')

/-- Text without its leading and trailing blanks. -/
def trimBlanks (l : List Char) : List Char :=
  ((l.dropWhile (· == ' ')).reverse.dropWhile (· == ' ')).reverse

/-- Text cut at the commas that stand outside square brackets; `depth` counts the open brackets. -/
def splitCommas : (depth : Nat) → (word : List Char) → List Char → List (List Char)
  | _, word, []            => [word.reverse]
  | 0, word, ',' :: rest   => word.reverse :: splitCommas 0 [] rest
  | d, word, '[' :: rest   => splitCommas (d + 1) ('[' :: word) rest
  | d, word, ']' :: rest   => splitCommas (d - 1) (']' :: word) rest
  | d, word, ch :: rest    => splitCommas d (ch :: word) rest

/-- The arguments of a line: cut at commas, blanks trimmed; none for an empty text. -/
def arguments (l : List Char) : List (List Char) :=
  if (trimBlanks l).isEmpty then [] else (splitCommas 0 [] l).map trimBlanks

/-- The elements of a bracketed list of f32 literals (R144): the text is one opening bracket, the elements between commas
and one closing bracket as its last character. DESIGN CHOICE (log 11): R144 says nothing of any other text, which is no
list here (a missing closing bracket, text after it, an element that is no literal), nor of the list `[]` of no
elements, which is one. -/
def tapList (l : List Char) : Option (List F32) :=
  match l with
  | '[' :: r => if r.getLast? = some ']' then (arguments r.dropLast).mapM (literal .f32) else none
  | _        => none

/-- One operand: `_` keeps the register (R143). DESIGN CHOICE (log 11): R143 speaks of trailing operands only; `_` is
taken in every place. -/
def operand (t : OperandType) (l : List Char) : Option (Option Word) :=
  if l = ['_'] then some none else (literal t l).map some

/-- The operands of a command, one text for each operand register; `_` may stand in any place (DESIGN CHOICE, log 11:
R143 speaks of trailing operands only). -/
def operands : List (Nat × OperandType) → List (List Char) → Option (List (Option Word))
  | [],      []      => some []
  | r :: rs, a :: as =>
    match operand r.2 a, operands rs as with
    | some v, some vs => some (v :: vs)
    | _, _            => none
  | _, _             => none

/-- The INST argument `#<inst>` and the other arguments; an opcode without instances has none, meaning 0 (R141). -/
def instanceArg (args : List (List Char)) : Option (Nat × List (List Char)) :=
  match args with
  | ('#' :: ds) :: rest => (number 10 ds).map fun n => (n, rest)
  | _                   => none

/-- A command with its arguments. -/
def commandLine (build : Nat → Instr) (args : List (List Char)) : Option Line :=
  let plain := opcField (encode (build 0)) ∈ plainOpcodes
  match if plain then some (0, args) else instanceArg args with
  | none => none
  | some (n, rest) =>
    if (build n).WellFormed then (operands (operandsOf (build n)) rest).map (Line.command (build n)) else none

/-- A line of text: `none` if it is no line; `some []` if it is blank or only a comment. -/
def readLine (text : List Char) : Option (List Line) :=
  let l := trimBlanks (stripComment text)
  let head := String.ofList (l.takeWhile (· != ' '))
  let args := arguments (l.dropWhile (· != ' '))
  if l.isEmpty then some []
  else if head = "WR" then
    match args with
    | [r, v] =>
      match regNames.lookup (String.ofList r), literal .u32 v with
      | some (.op i), some v => some [.wr (.op i) v]
      | some .cmd, some v    => some [.wr .cmd v]
      | _, _                 => none
    | _ => none
  else if head = "RD" then
    match args with
    | [r] => (regNames.lookup (String.ofList r)).map fun r => [.rd r]
    | _   => none
  else if head = "GIIR.LOAD" then
    match instanceArg args with
    | some (n, [b, a]) =>
      match tapList b, tapList a with
      | some b, some a => if n ≤ 15 then some [.giirLoad n b a] else none
      | _, _           => none
    | _ => none
  else
    match (mnemonics ++ shortNames).lookup head with
    | some build => (commandLine build args).map fun l => [l]
    | none       => none

/-- A program from its lines of text. -/
def readProgram (text : List String) : Option (List Line) :=
  (text.mapM fun l => readLine l.toList).map List.flatten

end Sys2Proof.Machine
end

