-- ==== Sys2Proof/Safety.lean ====
section
/-! DEFINITION. The terms claims use: the invariant of the machine's state, the runs that do not stop, the words that
are no command, and the real value of a binary32 pattern. -/

namespace Sys2Proof.Machine

/-! ### The invariant of the state (10_state.md) -/

/-- An average instance (R60): the array is as long as the capacity, and the cursor points into it. -/
abbrev AvgInst.Inv (c : Params) (A : AvgInst) : Prop := A.buf.length = c.avgCap ∧ A.cur < c.avgCap

/-- A low-order instance (R62): the fields a filter never uses stay at their reset value. -/
abbrev LoInst.Inv (L : LoInst) : Prop :=
  (L.lp1.s2 = 0 ∧ L.lp1.s3 = 0 ∧ L.lp1.x1 = 0) ∧ (L.lp2.s3 = 0 ∧ L.lp2.x1 = 0) ∧ L.lp3.x1 = 0 ∧
  (L.hp1.s2 = 0 ∧ L.hp1.s3 = 0) ∧ L.hp2.s3 = 0

/-- Entries `k` with `from ≤ k < cap` of an array are +0.0 or 0. -/
abbrev ZeroFrom (l : List Word) (start cap : Nat) : Prop := ∀ k, k < cap → start ≤ k → rd l k = 0

/-- A general-IIR instance (R64, R65): the counts are in range and zero together, every array has the capacity's
length, and the entries that take part in no computation are +0.0. -/
abbrev GiirInst.Inv (c : Params) (G : GiirInst) : Prop :=
  G.nb ≤ c.giirCap ∧ G.na ≤ c.giirCap ∧ (G.nb = 0 ↔ G.na = 0) ∧
  G.b.length = c.giirCap ∧ G.a.length = c.giirCap ∧ G.x.length = c.giirCap ∧ G.y.length = c.giirCap ∧
  G.x2.length = c.giirCap ∧ G.y2.length = c.giirCap ∧
  ZeroFrom G.b G.nb c.giirCap ∧ ZeroFrom G.x G.nb c.giirCap ∧ ZeroFrom G.x2 G.nb c.giirCap ∧
  ZeroFrom G.a G.na c.giirCap ∧ ZeroFrom G.y G.na c.giirCap ∧ ZeroFrom G.y2 G.na c.giirCap

/-- The doubled-buffer invariant of R68 for order `N`: `BUF[j] = BUF[j + N]` for 0 ≤ j < N. -/
abbrev Doubled (buf : List Word) (N : Nat) : Prop := ∀ j, j < N → rd buf j = rd buf (j + N)

/-- A FIR instance (R67, R68): order and cursor in range, array lengths, fixed-point coefficients in range, every
buffer doubled, and the entries past the order +0.0 or 0. -/
abbrev FirInst.Inv (c : Params) (F : FirInst) : Prop :=
  F.order ≤ c.firMax ∧ (F.cur < F.order ∨ (F.order = 0 ∧ F.cur = 0)) ∧
  F.hf.length = c.firMax ∧ F.hi.length = c.firMax ∧
  F.bufA.length = 2 * c.firMax ∧ F.bufB.length = 2 * c.firMax ∧ F.bufR.length = 2 * c.firMax ∧
  (∀ v ∈ F.hi, fitsI32 v = true) ∧
  Doubled F.bufA F.order ∧ Doubled F.bufB F.order ∧ Doubled F.bufR F.order ∧
  ZeroFrom F.hf F.order c.firMax ∧ (∀ k, k < c.firMax → F.order ≤ k → rdInt F.hi k = 0) ∧
  ZeroFrom F.bufA (2 * F.order) (2 * c.firMax) ∧ ZeroFrom F.bufB (2 * F.order) (2 * c.firMax) ∧
  ZeroFrom F.bufR (2 * F.order) (2 * c.firMax)

/-- The invariant: legal parameters (R11), as many instances of each unit as the parameters say (R60, R62, R64, R67),
each of them well formed. -/
abbrev State.Inv (s : State) : Prop :=
  s.cfg.Legal ∧
  s.avg.length = s.cfg.niAvg ∧ (∀ A ∈ s.avg, A.Inv s.cfg) ∧
  s.lo.length = s.cfg.niLo ∧ (∀ L ∈ s.lo, L.Inv) ∧
  s.giir.length = s.cfg.niGiir ∧ (∀ G ∈ s.giir, G.Inv s.cfg) ∧
  s.fir.length = s.cfg.niFir ∧ (∀ F ∈ s.fir, F.Inv s.cfg)

/-! ### Runs that do not stop -/

/-- A host action the engine has a step for: a 32-bit access at a word-aligned offset of the register window (R105),
or a reset. -/
def admitted (c : Params) : HostAction → Prop
  | .read addr width    => c.fcBase ≤ addr ∧ addr < c.fcBase + 256 ∧ width = 4 ∧ (addr - c.fcBase) % 4 = 0
  | .write addr width _ => c.fcBase ≤ addr ∧ addr < c.fcBase + 256 ∧ width = 4 ∧ (addr - c.fcBase) % 4 = 0
  | .reset              => True

/-! ### Words that are no command (R137) -/

/-- OPC is one of the opcodes R135 lists. -/
def ListedOpcode (opc : Nat) : Prop :=
  opc ≤ 0x02 ∨ (0x10 ≤ opc ∧ opc ≤ 0x11) ∨ (0x20 ≤ opc ∧ opc ≤ 0x21) ∨ (0x30 ≤ opc ∧ opc ≤ 0x37) ∨
  (0x40 ≤ opc ∧ opc ≤ 0x45) ∨ (0x50 ≤ opc ∧ opc ≤ 0x51)

/-- (VAR, MOD) is among the values R137 allows for OPC. -/
def ListedVariant (opc var mod : Nat) : Prop :=
  if opc = 0x20 then var ≤ 1 ∧ 1 ≤ mod ∧ mod ≤ 3
  else if opc = 0x21 then (var = 0 ∧ mod = 0) ∨ (var ≤ 1 ∧ 1 ≤ mod ∧ mod ≤ 3)
  else if opc = 0x40 then var ≤ 4 ∧ mod ≤ 1
  else if opc = 0x41 then var ≤ 2 ∧ mod ≤ 1
  else if opc = 0x42 then var ≤ 2 ∧ mod ≤ 1
  else if opc = 0x43 then var ≤ 1 ∧ mod = 0
  else var = 0 ∧ mod = 0

/-- The illegal command words of R137, from its fields of R131. -/
def IllegalWord (w : Word) : Prop :=
  w.toNat / 2 ^ 20 ≠ 0 ∨ ¬ ListedOpcode (w.toNat % 2 ^ 8) ∨
  ¬ ListedVariant (w.toNat % 2 ^ 8) (w.toNat / 2 ^ 12 % 2 ^ 4) (w.toNat / 2 ^ 16 % 2 ^ 4) ∨
  ((w.toNat % 2 ^ 8 ≤ 0x02 ∨ 0x50 ≤ w.toNat % 2 ^ 8) ∧ w.toNat / 2 ^ 8 % 2 ^ 4 ≠ 0)

/-- The dual-channel integer FIR words of R137's one exception: OPC 0x42, VAR ≤ 2, MOD = 1. -/
def UnsupportedWord (w : Word) : Prop :=
  w.toNat / 2 ^ 20 = 0 ∧ w.toNat % 2 ^ 8 = 0x42 ∧ w.toNat / 2 ^ 12 % 2 ^ 4 ≤ 2 ∧ w.toNat / 2 ^ 16 % 2 ^ 4 = 1

/-! ### Real values (R20) -/

/-- The real number a finite pattern stands for. -/
def fval (a : F32) : ℚ := (fint a : ℚ) / 2 ^ 149

/-- A quiet NaN: exponent all ones and fraction bit 22 set (R24). -/
def isQuietNaN (a : F32) : Bool := fexp a == 255 && a.getLsbD 22

/-- NaN results that are all quiet NaNs (R24): what a command may draw. -/
def NaNs.Quiet (ν : NaNs) : Prop := ∀ k, isQuietNaN (ν k) = true

end Sys2Proof.Machine
end

