-- ==== Sys2Proof/Certificates/Slice0/Obligations.lean ====
section
/-! DEFINITION. The statements for the provers, each from the numbered rules of spec/, and the few terms they are
written in. -/

namespace Sys2Proof.Claims

/-! ### Terms of the statements -/

open Machine

/-- The words of a command with instances: `w0` with INST = n in bits 11:8, n = 0 … 15 (R131, R136). -/
def EncodedAs (build : Nat → Instr) (w0 : Nat) : Prop :=
  ∀ n, n ≤ 15 → decode (BitVec.ofNat 32 (w0 + n * 2 ^ 8)) = .ok (build n)

/-- The command ends in `raise Error(c)`: STATUS.LAST = c, STATUS.ERR = 1, and nothing else changes (R17). -/
def EndsWith (i : Instr) (s : State) (c : Code) : Prop := exec i s = .next { s with last := c, err := true }

/-- A NaN pattern to write where no NaN can result. -/
def someNaN : F32 := 0x7FC00000#32

/-- The operands x, fc, fs of a low-order filter command are OP0, OP1, OP2; this is R230's factor w. -/
def loW (s : State) : F32 := fdiv someNaN s.op[2] (fmul someNaN 0x40C90FDB#32 s.op[1])

/-- R230's a = 1 + w. -/
def loA (s : State) : F32 := fadd someNaN 0x3F800000#32 (loW s)

/-- The three checks of R230. -/
def LoAccepted (s : State) : Prop :=
  (isFinite s.op[1] ∧ fgt s.op[1] 0) ∧ (isFinite s.op[2] ∧ fgt s.op[2] 0) ∧ (isFinite (loW s) ∧ fgt (loW s) 0)

/-- Section `k` of R232's `lo_lp`. -/
def lpSec (ν : NaNs) (k : Nat) (a S v : F32) : F32 :=
  fadd (ν (8 + k)) S (fdiv (ν (4 + k)) (fsub (ν k) v S) a)

/-- Section `k` of R232's `lo_hp`. -/
def hpSec (ν : NaNs) (k : Nat) (g S v p : F32) : F32 :=
  fmul (ν (8 + k)) g (fadd (ν (4 + k)) S (fsub (ν k) v p))

/-- The six low-order filter commands. -/
def IsLoFilter (i : Instr) (n : Nat) : Prop :=
  i = .lp1 n ∨ i = .lp2 n ∨ i = .lp3 n ∨ i = .hp1 n ∨ i = .hp2 n ∨ i = .hp3 n

/-- R268 with R119, on one channel of the instance `G`: from the histories `X`, `Y` and the sample `x` to the histories
`X'`, `Y'` and the output `y`. Both histories shift up by one and take x and y; y is the sum of b_k·x(n-k) less the sum
of a_k·y(n-k), k ≥ 1, each accumulated from the highest index down. -/
def Df1 (G : GiirInst) (X Y : List F32) (x : F32) (X' Y' : List F32) (y : F32) : Prop :=
  ∃ ν μ : NaNs, ν.Quiet ∧ μ.Quiet ∧
    (X'.length = X.length ∧ rd X' 0 = x ∧ (∀ k, 1 ≤ k → k < G.nb → rd X' k = rd X (k - 1)) ∧
      ∀ k, G.nb ≤ k → rd X' k = rd X k) ∧
    (Y'.length = Y.length ∧ rd Y' 0 = y ∧ (∀ k, 1 ≤ k → k < G.na → rd Y' k = rd Y (k - 1)) ∧
      ∀ k, G.na ≤ k → rd Y' k = rd Y k) ∧
    (let accB := sumF (fun j => ν (2 * j))
        (fun j => fmul (ν (2 * j + 1)) (rd G.b (G.nb - 1 - j)) (rd X' (G.nb - 1 - j))) (G.nb - 1)
     let accA := sumF (fun j => μ (2 * j))
        (fun j => fmul (μ (2 * j + 1)) (rd G.a (G.na - 1 - j)) (rd Y (G.na - 2 - j))) (G.na - 2)
     y = if G.na = 1 then accB else fsub (μ 0) accB accA)

/-- The design command of a type and a window (R135, R142). -/
def designInstr (kind : FirKind) (w : Window) (n : Nat) : Instr :=
  match kind, w with
  | .ma, .rect => .firMaRect n
  | .ma, .hamm => .firMaHamm n
  | .lp, .rect => .firLpRect n
  | .lp, .hamm => .firLpHamm n
  | .hp, .rect => .firHpRect n
  | .hp, .hamm => .firHpHamm n
  | .bp, .rect => .firBpRect n
  | .bp, .hamm => .firBpHamm n
  | .bs, .rect => .firBsRect n
  | .bs, .hamm => .firBsHamm n

/-- The convolution commands under an indexing policy (R142). -/
def procfInstr (p : Policy) (n : Nat) : Instr :=
  match p with
  | .mod    => .firProcfMod n
  | .branch => .firProcfBranch n
  | .dbl    => .firProcfDbl n

def prociInstr (p : Policy) (n : Nat) : Instr :=
  match p with
  | .mod    => .firProciMod n
  | .branch => .firProciBranch n
  | .dbl    => .firProciDbl n

def proc2Instr (p : Policy) (n : Nat) : Instr :=
  match p with
  | .mod    => .firProc2Mod n
  | .branch => .firProc2Branch n
  | .dbl    => .firProc2Dbl n

/-- VAR of an indexing policy (R135). -/
def policyVar (p : Policy) : Nat :=
  match p with
  | .mod    => 0
  | .branch => 1
  | .dbl    => 2

/-- R301: a frequency operand that is not finite and positive. -/
def BadFrequency (f : F32) : Prop := ¬ (isFinite f = true ∧ fgt f 0 = true)

/-- R301: a band type whose upper cutoff is not finite or not above the lower one. -/
def BadBand (kind : FirKind) (f1 f2 : F32) : Prop :=
  (kind = .bp ∨ kind = .bs) ∧ ¬ (isFinite f2 = true ∧ flt f1 f2 = true)

/-- The operands of a sinc design (R300) meet every check of R301. -/
def SincOperands (s : State) (kind : FirKind) (w : Window) : Prop :=
  (1 ≤ s.op[2].toNat ∧ s.op[2].toNat ≤ s.cfg.firMax) ∧ s.op[2].toNat % 2 = 1 ∧ (w = .rect ∨ s.op[2].toNat ≠ 1) ∧
  ¬ BadFrequency s.op[3] ∧ ¬ BadFrequency s.op[0] ∧ ¬ BadBand kind s.op[0] s.op[1]

/-- R303 and R302 for tap `i` of an order-N design: the ideal low-pass response for the cutoff `f`. Here and in the
five terms below `someNaN` stands where R24 leaves a NaN free: a tap that is a NaN is rejected whatever the NaN (R315),
and operands that meet R301 bring no NaN to FSIN or FCOS, so the pattern is in no accepted coefficient. -/
def sincTap (c : Params) (f fs : F32) (N i : Nat) : F32 :=
  if 2 * i + 1 = N then fdiv someNaN (fmul someNaN 0x40000000#32 f) fs
  else
    let t := i2f ((i : Int) - ((N - 1) / 2 : Nat))
    fdiv someNaN (c.sin (fmul someNaN (fdiv someNaN (fmul someNaN 0x40C90FDB#32 f) fs) t))
      (fmul someNaN 0x40490FDB#32 t)

/-- The ideal response of tap `i` of a sinc type (R311 to R314). -/
def sincIdeal (c : Params) (kind : FirKind) (f1 f2 fs : F32) (N i : Nat) : F32 :=
  let l1 := sincTap c f1 fs N i
  let l2 := sincTap c f2 fs N i
  match kind with
  | .ma => 0
  | .lp => l1
  | .hp => if 2 * i + 1 = N then fsub someNaN 0x3F800000#32 l1 else fneg l1
  | .bp => fsub someNaN l2 l1
  | .bs => if 2 * i + 1 = N then fsub someNaN 0x3F800000#32 (fsub someNaN l2 l1) else fsub someNaN l1 l2

/-- The window of tap `i` (R304). -/
def winTap (c : Params) (w : Window) (N i : Nat) : F32 :=
  match w with
  | .rect => 0x3F800000#32
  | .hamm =>
    fsub someNaN 0x3F0A3D71#32 (fmul someNaN 0x3EEB851F#32
      (c.cos (fdiv someNaN (fmul someNaN 0x40C90FDB#32 (i2f i)) (i2f ((N : Int) - 1)))))

/-- R305: the float coefficient of tap `i` of the design command's operands. -/
def sincHf (s : State) (kind : FirKind) (w : Window) (i : Nat) : F32 :=
  fmul someNaN (sincIdeal s.cfg kind s.op[0] s.op[1] s.op[3] s.op[2].toNat i) (winTap s.cfg w s.op[2].toNat i)

/-- R305: the scaled and windowed coefficient of tap `i`, windowed once. -/
def sincHw (s : State) (kind : FirKind) (w : Window) (i : Nat) : F32 :=
  fmul someNaN
    (fmul someNaN (sincIdeal s.cfg kind s.op[0] s.op[1] s.op[3] s.op[2].toNat i) (i2f (2 ^ s.cfg.p)))
    (winTap s.cfg w s.op[2].toNat i)

/-- R315: tap `i` passes the validation. -/
def TapAccepted (s : State) (kind : FirKind) (w : Window) (i : Nat) : Prop :=
  isFinite (sincHf s kind w i) = true ∧ isFinite (sincHw s kind w i) = true ∧
  -2 ^ 31 ≤ f2i s.cfg.coefRound (sincHw s kind w i) ∧ f2i s.cfg.coefRound (sincHw s kind w i) ≤ 2 ^ 31 - 1

/-- The argument at which the off-centre tap `i` of a sinc design reads FSIN (R303). -/
def sincArg (f fs : F32) (N i : Nat) : F32 :=
  fmul someNaN (fdiv someNaN (fmul someNaN 0x40C90FDB#32 f) fs) (i2f ((i : Int) - ((N - 1) / 2 : Nat)))

/-- FSIN is odd at the arguments the design with cutoff `f` reads it at (R321). -/
def SinOddFor (c : Params) (f fs : F32) (N : Nat) : Prop :=
  ∀ i, i < N → 2 * i + 1 ≠ N → c.sin (fneg (sincArg f fs N i)) = fneg (c.sin (sincArg f fs N i))

/-- `r` is `x` rounded once to binary32, nearest, ties to even (R21, R22): past the largest finite value plus half a
unit an infinity of the sign of `x`, else a finite value no other is nearer to `x` than, even when another is as near. -/
def RoundedTo (x : ℚ) (r : F32) : Prop :=
  if 2 ^ 128 - 2 ^ 103 ≤ |x| then isInf r = true ∧ (fsign r = true ↔ x < 0)
  else isFinite r = true ∧
    ∀ b, isFinite b = true →
      |fval r - x| ≤ |fval b - x| ∧ (|fval b - x| = |fval r - x| → fval b ≠ fval r → r.toNat % 2 = 0)

/-- How many result registers a command writes (the results column of R135). -/
def resultCount : Instr → Nat
  | .avgProc _ | .lp1 _ | .lp2 _ | .lp3 _ | .hp1 _ | .hp2 _ | .hp3 _ => 1
  | .giirGetb _ | .giirGeta _ | .giirProc _ | .firGetcf _ | .firGetci _ => 1
  | .firProcfMod _ | .firProcfBranch _ | .firProcfDbl _ | .scaleF => 1
  | .giirProc2 _ | .firProciMod _ | .firProciBranch _ | .firProciDbl _ => 2
  | .firProc2Mod _ | .firProc2Branch _ | .firProc2Dbl _ | .scaleI => 2
  | .nop | .sreset | .clrstat | .avgClr _ => 0
  | .loClrAll _ | .loClrLp1 _ | .loClrLp2 _ | .loClrLp3 _ | .loClrHp1 _ | .loClrHp2 _ | .loClrHp3 _ => 0
  | .giirCfg _ | .giirSetb _ | .giirSeta _ | .giirClr _ => 0
  | .firMaRect _ | .firMaHamm _ | .firLpRect _ | .firLpHamm _ | .firHpRect _ | .firHpHamm _ => 0
  | .firBpRect _ | .firBpHamm _ | .firBsRect _ | .firBsHamm _ | .firSetconv _ | .firClr _ => 0

/-- The functional units with instances (R133). -/
inductive FcUnit where
  | avg
  | lo
  | giir
  | fir
  deriving DecidableEq, Repr

/-- The unit an opcode belongs to (R133). -/
def unitOfOpc (opc : Nat) : Option FcUnit :=
  if opc < 0x10 then none
  else if opc < 0x20 then some .avg
  else if opc < 0x30 then some .lo
  else if opc < 0x40 then some .giir
  else if opc < 0x50 then some .fir
  else none

/-- The unit of a command, from the opcode of its word. -/
def unitOf (i : Instr) : Option FcUnit := unitOfOpc ((encode i).toNat % 2 ^ 8)

/-- The instance count of a unit (R133). -/
def unitCount (c : Params) : FcUnit → Nat
  | .avg  => c.niAvg
  | .lo   => c.niLo
  | .giir => c.niGiir
  | .fir  => c.niFir

/-- Every instance but number `n` is the same in both lists. -/
def SameExcept {α : Type} (n : Nat) (l m : List α) : Prop := ∀ k, k ≠ n → m[k]? = l[k]?

end Sys2Proof.Claims

open Sys2Proof Sys2Proof.Machine Sys2Proof.Claims

/-! ### Encoding (30_encoding.md) -/

/-- R131, R135: no bit of a command's fields is lost. -/
def Obligations.DecodeOfEncodeIsIdentity : Prop :=
  ∀ i : Instr, i.WellFormed → decode (encode i) = .ok i

/-- R135, R136: every accepted word is the word of the command it decodes to. -/
def Obligations.EncodeOfDecodeIsIdentity : Prop :=
  ∀ (w : Word) (i : Instr), decode w = .ok i → i.WellFormed ∧ encode i = w

/-- R136: "every legal command word matches exactly one row", and a word of R137 matches none. -/
def Obligations.LegalWordSelectsExactlyOneRow : Prop :=
  ∀ w : Word,
    (¬ IllegalWord w → ¬ UnsupportedWord w →
      (opcodeRows.filter fun r => w &&& r.mask == r.pattern).length = 1) ∧
    (IllegalWord w ∨ UnsupportedWord w → (opcodeRows.filter fun r => w &&& r.mask == r.pattern) = [])

/-- R137: an illegal word ends with ILLEGAL, the dual-channel integer FIR with UNSUPPORTED, and every other word is a
command. The word is stored in CMD (R51); the draw index (log 3) and the pending list (log 4) are the model's own. -/
def Obligations.IllegalWordsEndWithTheirCode : Prop :=
  ∀ (s : State) (rest : List HostAction) (w : Word), s.bus = .write s.cfg.fcBase 4 w :: rest →
    (IllegalWord w →
      step s = .next { s with bus := rest, cmd := w, last := .illegal, err := true, draws := s.draws + 1 }) ∧
    (UnsupportedWord w →
      step s = .next { s with bus := rest, cmd := w, last := .unsupported, err := true, draws := s.draws + 1 }) ∧
    (¬ IllegalWord w → ¬ UnsupportedWord w → ∃ i, decode w = .ok i ∧ i.WellFormed)

/-- R145, the worked encodings, both ways. -/
def Obligations.WorkedEncodings : Prop :=
  (encode (.avgProc 1) = 0x00000110#32 ∧ decode 0x00000110#32 = .ok (.avgProc 1)) ∧
  (encode (.lp2 0) = 0x00020020#32 ∧ decode 0x00020020#32 = .ok (.lp2 0)) ∧
  (encode (.hp3 1) = 0x00031120#32 ∧ decode 0x00031120#32 = .ok (.hp3 1)) ∧
  (encode (.loClrHp2 0) = 0x00021021#32 ∧ decode 0x00021021#32 = .ok (.loClrHp2 0)) ∧
  (encode (.giirProc2 1) = 0x00000136#32 ∧ decode 0x00000136#32 = .ok (.giirProc2 1)) ∧
  (encode (.firLpHamm 0) = 0x00011040#32 ∧ decode 0x00011040#32 = .ok (.firLpHamm 0)) ∧
  (encode (.firProciBranch 1) = 0x00011141#32 ∧ decode 0x00011141#32 = .ok (.firProciBranch 1)) ∧
  (encode (.firProcfDbl 0) = 0x00002041#32 ∧ decode 0x00002041#32 = .ok (.firProcfDbl 0)) ∧
  (encode (.firGetci 0) = 0x00001043#32 ∧ decode 0x00001043#32 = .ok (.firGetci 0)) ∧
  (encode .scaleI = 0x00000051#32 ∧ decode 0x00000051#32 = .ok .scaleI) ∧
  (encode .sreset = 0x00000001#32 ∧ decode 0x00000001#32 = .ok .sreset)

/-! ### Steps and the register window (20_memory.md) -/

/-- R51, R108: a host write of CMD stores the word and runs the command it decodes to; the step adds the removal of
the served action (log 4) and the next draw index (log 3), nothing else. -/
def Obligations.StepRunsTheDecodedCommand : Prop :=
  ∀ (s : State) (rest : List HostAction) (w : Word) (i : Instr),
    s.bus = .write s.cfg.fcBase 4 w :: rest → decode w = .ok i →
    step s =
      match exec i { s with bus := rest, cmd := w } with
      | .next t    => .next { t with draws := t.draws + 1 }
      | .fault e   => .fault e
      | .refused e => .refused e

/-- R414, R100: with no pending host action the engine keeps all state. -/
def Obligations.IdleEngineKeepsAllState : Prop :=
  ∀ s : State, s.bus = [] → step s = .next s

/-- R105 (and log 7 for an access outside the window): the machine stops exactly on a host access that is not
admitted, and no step is refused. -/
def Obligations.StepStopsExactlyOnInadmissibleAccess : Prop :=
  ∀ s : State,
    ((∃ e, step s = .fault e) ↔ ∃ a rest, s.bus = a :: rest ∧ ¬ admitted s.cfg a) ∧
    (∀ r, step s ≠ .refused r)

/-- R105: an access of the window of another width or at a misaligned offset has no step. -/
def Obligations.MisalignedOrNarrowAccessIsStuck : Prop :=
  ∀ (s : State) (rest : List HostAction) (off width : Nat) (v : Word), off < 256 → (width ≠ 4 ∨ off % 4 ≠ 0) →
    (s.bus = .read (s.cfg.fcBase + off) width :: rest → step s = .fault .inadmissibleAccess) ∧
    (s.bus = .write (s.cfg.fcBase + off) width v :: rest → step s = .fault .inadmissibleAccess)

/-- R103, R104, R108: what a read of each offset returns, and that it changes nothing of the engine. -/
def Obligations.HostReadReturnsTheMappedRegister : Prop :=
  ∀ (s : State) (rest : List HostAction) (off : Nat), off < 256 → off % 4 = 0 →
    s.bus = .read (s.cfg.fcBase + off) 4 :: rest →
    ∃ v, step s = .next { s with bus := rest, readData := v } ∧
      (off = 0x00 → v = s.cmd) ∧
      (off = 0x04 → v = BitVec.ofNat 32 (s.last.number + if s.err then 2 ^ 8 else 0)) ∧
      (off = 0x08 → v = 0x44534D56#32) ∧
      (off = 0x0C → v = revWord s.cfg) ∧
      (off = 0x10 → v = cap0Word s.cfg) ∧
      (off = 0x14 → v = cap1Word s.cfg) ∧
      (off = 0x18 → v = cap2Word s.cfg) ∧
      (∀ i : Fin 8, off = 0x20 + 4 * i → v = s.op[i]) ∧
      (∀ i : Fin 4, off = 0x40 + 4 * i → v = s.res[i]) ∧
      (off = 0x1C ∨ 0x50 ≤ off → v = 0)

/-- R104, R108: a write of OP0 to OP7 only stores the value; a write to a read-only register or an unmapped offset has
no effect. -/
def Obligations.HostWriteStoresOperandOrIsIgnored : Prop :=
  ∀ (s : State) (rest : List HostAction) (off : Nat) (v : Word), off < 256 → off % 4 = 0 →
    s.bus = .write (s.cfg.fcBase + off) 4 v :: rest →
    (∀ i : Fin 8, off = 0x20 + 4 * i → step s = .next { s with bus := rest, op := s.op.set i v }) ∧
    (off ≠ 0 → (off < 0x20 ∨ 0x40 ≤ off) → step s = .next { s with bus := rest })

/-- R54, R55: the fields of REV, CAP0, CAP1 and CAP2. -/
def Obligations.ConstantRegisterFields : Prop :=
  ∀ c : Params, c.Legal →
    ((revWord c).toNat % 2 ^ 8 = 1 ∧ (revWord c).toNat / 2 ^ 8 % 2 ^ 8 = c.p ∧
      ((revWord c).getLsbD 16 = true ↔ c.coefRound = .nearest) ∧ (revWord c).toNat / 2 ^ 17 = 0) ∧
    ((cap0Word c).toNat % 2 ^ 16 = c.avgCap ∧ (cap0Word c).toNat / 2 ^ 16 = c.giirCap) ∧
    (cap1Word c).toNat = c.firMax ∧
    (cap2Word c).toNat = c.niAvg + c.niLo * 2 ^ 8 + c.niGiir * 2 ^ 16 + c.niFir * 2 ^ 24

/-! ### Reset (70_reset_and_hazards.md) -/

/-- R450 with R61, R63, R66, R69: every register and instance field after reset, for every choice of the parameters.
(That `State.reset` has the parameters of T0 is the model's choice, log 1; nothing here rests on it.) -/
def Obligations.ResetGivesTheSpecValues : Prop :=
  ∀ c : Params,
    let s := State.resetOf c
    (s.cmd = 0 ∧ s.last = .ok ∧ s.err = false ∧ (∀ i : Fin 8, s.op[i] = 0) ∧ (∀ i : Fin 4, s.res[i] = 0)) ∧
    (s.avg.length = c.niAvg ∧ ∀ A ∈ s.avg, A.cur = 0 ∧ A.buf.length = c.avgCap ∧ ∀ v ∈ A.buf, v = 0) ∧
    (s.lo.length = c.niLo ∧ ∀ L ∈ s.lo, ∀ f : LoId,
      (L.get f).s1 = 0 ∧ (L.get f).s2 = 0 ∧ (L.get f).s3 = 0 ∧ (L.get f).x1 = 0) ∧
    (s.giir.length = c.niGiir ∧ ∀ G ∈ s.giir, G.nb = 0 ∧ G.na = 0 ∧
      ∀ l ∈ [G.b, G.a, G.x, G.y, G.x2, G.y2], l.length = c.giirCap ∧ ∀ v ∈ l, v = 0) ∧
    (s.fir.length = c.niFir ∧ ∀ F ∈ s.fir, F.order = 0 ∧ F.cur = 0 ∧
      (F.hf.length = c.firMax ∧ ∀ v ∈ F.hf, v = 0) ∧ (F.hi.length = c.firMax ∧ ∀ v ∈ F.hi, v = 0) ∧
      (∀ l ∈ [F.bufA, F.bufB, F.bufR], l.length = 2 * c.firMax ∧ ∀ v ∈ l, v = 0) ∧
      F.kScale = 0x3F800000#32 ∧ F.kGain = 0x3F800000#32 ∧ F.kOff = 0)

/-- The invariant of `StepKeepsTheInvariant` holds after reset, for every legal choice of the parameters. -/
def Obligations.ResetMeetsTheInvariant : Prop := ∀ c : Params, c.Legal → (State.resetOf c).Inv

/-- R381, R450: SRESET and the platform reset give every register and instance field its reset value; CMD reads back
0x00000001 after SRESET and 0 after the platform reset. What stays is the host's side of the model (log 8). -/
def Obligations.SoftAndPlatformReset : Prop :=
  decode 0x00000001#32 = .ok .sreset ∧
  (∀ s : State,
    exec .sreset s = .next { State.resetOf s.cfg with
      cmd := 0x00000001#32, draws := s.draws, bus := s.bus, readData := s.readData }) ∧
  (∀ (s : State) (rest : List HostAction), s.bus = .reset :: rest →
    step s = .next { State.resetOf s.cfg with draws := s.draws, bus := rest, readData := s.readData })

/-! ### Completion and errors (00_scope.md, 46_control.md, 60_exceptions.md) -/

/-- R380, R382: NOP has no effect besides STATUS.LAST, CLRSTAT clears STATUS.ERR. -/
def Obligations.NopAndClrstat : Prop :=
  decode 0x00000000#32 = .ok .nop ∧ decode 0x00000002#32 = .ok .clrstat ∧
  ∀ s : State, exec .nop s = .next { s with last := .ok } ∧
    exec .clrstat s = .next { s with last := .ok, err := false }

/-- Every command of every opcode-table row ends in a next state, from every state: no command stops the machine. -/
def Obligations.EveryCommandEndsInANextState : Prop := ∀ (i : Instr) (s : State), ∃ t, exec i s = .next t

/-- R17, R400: a command that ends in an error changes STATUS and nothing else. -/
def Obligations.ErrorChangesOnlyStatus : Prop :=
  ∀ (i : Instr) (s t : State), exec i s = .next t → t.last ≠ .ok → t = { s with last := t.last, err := true }

/-- R18: a successful command sets STATUS.LAST to OK and does not change STATUS.ERR, but for the two commands whose
rules clear it (R381, R382). -/
def Obligations.SuccessKeepsTheErrorBit : Prop :=
  ∀ (i : Instr) (s t : State), exec i s = .next t → t.last = .ok →
    t.err = if i = .clrstat ∨ i = .sreset then false else s.err

/-- R56, R51 (frame of every command but SRESET): OP0 to OP7 and CMD are read and never written by a command; the
parameters and the model's own fields are unchanged too. -/
def Obligations.CommandsNeverWriteOperands : Prop :=
  ∀ (i : Instr) (s t : State), i ≠ .sreset → exec i s = .next t →
    t.op = s.op ∧ t.cmd = s.cmd ∧ t.cfg = s.cfg ∧ t.draws = s.draws ∧ t.bus = s.bus ∧ t.readData = s.readData

/-- R57 (frame of every command but SRESET): only the result registers R135 names for the command are written, and
none by a command that ends in an error. -/
def Obligations.OnlyNamedResultRegistersChange : Prop :=
  ∀ (i : Instr) (s t : State), i ≠ .sreset → exec i s = .next t →
    (∀ j : Fin 4, resultCount i ≤ j → t.res[j] = s.res[j]) ∧ (t.last ≠ .ok → t.res = s.res)

/-- R72 (frame of every command but SRESET): no command changes the state of an instance other than the one its INST
field selects. -/
def Obligations.OtherInstancesAreUnchanged : Prop :=
  ∀ (i : Instr) (s t : State), i.WellFormed → i ≠ .sreset → exec i s = .next t →
    (if unitOf i = some .avg then SameExcept i.inst s.avg t.avg else t.avg = s.avg) ∧
    (if unitOf i = some .lo then SameExcept i.inst s.lo t.lo else t.lo = s.lo) ∧
    (if unitOf i = some .giir then SameExcept i.inst s.giir t.giir else t.giir = s.giir) ∧
    (if unitOf i = some .fir then SameExcept i.inst s.fir t.fir else t.fir = s.fir)

/-- R133, R403: an INST value at or above the unit's instance count ends the command with RANGE, whatever the
instance state and the operands are. -/
def Obligations.InstanceOutOfRangeEndsWithRange : Prop :=
  ∀ (i : Instr) (s : State) (u : FcUnit), i.WellFormed → unitOf i = some u → unitCount s.cfg u ≤ i.inst →
    EndsWith i s .range

/-- The invariant of 10_state.md (R60, R62, R64, R65, R67, R68 and the ranges of R11) is kept by every step, command
or host access, from every state that meets it. -/
def Obligations.StepKeepsTheInvariant : Prop := ∀ s t : State, s.Inv → step s = .next t → t.Inv

/-! ### Ring-buffer average (40_average.md) -/

/-- R200: AVG.PROC, its encoding, its errors, its result and its frame. The sum starts at the sample just written and
walks backward with wraparound. -/
def Obligations.AvgProcMeansTheWindow : Prop :=
  EncodedAs .avgProc 0x00000010 ∧
  ∀ (s : State) (n : Nat), s.Inv →
    (s.cfg.niAvg ≤ n → EndsWith (.avgProc n) s .range) ∧
    (s.op[1].toNat < 1 ∨ s.cfg.avgCap < s.op[1].toNat → EndsWith (.avgProc n) s .range) ∧
    (∀ A, s.avg[n]? = some A → 1 ≤ s.op[1].toNat → s.op[1].toNat ≤ s.cfg.avgCap →
      ∃ ν : NaNs, ν.Quiet ∧
        let C := s.cfg.avgCap
        let buf := A.buf.set A.cur s.op[0]
        let sum := sumF ν (fun i => rd buf ((A.cur + C - i) % C)) (s.op[1].toNat - 1)
        exec (.avgProc n) s = .next { s with
          avg := s.avg.set n { buf := buf, cur := (A.cur + 1) % C }
          res := s.res.set 0 (fdiv (ν 0) sum (i2f s.op[1].toNat))
          last := .ok })

/-- R115: after a successful AVG.PROC the newest sample of the ring is x, and the sample written i writes ago is the
one that was written i - 1 writes ago before. -/
def Obligations.AvgRingHoldsTheLastSamples : Prop :=
  ∀ (s t : State) (n : Nat) (A B : AvgInst), s.Inv → exec (.avgProc n) s = .next t → t.last = .ok →
    s.avg[n]? = some A → t.avg[n]? = some B →
    let C := s.cfg.avgCap
    rd B.buf ((B.cur + C - 1) % C) = s.op[0] ∧
    ∀ i, 1 ≤ i → i < C → rd B.buf ((B.cur + 2 * C - 1 - i) % C) = rd A.buf ((A.cur + 2 * C - 1 - (i - 1)) % C)

/-- R201: AVG.CLR. -/
def Obligations.AvgClrZeroesTheRing : Prop :=
  EncodedAs .avgClr 0x00000011 ∧
  ∀ (s : State) (n : Nat),
    (s.cfg.niAvg ≤ n → EndsWith (.avgClr n) s .range) ∧
    (n < s.cfg.niAvg →
      exec (.avgClr n) s = .next { s with
        avg := s.avg.set n { buf := List.replicate s.cfg.avgCap 0, cur := 0 }, last := .ok })

/-- R203: after N identical writes of a finite V whose multiples k·V, k ≤ N, are exactly representable, the average
with window N is V, bit for bit. -/
def Obligations.AvgSteadyStateIsExact : Prop :=
  ∀ (s : State) (n : Nat) (A : AvgInst), s.Inv → n < s.cfg.niAvg → s.avg[n]? = some A →
    1 ≤ s.op[1].toNat → s.op[1].toNat ≤ s.cfg.avgCap → isFinite s.op[0] = true →
    (∀ i, 1 ≤ i → i < s.op[1].toNat → rd A.buf ((A.cur + s.cfg.avgCap - i) % s.cfg.avgCap) = s.op[0]) →
    (∀ k, 1 ≤ k → k ≤ s.op[1].toNat → ∃ p, isFinite p = true ∧ fint p = k * fint s.op[0]) →
    ∃ t, exec (.avgProc n) s = .next t ∧ t.last = .ok ∧ t.res[0] = s.op[0]

/-! ### Low-order IIR filters (41_low_order_iir.md) -/

/-- R230: every LPk and HPk command rejects exactly the operands that fail a check, with PARAM. -/
def Obligations.LoFactorIsChecked : Prop :=
  ∀ (s : State) (n : Nat) (i : Instr), IsLoFilter i n → n < s.cfg.niLo →
    (¬ LoAccepted s → EndsWith i s .param) ∧
    (LoAccepted s → ∃ t, exec i s = .next t ∧ t.last = .ok ∧ t.err = s.err)

/-- R233, R234, R235: the low-pass cascades, section by section (R232). Each command has NaN results of its own. -/
def Obligations.LowPassCascades : Prop :=
  (EncodedAs .lp1 0x00010020 ∧ EncodedAs .lp2 0x00020020 ∧ EncodedAs .lp3 0x00030020) ∧
  (∀ (s : State) (n : Nat) (i : Instr), i = .lp1 n ∨ i = .lp2 n ∨ i = .lp3 n →
    (s.cfg.niLo ≤ n → EndsWith i s .range) ∧ (n < s.cfg.niLo → ¬ LoAccepted s → EndsWith i s .param)) ∧
  ∀ (s : State) (n : Nat) (L : LoInst), n < s.cfg.niLo → s.lo[n]? = some L → LoAccepted s →
    (∃ ν : NaNs, ν.Quiet ∧
      let u1 := lpSec ν 0 (loA s) L.lp1.s1 s.op[0]
      exec (.lp1 n) s = .next { s with
        lo := s.lo.set n { L with lp1 := { L.lp1 with s1 := u1 } }, res := s.res.set 0 u1, last := .ok }) ∧
    (∃ ν : NaNs, ν.Quiet ∧
      let u1 := lpSec ν 0 (loA s) L.lp2.s1 s.op[0]
      let u2 := lpSec ν 1 (loA s) L.lp2.s2 u1
      exec (.lp2 n) s = .next { s with
        lo := s.lo.set n { L with lp2 := { L.lp2 with s1 := u1, s2 := u2 } }
        res := s.res.set 0 u2, last := .ok }) ∧
    (∃ ν : NaNs, ν.Quiet ∧
      let u1 := lpSec ν 0 (loA s) L.lp3.s1 s.op[0]
      let u2 := lpSec ν 1 (loA s) L.lp3.s2 u1
      let u3 := lpSec ν 2 (loA s) L.lp3.s3 u2
      exec (.lp3 n) s = .next { s with
        lo := s.lo.set n { L with lp3 := { L.lp3 with s1 := u1, s2 := u2, s3 := u3 } }
        res := s.res.set 0 u3, last := .ok })

/-- R236, R237, R238: the high-pass cascades, section by section (R232), and X1 <- x. Each command has NaN results of
its own. -/
def Obligations.HighPassCascades : Prop :=
  (EncodedAs .hp1 0x00011020 ∧ EncodedAs .hp2 0x00021020 ∧ EncodedAs .hp3 0x00031020) ∧
  (∀ (s : State) (n : Nat) (i : Instr), i = .hp1 n ∨ i = .hp2 n ∨ i = .hp3 n →
    (s.cfg.niLo ≤ n → EndsWith i s .range) ∧ (n < s.cfg.niLo → ¬ LoAccepted s → EndsWith i s .param)) ∧
  ∀ (s : State) (n : Nat) (L : LoInst), n < s.cfg.niLo → s.lo[n]? = some L → LoAccepted s →
    let g := fdiv someNaN (loW s) (loA s)
    (∃ ν : NaNs, ν.Quiet ∧
      let u1 := hpSec ν 0 g L.hp1.s1 s.op[0] L.hp1.x1
      exec (.hp1 n) s = .next { s with
        lo := s.lo.set n { L with hp1 := { L.hp1 with s1 := u1, x1 := s.op[0] } }
        res := s.res.set 0 u1, last := .ok }) ∧
    (∃ ν : NaNs, ν.Quiet ∧
      let u1 := hpSec ν 0 g L.hp2.s1 s.op[0] L.hp2.x1
      let u2 := hpSec ν 1 g L.hp2.s2 u1 L.hp2.s1
      exec (.hp2 n) s = .next { s with
        lo := s.lo.set n { L with hp2 := { L.hp2 with s1 := u1, s2 := u2, x1 := s.op[0] } }
        res := s.res.set 0 u2, last := .ok }) ∧
    (∃ ν : NaNs, ν.Quiet ∧
      let u1 := hpSec ν 0 g L.hp3.s1 s.op[0] L.hp3.x1
      let u2 := hpSec ν 1 g L.hp3.s2 u1 L.hp3.s1
      let u3 := hpSec ν 2 g L.hp3.s3 u2 L.hp3.s2
      exec (.hp3 n) s = .next { s with
        lo := s.lo.set n { L with hp3 := { L.hp3 with s1 := u1, s2 := u2, s3 := u3, x1 := s.op[0] } }
        res := s.res.set 0 u3, last := .ok })

/-- R239: LO.CLR clears the selected filter, or all six, and leaves the others unchanged. -/
def Obligations.LoClrClearsTheSelectedFilters : Prop :=
  (EncodedAs .loClrAll 0x00000021 ∧ EncodedAs .loClrLp1 0x00010021 ∧ EncodedAs .loClrLp2 0x00020021 ∧
    EncodedAs .loClrLp3 0x00030021 ∧ EncodedAs .loClrHp1 0x00011021 ∧ EncodedAs .loClrHp2 0x00021021 ∧
    EncodedAs .loClrHp3 0x00031021) ∧
  ∀ (s : State) (n : Nat),
    (s.cfg.niLo ≤ n → ∀ i ∈ [Instr.loClrAll n, .loClrLp1 n, .loClrLp2 n, .loClrLp3 n, .loClrHp1 n, .loClrHp2 n,
      .loClrHp3 n], EndsWith i s .range) ∧
    (∀ L : LoInst, n < s.cfg.niLo → s.lo[n]? = some L →
      let z : LoFilter := { s1 := 0, s2 := 0, s3 := 0, x1 := 0 }
      let cleared (M : LoInst) (i : Instr) : Prop := exec i s = .next { s with lo := s.lo.set n M, last := .ok }
      cleared { lp1 := z, lp2 := z, lp3 := z, hp1 := z, hp2 := z, hp3 := z } (.loClrAll n) ∧
      cleared { L with lp1 := z } (.loClrLp1 n) ∧ cleared { L with lp2 := z } (.loClrLp2 n) ∧
      cleared { L with lp3 := z } (.loClrLp3 n) ∧ cleared { L with hp1 := z } (.loClrHp1 n) ∧
      cleared { L with hp2 := z } (.loClrHp2 n) ∧ cleared { L with hp3 := z } (.loClrHp3 n))

/-- R242 (the case V ≥ 0, a > 1, one call): a low-pass step on a constant input V succeeds and never moves a section
away from V or past the section before it, so the outputs are nondecreasing and never above V. -/
def Obligations.LowPassStepResponseIsMonotone : Prop :=
  ∀ (s : State) (n : Nat) (L : LoInst), n < s.cfg.niLo → s.lo[n]? = some L → LoAccepted s →
    fgt (loA s) 0x3F800000#32 = true → isFinite s.op[0] = true →
    (isFinite L.lp1.s1 = true → 0 ≤ fval L.lp1.s1 → fval L.lp1.s1 ≤ fval s.op[0] →
      ∃ t M, exec (.lp1 n) s = .next t ∧ t.last = .ok ∧ t.lo[n]? = some M ∧ t.res[0] = M.lp1.s1 ∧
        isFinite M.lp1.s1 = true ∧ fval L.lp1.s1 ≤ fval M.lp1.s1 ∧ fval M.lp1.s1 ≤ fval s.op[0]) ∧
    (isFinite L.lp2.s1 = true → isFinite L.lp2.s2 = true →
      0 ≤ fval L.lp2.s2 → fval L.lp2.s2 ≤ fval L.lp2.s1 → fval L.lp2.s1 ≤ fval s.op[0] →
      ∃ t M, exec (.lp2 n) s = .next t ∧ t.last = .ok ∧ t.lo[n]? = some M ∧ t.res[0] = M.lp2.s2 ∧
        isFinite M.lp2.s1 = true ∧ isFinite M.lp2.s2 = true ∧
        fval L.lp2.s1 ≤ fval M.lp2.s1 ∧ fval L.lp2.s2 ≤ fval M.lp2.s2 ∧
        fval M.lp2.s2 ≤ fval M.lp2.s1 ∧ fval M.lp2.s1 ≤ fval s.op[0]) ∧
    (isFinite L.lp3.s1 = true → isFinite L.lp3.s2 = true → isFinite L.lp3.s3 = true →
      0 ≤ fval L.lp3.s3 → fval L.lp3.s3 ≤ fval L.lp3.s2 → fval L.lp3.s2 ≤ fval L.lp3.s1 →
      fval L.lp3.s1 ≤ fval s.op[0] →
      ∃ t M, exec (.lp3 n) s = .next t ∧ t.last = .ok ∧ t.lo[n]? = some M ∧ t.res[0] = M.lp3.s3 ∧
        isFinite M.lp3.s1 = true ∧ isFinite M.lp3.s2 = true ∧ isFinite M.lp3.s3 = true ∧
        fval L.lp3.s1 ≤ fval M.lp3.s1 ∧ fval L.lp3.s2 ≤ fval M.lp3.s2 ∧ fval L.lp3.s3 ≤ fval M.lp3.s3 ∧
        fval M.lp3.s3 ≤ fval M.lp3.s2 ∧ fval M.lp3.s2 ≤ fval M.lp3.s1 ∧ fval M.lp3.s1 ≤ fval s.op[0])

/-- R240, the low-pass fixed point: with every section at V (V finite, not -0.0) and x = V, the output is V bit for
bit and the filter state does not change. -/
def Obligations.LowPassFixedPointIsExact : Prop :=
  ∀ (s : State) (n : Nat) (L : LoInst), n < s.cfg.niLo → s.lo[n]? = some L → LoAccepted s →
    isFinite s.op[0] = true → s.op[0] ≠ 0x80000000#32 →
    (L.lp1.s1 = s.op[0] → exec (.lp1 n) s = .next { s with res := s.res.set 0 s.op[0], last := .ok }) ∧
    (L.lp2.s1 = s.op[0] → L.lp2.s2 = s.op[0] →
      exec (.lp2 n) s = .next { s with res := s.res.set 0 s.op[0], last := .ok }) ∧
    (L.lp3.s1 = s.op[0] → L.lp3.s2 = s.op[0] → L.lp3.s3 = s.op[0] →
      exec (.lp3 n) s = .next { s with res := s.res.set 0 s.op[0], last := .ok })

/-! ### General IIR (42_general_iir.md) -/

/-- R260: GIIR.CFG. -/
def Obligations.GiirCfgSetsCountsAndClears : Prop :=
  EncodedAs .giirCfg 0x00000030 ∧
  ∀ (s : State) (n : Nat),
    let cap := s.cfg.giirCap
    let nb := s.op[0].toNat
    let na := s.op[1].toNat
    let z : List F32 := List.replicate cap 0
    (s.cfg.niGiir ≤ n → EndsWith (.giirCfg n) s .range) ∧
    (nb < 1 ∨ cap < nb ∨ na < 1 ∨ cap < na → EndsWith (.giirCfg n) s .range) ∧
    (n < s.cfg.niGiir → 1 ≤ nb → nb ≤ cap → 1 ≤ na → na ≤ cap →
      exec (.giirCfg n) s = .next { s with
        giir := s.giir.set n { nb := nb, na := na, b := z, a := z, x := z, y := z, x2 := z, y2 := z }
        last := .ok })

/-- R261, R262: GIIR.SETB and GIIR.SETA write one tap, any pattern; NOTCFG before RANGE. -/
def Obligations.GiirTapWrites : Prop :=
  (EncodedAs .giirSetb 0x00000031 ∧ EncodedAs .giirSeta 0x00000032) ∧
  ∀ (s : State) (n : Nat),
    (s.cfg.niGiir ≤ n → EndsWith (.giirSetb n) s .range ∧ EndsWith (.giirSeta n) s .range) ∧
    (∀ G : GiirInst, n < s.cfg.niGiir → s.giir[n]? = some G →
      ((G.nb = 0 → EndsWith (.giirSetb n) s .notcfg) ∧
       (G.nb ≠ 0 → G.nb ≤ s.op[0].toNat → EndsWith (.giirSetb n) s .range) ∧
       (G.nb ≠ 0 → s.op[0].toNat < G.nb → exec (.giirSetb n) s = .next { s with
          giir := s.giir.set n { G with b := G.b.set s.op[0].toNat s.op[1] }, last := .ok })) ∧
      ((G.na = 0 → EndsWith (.giirSeta n) s .notcfg) ∧
       (G.na ≠ 0 → G.na ≤ s.op[0].toNat → EndsWith (.giirSeta n) s .range) ∧
       (G.na ≠ 0 → s.op[0].toNat < G.na → exec (.giirSeta n) s = .next { s with
          giir := s.giir.set n { G with a := G.a.set s.op[0].toNat s.op[1] }, last := .ok })))

/-- R263, R264: GIIR.GETB and GIIR.GETA return the stored pattern and change no instance. -/
def Obligations.GiirTapReads : Prop :=
  (EncodedAs .giirGetb 0x00000033 ∧ EncodedAs .giirGeta 0x00000034) ∧
  ∀ (s : State) (n : Nat),
    (s.cfg.niGiir ≤ n → EndsWith (.giirGetb n) s .range ∧ EndsWith (.giirGeta n) s .range) ∧
    (∀ G : GiirInst, n < s.cfg.niGiir → s.giir[n]? = some G →
      ((G.nb = 0 → EndsWith (.giirGetb n) s .notcfg) ∧
       (G.nb ≠ 0 → G.nb ≤ s.op[0].toNat → EndsWith (.giirGetb n) s .range) ∧
       (G.nb ≠ 0 → s.op[0].toNat < G.nb →
          exec (.giirGetb n) s = .next { s with res := s.res.set 0 (rd G.b s.op[0].toNat), last := .ok })) ∧
      ((G.na = 0 → EndsWith (.giirGeta n) s .notcfg) ∧
       (G.na ≠ 0 → G.na ≤ s.op[0].toNat → EndsWith (.giirGeta n) s .range) ∧
       (G.na ≠ 0 → s.op[0].toNat < G.na →
          exec (.giirGeta n) s = .next { s with res := s.res.set 0 (rd G.a s.op[0].toNat), last := .ok })))

/-- R265, R268: GIIR.PROC filters one sample on channel 1. -/
def Obligations.GiirProcFiltersOneSample : Prop :=
  EncodedAs .giirProc 0x00000035 ∧
  ∀ (s : State) (n : Nat), s.Inv →
    (s.cfg.niGiir ≤ n → EndsWith (.giirProc n) s .range) ∧
    (∀ G : GiirInst, s.giir[n]? = some G → G.nb = 0 → EndsWith (.giirProc n) s .notcfg) ∧
    (∀ G : GiirInst, s.giir[n]? = some G → G.nb ≠ 0 →
      ∃ (X Y : List F32) (y : F32), Df1 G G.x G.y s.op[0] X Y y ∧
        exec (.giirProc n) s = .next { s with
          giir := s.giir.set n { G with x := X, y := Y }, res := s.res.set 0 y, last := .ok })

/-- R266, R268: GIIR.PROC2 filters a sample on each channel with the same coefficients, each channel on its own
histories; the channels never mix: what happens on a channel does not depend on the other channel's histories and
sample. That this holds of a NaN's bits too is the model's choice, no rule of the spec (R24 draws every NaN freely): the
two runs compared have the same draw index and number a channel's operations alike (log 3). -/
def Obligations.GiirChannelsNeverMix : Prop :=
  EncodedAs .giirProc2 0x00000036 ∧
  ∀ (s : State) (n : Nat), s.Inv →
    (s.cfg.niGiir ≤ n → EndsWith (.giirProc2 n) s .range) ∧
    (∀ G : GiirInst, s.giir[n]? = some G → G.nb = 0 → EndsWith (.giirProc2 n) s .notcfg) ∧
    (∀ G : GiirInst, s.giir[n]? = some G → G.nb ≠ 0 →
      ∃ (X Y X2 Y2 : List F32) (y1 y2 : F32),
        Df1 G G.x G.y s.op[0] X Y y1 ∧ Df1 G G.x2 G.y2 s.op[1] X2 Y2 y2 ∧
        exec (.giirProc2 n) s = .next { s with
          giir := s.giir.set n { G with x := X, y := Y, x2 := X2, y2 := Y2 }
          res := (s.res.set 0 y1).set 1 y2, last := .ok } ∧
        -- another channel 2 leaves channel 1 as it is
        (∀ (H2 K2 : List F32) (x2 : F32), ∃ (X2' Y2' : List F32) (y2' : F32),
          exec (.giirProc2 n) { s with giir := s.giir.set n { G with x2 := H2, y2 := K2 }, op := s.op.set 1 x2 } =
            .next { s with
              giir := s.giir.set n { G with x := X, y := Y, x2 := X2', y2 := Y2' }
              op := s.op.set 1 x2, res := (s.res.set 0 y1).set 1 y2', last := .ok }) ∧
        -- another channel 1 leaves channel 2 as it is
        (∀ (H K : List F32) (x : F32), ∃ (X' Y' : List F32) (y1' : F32),
          exec (.giirProc2 n) { s with giir := s.giir.set n { G with x := H, y := K }, op := s.op.set 0 x } =
            .next { s with
              giir := s.giir.set n { G with x := X', y := Y', x2 := X2, y2 := Y2 }
              op := s.op.set 0 x, res := (s.res.set 0 y1').set 1 y2, last := .ok }))

/-- R267: GIIR.CLR clears the histories and keeps counts and coefficients. -/
def Obligations.GiirClrKeepsCoefficients : Prop :=
  EncodedAs .giirClr 0x00000037 ∧
  ∀ (s : State) (n : Nat),
    let z : List F32 := List.replicate s.cfg.giirCap 0
    (s.cfg.niGiir ≤ n → EndsWith (.giirClr n) s .range) ∧
    (∀ G : GiirInst, n < s.cfg.niGiir → s.giir[n]? = some G → exec (.giirClr n) s = .next { s with
      giir := s.giir.set n { G with x := z, y := z, x2 := z, y2 := z }, last := .ok })

/-- R270: with Nb = Na = 1 and b_0 = 1.0 the general IIR is the identity, bit for bit, on every sample but a NaN. -/
def Obligations.GiirIdentityFilter : Prop :=
  ∀ (s : State) (n : Nat) (G : GiirInst), s.Inv → s.giir[n]? = some G →
    G.nb = 1 → G.na = 1 → rd G.b 0 = 0x3F800000#32 → isNaN s.op[0] = false →
    ∃ t, exec (.giirProc n) s = .next t ∧ t.last = .ok ∧ t.res[0] = s.op[0]

/-! ### FIR design (43_fir_design.md) -/

/-- R301: the design checks, first failure wins, for every type and window. -/
def Obligations.DesignChecksInOrder : Prop :=
  ∀ (s : State) (n : Nat) (kind : FirKind) (w : Window), n < s.cfg.niFir →
    let N := s.op[2].toNat
    let i := designInstr kind w n
    (N < 1 ∨ s.cfg.firMax < N → EndsWith i s .range) ∧
    (kind ≠ .ma → 1 ≤ N → N ≤ s.cfg.firMax →
      (N % 2 = 0 → EndsWith i s .range) ∧
      (w = .hamm → N = 1 → EndsWith i s .range) ∧
      (N % 2 = 1 → (w = .rect ∨ N ≠ 1) →
        (BadFrequency s.op[3] ∨ BadFrequency s.op[0] ∨ BadBand kind s.op[0] s.op[1]) → EndsWith i s .param))

/-- R310: FIR.MA commits N taps 1/N whatever the window, for every order 1 to FIR_MAX, even or odd; the float tap is
fdiv(ONE, i2f(N)) bit for bit (a window of 1.0 changes nothing), the integer tap f2i of it times 2^P. -/
def Obligations.MovingAverageDesign : Prop :=
  (EncodedAs .firMaRect 0x00000040 ∧ EncodedAs .firMaHamm 0x00010040) ∧
  ∀ (s : State) (n : Nat) (w : Window),
    let N := s.op[2].toNat
    let i := designInstr .ma w n
    let h := fdiv someNaN 0x3F800000#32 (i2f N)
    (s.cfg.niFir ≤ n → EndsWith i s .range) ∧ (N < 1 ∨ s.cfg.firMax < N → EndsWith i s .range) ∧
    (∀ F, s.cfg.Legal → n < s.cfg.niFir → s.fir[n]? = some F → 1 ≤ N → N ≤ s.cfg.firMax →
      exec i s = .next { s with
        fir := s.fir.set n { F with
          order := N
          hf := List.replicate N h ++ List.replicate (s.cfg.firMax - N) 0
          hi := List.replicate N (f2i s.cfg.coefRound (fmul someNaN h (i2f (2 ^ s.cfg.p)))) ++
            List.replicate (s.cfg.firMax - N) 0
          bufA := List.replicate (2 * s.cfg.firMax) 0
          bufB := List.replicate (2 * s.cfg.firMax) 0
          bufR := List.replicate (2 * s.cfg.firMax) 0
          cur := 0 }
        last := .ok })

/-- R311 to R316 with R301 to R305: a windowed-sinc design whose operands meet every check of R301 either commits every
tap as the rules compute it, or, if some tap fails the validation of R315, ends with PARAM. -/
def Obligations.SincDesignCommitsEveryTap : Prop :=
  (EncodedAs .firLpRect 0x00001040 ∧ EncodedAs .firLpHamm 0x00011040 ∧ EncodedAs .firHpRect 0x00002040 ∧
    EncodedAs .firHpHamm 0x00012040 ∧ EncodedAs .firBpRect 0x00003040 ∧ EncodedAs .firBpHamm 0x00013040 ∧
    EncodedAs .firBsRect 0x00004040 ∧ EncodedAs .firBsHamm 0x00014040) ∧
  ∀ (s : State) (n : Nat) (kind : FirKind) (w : Window) (F : FirInst), kind ≠ .ma → n < s.cfg.niFir →
    s.fir[n]? = some F → SincOperands s kind w →
    let N := s.op[2].toNat
    ((∃ k, k < N ∧ ¬ TapAccepted s kind w k) → EndsWith (designInstr kind w n) s .param) ∧
    ((∀ k, k < N → TapAccepted s kind w k) →
      ∃ G : FirInst,
        exec (designInstr kind w n) s = .next { s with fir := s.fir.set n G, last := .ok } ∧
        (G.order = N ∧ G.cur = 0 ∧ G.kScale = F.kScale ∧ G.kGain = F.kGain ∧ G.kOff = F.kOff) ∧
        (G.bufA = List.replicate (2 * s.cfg.firMax) 0 ∧ G.bufB = List.replicate (2 * s.cfg.firMax) 0 ∧
          G.bufR = List.replicate (2 * s.cfg.firMax) 0) ∧
        (G.hf.length = s.cfg.firMax ∧ G.hi.length = s.cfg.firMax) ∧
        (∀ k, N ≤ k → rd G.hf k = 0 ∧ rdInt G.hi k = 0) ∧
        (∀ k, k < N → rd G.hf k = sincHf s kind w k ∧ rdInt G.hi k = f2i s.cfg.coefRound (sincHw s kind w k)))

/-- R320: the centre tap of a rectangular low-pass design is the binary32 (2·fc)/fs, bit for bit. -/
def Obligations.LowPassCentreTapIsClosedForm : Prop :=
  ∀ (s t : State) (n : Nat) (G : FirInst), exec (.firLpRect n) s = .next t → t.last = .ok → n < s.cfg.niFir →
    t.fir[n]? = some G →
    rd G.hf ((s.op[2].toNat - 1) / 2) = fdiv someNaN (fmul someNaN 0x40000000#32 s.op[0]) s.op[3]

/-- R321: with a rectangular window the float taps of a committed sinc design are symmetric, bit for bit, when FSIN is
odd at the arguments the design reads it at. -/
def Obligations.RectangularDesignsAreSymmetric : Prop :=
  ∀ (s t : State) (n : Nat) (kind : FirKind) (G : FirInst), kind ≠ .ma →
    exec (designInstr kind .rect n) s = .next t → t.last = .ok → n < s.cfg.niFir → t.fir[n]? = some G →
    SinOddFor s.cfg s.op[0] s.op[3] s.op[2].toNat →
    (kind = .bp ∨ kind = .bs → SinOddFor s.cfg s.op[1] s.op[3] s.op[2].toNat) →
    ∀ k, k < s.op[2].toNat → rd G.hf k = rd G.hf (s.op[2].toNat - 1 - k)

/-- R317, R318: coefficient readback. -/
def Obligations.FirCoefficientReadback : Prop :=
  (EncodedAs .firGetcf 0x00000043 ∧ EncodedAs .firGetci 0x00001043) ∧
  ∀ (s : State) (n : Nat),
    (s.cfg.niFir ≤ n → EndsWith (.firGetcf n) s .range ∧ EndsWith (.firGetci n) s .range) ∧
    (∀ F : FirInst, n < s.cfg.niFir → s.fir[n]? = some F →
      (F.order = 0 → EndsWith (.firGetcf n) s .notcfg ∧ EndsWith (.firGetci n) s .notcfg) ∧
      (F.order ≠ 0 → F.order ≤ s.op[0].toNat →
        EndsWith (.firGetcf n) s .range ∧ EndsWith (.firGetci n) s .range) ∧
      (F.order ≠ 0 → s.op[0].toNat < F.order →
        exec (.firGetcf n) s = .next { s with res := s.res.set 0 (rd F.hf s.op[0].toNat), last := .ok } ∧
        exec (.firGetci n) s = .next { s with
          res := s.res.set 0 (BitVec.ofInt 32 (rdInt F.hi s.op[0].toNat)), last := .ok }))

/-! ### FIR convolution (44_fir_convolution.md) -/

/-- R346 with R340, R341, R345: FIR.PROCF under every indexing policy. The window is read at the advanced cursor,
oldest sample first. -/
def Obligations.FirProcfConvolves : Prop :=
  (∀ p : Policy, EncodedAs (procfInstr p) (0x00000041 + policyVar p * 2 ^ 12)) ∧
  ∀ (s : State) (n : Nat) (p : Policy), s.Inv →
    (s.cfg.niFir ≤ n → EndsWith (procfInstr p n) s .range) ∧
    (∀ F : FirInst, s.fir[n]? = some F → F.order = 0 → EndsWith (procfInstr p n) s .notcfg) ∧
    (∀ F : FirInst, s.fir[n]? = some F → F.order ≠ 0 →
      ∃ ν : NaNs, ν.Quiet ∧
        let N := F.order
        let c := (F.cur + 1) % N
        let bufA := (F.bufA.set F.cur s.op[0]).set (F.cur + N) s.op[0]
        let bufR := (F.bufR.set F.cur s.op[1]).set (F.cur + N) s.op[1]
        exec (procfInstr p n) s = .next { s with
          fir := s.fir.set n { F with bufA := bufA, bufR := bufR, cur := c }
          res := s.res.set 0 (sumF (fun k => ν (2 * k))
            (fun k => fmul (ν (2 * k + 1)) (rd F.hf k) (rd bufA ((c + k) % N))) (N - 1))
          last := .ok })

/-- R347: FIR.PROCI under every indexing policy: the exact integer sum, OVERFLOW when it leaves 64 bits, the floor
shift by P, the physical conversion in three rounded steps, and the 32-bit integer. -/
def Obligations.FirProciConvolvesExactly : Prop :=
  (∀ p : Policy, EncodedAs (prociInstr p) (0x00010041 + policyVar p * 2 ^ 12)) ∧
  ∀ (s : State) (n : Nat) (p : Policy), s.Inv →
    (s.cfg.niFir ≤ n → EndsWith (prociInstr p n) s .range) ∧
    (∀ F : FirInst, s.fir[n]? = some F → F.order = 0 → EndsWith (prociInstr p n) s .notcfg) ∧
    (∀ F : FirInst, s.fir[n]? = some F → F.order ≠ 0 →
      let N := F.order
      let c := (F.cur + 1) % N
      let bufA := (F.bufA.set F.cur s.op[0]).set (F.cur + N) s.op[0]
      let bufR := (F.bufR.set F.cur s.op[1]).set (F.cur + N) s.op[1]
      let sum := ((List.range N).map fun k => rdInt F.hi k * (rd bufR ((c + k) % N)).toInt).sum
      (sum < -2 ^ 63 ∨ 2 ^ 63 - 1 < sum → EndsWith (prociInstr p n) s .overflow) ∧
      (-2 ^ 63 ≤ sum → sum ≤ 2 ^ 63 - 1 →
        ∃ (ν : NaNs) (y : Int), ν.Quiet ∧ y * 2 ^ s.cfg.p ≤ sum ∧ sum < (y + 1) * 2 ^ s.cfg.p ∧
          exec (prociInstr p n) s = .next { s with
            fir := s.fir.set n { F with bufA := bufA, bufR := bufR, cur := c }
            res := (s.res.set 0
              (fadd (ν 2) (fmul (ν 1) (fmul (ν 0) (i2f y) F.kScale) F.kGain) F.kOff)).set 1 (BitVec.ofInt 32 y)
            last := .ok }))

/-- R348: FIR.PROC2 (MOD = 0) under every indexing policy; the raw buffer is not written. -/
def Obligations.FirProc2ConvolvesTwoChannels : Prop :=
  (∀ p : Policy, EncodedAs (proc2Instr p) (0x00000042 + policyVar p * 2 ^ 12)) ∧
  ∀ (s : State) (n : Nat) (p : Policy), s.Inv →
    (s.cfg.niFir ≤ n → EndsWith (proc2Instr p n) s .range) ∧
    (∀ F : FirInst, s.fir[n]? = some F → F.order = 0 → EndsWith (proc2Instr p n) s .notcfg) ∧
    (∀ F : FirInst, s.fir[n]? = some F → F.order ≠ 0 →
      ∃ ν μ : NaNs, ν.Quiet ∧ μ.Quiet ∧
        let N := F.order
        let c := (F.cur + 1) % N
        let bufA := (F.bufA.set F.cur s.op[0]).set (F.cur + N) s.op[0]
        let bufB := (F.bufB.set F.cur s.op[1]).set (F.cur + N) s.op[1]
        exec (proc2Instr p n) s = .next { s with
          fir := s.fir.set n { F with bufA := bufA, bufB := bufB, cur := c }
          res := (s.res.set 0 (sumF (fun k => ν (2 * k))
              (fun k => fmul (ν (2 * k + 1)) (rd F.hf k) (rd bufA ((c + k) % N))) (N - 1))).set 1
            (sumF (fun k => μ (2 * k))
              (fun k => fmul (μ (2 * k + 1)) (rd F.hf k) (rd bufB ((c + k) % N))) (N - 1))
          last := .ok })

/-- R352: the three indexing policies are interchangeable command by command, bit for bit. That NaN results are equal
too is the model's choice, no rule of the spec (R24 draws every NaN freely): both sides have the same draw index and
number their operations alike (log 3). -/
def Obligations.IndexingPoliciesAgree : Prop :=
  ∀ (s : State) (n : Nat) (p p' : Policy), s.Inv →
    exec (procfInstr p n) s = exec (procfInstr p' n) s ∧
    exec (prociInstr p n) s = exec (prociInstr p' n) s ∧
    exec (proc2Instr p n) s = exec (proc2Instr p' n) s

/-- R116, R343: after a successful FIR.PROCF the newest position of the window holds x, and every other position holds
what stood one place nearer the newest end before. -/
def Obligations.FirWindowHoldsTheLastSamples : Prop :=
  ∀ (s t : State) (n : Nat) (p : Policy) (F G : FirInst), s.Inv → exec (procfInstr p n) s = .next t → t.last = .ok →
    s.fir[n]? = some F → t.fir[n]? = some G →
    G.order = F.order ∧ rd G.bufA (G.cur + (F.order - 1)) = s.op[0] ∧
    ∀ k, k + 1 < F.order → rd G.bufA (G.cur + k) = rd F.bufA (F.cur + (k + 1))

/-- R349, R350: FIR.SETCONV and FIR.CLR need no design. -/
def Obligations.FirSetconvAndClr : Prop :=
  (EncodedAs .firSetconv 0x00000044 ∧ EncodedAs .firClr 0x00000045) ∧
  ∀ (s : State) (n : Nat),
    let z : List Word := List.replicate (2 * s.cfg.firMax) 0
    (s.cfg.niFir ≤ n → EndsWith (.firSetconv n) s .range ∧ EndsWith (.firClr n) s .range) ∧
    (∀ F : FirInst, n < s.cfg.niFir → s.fir[n]? = some F →
      exec (.firSetconv n) s = .next { s with
        fir := s.fir.set n { F with kScale := s.op[0], kGain := s.op[1], kOff := s.op[2] }, last := .ok } ∧
      exec (.firClr n) s = .next { s with
        fir := s.fir.set n { F with bufA := z, bufB := z, bufR := z, cur := 0 }, last := .ok })

/-! ### Scale stage (45_scale.md) -/

/-- R370: SCALE.F. -/
def Obligations.ScaleFloat : Prop :=
  decode 0x00000050#32 = .ok .scaleF ∧
  ∀ s : State, ∃ ν : NaNs, ν.Quiet ∧
    exec .scaleF s = .next { s with res := s.res.set 0 (fmul (ν 0) s.op[0] s.op[1]), last := .ok }

/-- R371: SCALE.I answers the floor of v·f / 2^32 as one 64-bit value, low word in RES0, and never overflows. -/
def Obligations.ScaleIntegerIsExact : Prop :=
  decode 0x00000051#32 = .ok .scaleI ∧
  ∀ s : State, ∃ (lo hi : Word),
    exec .scaleI s = .next { s with res := (s.res.set 0 lo).set 1 hi, last := .ok } ∧
    let v := s.op[0].toInt
    let f := (s.op[2] ++ s.op[1]).toInt
    let r := (hi ++ lo).toInt
    r * 2 ^ 32 ≤ v * f ∧ v * f < (r + 1) * 2 ^ 32

/-! ### Arithmetic (00_scope.md section 6) -/

/-- R20, R21, R22: addition, subtraction, multiplication and division. On finite operands: the exact result rounded once
to nearest, ties to even, subnormals kept, overflow to an infinity, and the sign of a zero result as IEEE 754 has it.
With a zero divisor or an infinite operand, where the result is no NaN: the infinity or zero IEEE 754 has, with its
sign. The cases whose result is a NaN are those of `NanResultsAreDrawnQuietNans`. -/
def Obligations.ArithmeticIsCorrectlyRounded : Prop :=
  ∀ nan a b : F32,
    (isFinite a = true → isFinite b = true →
      RoundedTo (fval a + fval b) (fadd nan a b) ∧
      RoundedTo (fval a - fval b) (fsub nan a b) ∧
      RoundedTo (fval a * fval b) (fmul nan a b) ∧
      (fval b ≠ 0 → RoundedTo (fval a / fval b) (fdiv nan a b)) ∧
      (fval a + fval b = 0 → (fsign (fadd nan a b) = true ↔ fsign a = true ∧ fsign b = true)) ∧
      (fval a - fval b = 0 → (fsign (fsub nan a b) = true ↔ fsign a = true ∧ fsign b = false)) ∧
      fsign (fmul nan a b) = (fsign a != fsign b) ∧
      (fval b ≠ 0 → fsign (fdiv nan a b) = (fsign a != fsign b)) ∧
      (fval a ≠ 0 → fval b = 0 → isInf (fdiv nan a b) = true ∧ fsign (fdiv nan a b) = (fsign a != fsign b))) ∧
    (isInf a = true → isFinite b = true →
      fadd nan a b = a ∧ fadd nan b a = a ∧ fsub nan a b = a ∧ fsub nan b a = fneg a ∧
      (fval b ≠ 0 →
        isInf (fmul nan a b) = true ∧ fsign (fmul nan a b) = (fsign a != fsign b) ∧
        isInf (fmul nan b a) = true ∧ fsign (fmul nan b a) = (fsign a != fsign b)) ∧
      isInf (fdiv nan a b) = true ∧ fsign (fdiv nan a b) = (fsign a != fsign b) ∧
      isZero (fdiv nan b a) = true ∧ fsign (fdiv nan b a) = (fsign a != fsign b)) ∧
    (isInf a = true → isInf b = true →
      (fsign a = fsign b → fadd nan a b = a) ∧ (fsign a ≠ fsign b → fsub nan a b = a) ∧
      isInf (fmul nan a b) = true ∧ fsign (fmul nan a b) = (fsign a != fsign b))

/-- R24 with the invalid operations of R21 and R22: an operation answers the NaN drawn for it (log 3) when an operand is
a NaN and for ∞ - ∞, 0·∞, 0/0 and ∞/∞, and no NaN otherwise; every drawn one is a quiet NaN. -/
def Obligations.NanResultsAreDrawnQuietNans : Prop :=
  (∀ d, (freeNaNs d).Quiet) ∧
  ∀ nan a b : F32,
    let drawnExactlyIf (invalid : Prop) (r : F32) : Prop :=
      (isNaN a = true ∨ isNaN b = true ∨ invalid → r = nan) ∧
      (isNaN r = true → isNaN a = true ∨ isNaN b = true ∨ invalid)
    drawnExactlyIf (isInf a = true ∧ isInf b = true ∧ fsign a ≠ fsign b) (fadd nan a b) ∧
    drawnExactlyIf (isInf a = true ∧ isInf b = true ∧ fsign a = fsign b) (fsub nan a b) ∧
    drawnExactlyIf ((isZero a = true ∧ isInf b = true) ∨ (isInf a = true ∧ isZero b = true)) (fmul nan a b) ∧
    drawnExactlyIf ((isZero a = true ∧ isZero b = true) ∨ (isInf a = true ∧ isInf b = true)) (fdiv nan a b)

/-- R25: the ordered comparisons, on every pair of operands: false with a NaN, by value on finite operands (so both
zeros are equal), and with an infinity below or above every other value by its sign. -/
def Obligations.ComparisonsAreOrdered : Prop :=
  ∀ a b : F32,
    (isNaN a = true ∨ isNaN b = true → flt a b = false ∧ fgt a b = false) ∧
    (isFinite a = true → isFinite b = true →
      (flt a b = true ↔ fval a < fval b) ∧ (fgt a b = true ↔ fval b < fval a)) ∧
    (isFinite a = true → isInf b = true → flt a b = !fsign b ∧ fgt a b = fsign b) ∧
    (isInf a = true → isFinite b = true → flt a b = fsign a ∧ fgt a b = !fsign a) ∧
    (isInf a = true → isInf b = true → flt a b = (fsign a && !fsign b) ∧ fgt a b = (fsign b && !fsign a))

/-- R26: i2f is the integer rounded to nearest even, exact up to 2^24; f2i is the truncation toward zero, or the
nearest integer with ties away from zero. -/
def Obligations.ConversionsRoundAsStated : Prop :=
  (∀ n : Int, RoundedTo (n : ℚ) (i2f n) ∧ (|n| ≤ 2 ^ 24 → fval (i2f n) = n)) ∧
  (∀ a : F32, isFinite a = true →
    (let n := f2i .trunc a
     |(n : ℚ)| ≤ |fval a| ∧ |fval a| < |(n : ℚ)| + 1 ∧ 0 ≤ (n : ℚ) * fval a) ∧
    (let n := f2i .nearest a
     |(n : ℚ) - fval a| ≤ 1 / 2 ∧ 0 ≤ (n : ℚ) * fval a ∧ (|(n : ℚ) - fval a| = 1 / 2 → |fval a| ≤ |(n : ℚ)|)))

/-! ### Host programs (30_encoding.md section 5) -/

/-- R143, R144 on the spec's own expansion of program P2's first line: GIIR.LOAD #1, [0.5], [1.0, -0.5]. -/
def Obligations.GiirLoadExpandsAsWritten : Prop :=
  ∀ c : Params, Line.expand c (.giirLoad 1 [0x3F000000#32] [0x3F800000#32, 0xBF000000#32]) =
    [.write (c.fcBase + 0x20) 4 0x00000001#32, .write (c.fcBase + 0x24) 4 0x00000002#32,
     .write c.fcBase 4 0x00000130#32,
     .write (c.fcBase + 0x20) 4 0x00000000#32, .write (c.fcBase + 0x24) 4 0x3F000000#32,
     .write c.fcBase 4 0x00000131#32,
     .write (c.fcBase + 0x20) 4 0x00000000#32, .write (c.fcBase + 0x24) 4 0x3F800000#32,
     .write c.fcBase 4 0x00000132#32,
     .write (c.fcBase + 0x20) 4 0x00000001#32, .write (c.fcBase + 0x24) 4 0xBF000000#32,
     .write c.fcBase 4 0x00000132#32]
end

