-- ==== Sys2Proof/Laws/State.lean ====
section
/-! SUPPORT. What each state update leaves in each field, all true by `rfl`, so that no proof unfolds an update. -/

namespace Sys2Proof.Machine

/-! ### `raise Error(c)` (R17) -/

@[simp] theorem State.raise_cfg (s : State) (c : Code) : (s.raise c).cfg = s.cfg := rfl
@[simp] theorem State.raise_cmd (s : State) (c : Code) : (s.raise c).cmd = s.cmd := rfl
@[simp] theorem State.raise_last (s : State) (c : Code) : (s.raise c).last = c := rfl
@[simp] theorem State.raise_err (s : State) (c : Code) : (s.raise c).err = true := rfl
@[simp] theorem State.raise_op (s : State) (c : Code) : (s.raise c).op = s.op := rfl
@[simp] theorem State.raise_res (s : State) (c : Code) : (s.raise c).res = s.res := rfl
@[simp] theorem State.raise_avg (s : State) (c : Code) : (s.raise c).avg = s.avg := rfl
@[simp] theorem State.raise_lo (s : State) (c : Code) : (s.raise c).lo = s.lo := rfl
@[simp] theorem State.raise_giir (s : State) (c : Code) : (s.raise c).giir = s.giir := rfl
@[simp] theorem State.raise_fir (s : State) (c : Code) : (s.raise c).fir = s.fir := rfl
@[simp] theorem State.raise_draws (s : State) (c : Code) : (s.raise c).draws = s.draws := rfl
@[simp] theorem State.raise_bus (s : State) (c : Code) : (s.raise c).bus = s.bus := rfl
@[simp] theorem State.raise_readData (s : State) (c : Code) : (s.raise c).readData = s.readData := rfl

/-! ### Completion (R18) -/

@[simp] theorem State.complete_cfg (s : State) : (s.complete).cfg = s.cfg := rfl
@[simp] theorem State.complete_cmd (s : State) : (s.complete).cmd = s.cmd := rfl
@[simp] theorem State.complete_last (s : State) : (s.complete).last = .ok := rfl
@[simp] theorem State.complete_err (s : State) : (s.complete).err = s.err := rfl
@[simp] theorem State.complete_op (s : State) : (s.complete).op = s.op := rfl
@[simp] theorem State.complete_res (s : State) : (s.complete).res = s.res := rfl
@[simp] theorem State.complete_avg (s : State) : (s.complete).avg = s.avg := rfl
@[simp] theorem State.complete_lo (s : State) : (s.complete).lo = s.lo := rfl
@[simp] theorem State.complete_giir (s : State) : (s.complete).giir = s.giir := rfl
@[simp] theorem State.complete_fir (s : State) : (s.complete).fir = s.fir := rfl
@[simp] theorem State.complete_draws (s : State) : (s.complete).draws = s.draws := rfl
@[simp] theorem State.complete_bus (s : State) : (s.complete).bus = s.bus := rfl
@[simp] theorem State.complete_readData (s : State) : (s.complete).readData = s.readData := rfl

/-! ### The next command's draw index (log 3) -/

@[simp] theorem State.nextDraw_cfg (s : State) : (s.nextDraw).cfg = s.cfg := rfl
@[simp] theorem State.nextDraw_cmd (s : State) : (s.nextDraw).cmd = s.cmd := rfl
@[simp] theorem State.nextDraw_last (s : State) : (s.nextDraw).last = s.last := rfl
@[simp] theorem State.nextDraw_err (s : State) : (s.nextDraw).err = s.err := rfl
@[simp] theorem State.nextDraw_op (s : State) : (s.nextDraw).op = s.op := rfl
@[simp] theorem State.nextDraw_res (s : State) : (s.nextDraw).res = s.res := rfl
@[simp] theorem State.nextDraw_avg (s : State) : (s.nextDraw).avg = s.avg := rfl
@[simp] theorem State.nextDraw_lo (s : State) : (s.nextDraw).lo = s.lo := rfl
@[simp] theorem State.nextDraw_giir (s : State) : (s.nextDraw).giir = s.giir := rfl
@[simp] theorem State.nextDraw_fir (s : State) : (s.nextDraw).fir = s.fir := rfl
@[simp] theorem State.nextDraw_draws (s : State) : (s.nextDraw).draws = s.draws + 1 := rfl
@[simp] theorem State.nextDraw_bus (s : State) : (s.nextDraw).bus = s.bus := rfl
@[simp] theorem State.nextDraw_readData (s : State) : (s.nextDraw).readData = s.readData := rfl

/-! ### A new value of one avg instance, and the results -/

@[simp] theorem State.setAvg_cfg (s : State) (n : Nat) (a : AvgInst) (r : Results) : (s.setAvg n a r).cfg = s.cfg := rfl
@[simp] theorem State.setAvg_cmd (s : State) (n : Nat) (a : AvgInst) (r : Results) : (s.setAvg n a r).cmd = s.cmd := rfl
@[simp] theorem State.setAvg_last (s : State) (n : Nat) (a : AvgInst) (r : Results) : (s.setAvg n a r).last = s.last := rfl
@[simp] theorem State.setAvg_err (s : State) (n : Nat) (a : AvgInst) (r : Results) : (s.setAvg n a r).err = s.err := rfl
@[simp] theorem State.setAvg_op (s : State) (n : Nat) (a : AvgInst) (r : Results) : (s.setAvg n a r).op = s.op := rfl
@[simp] theorem State.setAvg_res (s : State) (n : Nat) (a : AvgInst) (r : Results) : (s.setAvg n a r).res = r.write s.res := rfl
@[simp] theorem State.setAvg_avg (s : State) (n : Nat) (a : AvgInst) (r : Results) : (s.setAvg n a r).avg = s.avg.set n a := rfl
@[simp] theorem State.setAvg_lo (s : State) (n : Nat) (a : AvgInst) (r : Results) : (s.setAvg n a r).lo = s.lo := rfl
@[simp] theorem State.setAvg_giir (s : State) (n : Nat) (a : AvgInst) (r : Results) : (s.setAvg n a r).giir = s.giir := rfl
@[simp] theorem State.setAvg_fir (s : State) (n : Nat) (a : AvgInst) (r : Results) : (s.setAvg n a r).fir = s.fir := rfl
@[simp] theorem State.setAvg_draws (s : State) (n : Nat) (a : AvgInst) (r : Results) : (s.setAvg n a r).draws = s.draws := rfl
@[simp] theorem State.setAvg_bus (s : State) (n : Nat) (a : AvgInst) (r : Results) : (s.setAvg n a r).bus = s.bus := rfl
@[simp] theorem State.setAvg_readData (s : State) (n : Nat) (a : AvgInst) (r : Results) : (s.setAvg n a r).readData = s.readData := rfl

/-! ### A new value of one lo instance, and the results -/

@[simp] theorem State.setLo_cfg (s : State) (n : Nat) (a : LoInst) (r : Results) : (s.setLo n a r).cfg = s.cfg := rfl
@[simp] theorem State.setLo_cmd (s : State) (n : Nat) (a : LoInst) (r : Results) : (s.setLo n a r).cmd = s.cmd := rfl
@[simp] theorem State.setLo_last (s : State) (n : Nat) (a : LoInst) (r : Results) : (s.setLo n a r).last = s.last := rfl
@[simp] theorem State.setLo_err (s : State) (n : Nat) (a : LoInst) (r : Results) : (s.setLo n a r).err = s.err := rfl
@[simp] theorem State.setLo_op (s : State) (n : Nat) (a : LoInst) (r : Results) : (s.setLo n a r).op = s.op := rfl
@[simp] theorem State.setLo_res (s : State) (n : Nat) (a : LoInst) (r : Results) : (s.setLo n a r).res = r.write s.res := rfl
@[simp] theorem State.setLo_avg (s : State) (n : Nat) (a : LoInst) (r : Results) : (s.setLo n a r).avg = s.avg := rfl
@[simp] theorem State.setLo_lo (s : State) (n : Nat) (a : LoInst) (r : Results) : (s.setLo n a r).lo = s.lo.set n a := rfl
@[simp] theorem State.setLo_giir (s : State) (n : Nat) (a : LoInst) (r : Results) : (s.setLo n a r).giir = s.giir := rfl
@[simp] theorem State.setLo_fir (s : State) (n : Nat) (a : LoInst) (r : Results) : (s.setLo n a r).fir = s.fir := rfl
@[simp] theorem State.setLo_draws (s : State) (n : Nat) (a : LoInst) (r : Results) : (s.setLo n a r).draws = s.draws := rfl
@[simp] theorem State.setLo_bus (s : State) (n : Nat) (a : LoInst) (r : Results) : (s.setLo n a r).bus = s.bus := rfl
@[simp] theorem State.setLo_readData (s : State) (n : Nat) (a : LoInst) (r : Results) : (s.setLo n a r).readData = s.readData := rfl

/-! ### A new value of one giir instance, and the results -/

@[simp] theorem State.setGiir_cfg (s : State) (n : Nat) (a : GiirInst) (r : Results) : (s.setGiir n a r).cfg = s.cfg := rfl
@[simp] theorem State.setGiir_cmd (s : State) (n : Nat) (a : GiirInst) (r : Results) : (s.setGiir n a r).cmd = s.cmd := rfl
@[simp] theorem State.setGiir_last (s : State) (n : Nat) (a : GiirInst) (r : Results) : (s.setGiir n a r).last = s.last := rfl
@[simp] theorem State.setGiir_err (s : State) (n : Nat) (a : GiirInst) (r : Results) : (s.setGiir n a r).err = s.err := rfl
@[simp] theorem State.setGiir_op (s : State) (n : Nat) (a : GiirInst) (r : Results) : (s.setGiir n a r).op = s.op := rfl
@[simp] theorem State.setGiir_res (s : State) (n : Nat) (a : GiirInst) (r : Results) : (s.setGiir n a r).res = r.write s.res := rfl
@[simp] theorem State.setGiir_avg (s : State) (n : Nat) (a : GiirInst) (r : Results) : (s.setGiir n a r).avg = s.avg := rfl
@[simp] theorem State.setGiir_lo (s : State) (n : Nat) (a : GiirInst) (r : Results) : (s.setGiir n a r).lo = s.lo := rfl
@[simp] theorem State.setGiir_giir (s : State) (n : Nat) (a : GiirInst) (r : Results) : (s.setGiir n a r).giir = s.giir.set n a := rfl
@[simp] theorem State.setGiir_fir (s : State) (n : Nat) (a : GiirInst) (r : Results) : (s.setGiir n a r).fir = s.fir := rfl
@[simp] theorem State.setGiir_draws (s : State) (n : Nat) (a : GiirInst) (r : Results) : (s.setGiir n a r).draws = s.draws := rfl
@[simp] theorem State.setGiir_bus (s : State) (n : Nat) (a : GiirInst) (r : Results) : (s.setGiir n a r).bus = s.bus := rfl
@[simp] theorem State.setGiir_readData (s : State) (n : Nat) (a : GiirInst) (r : Results) : (s.setGiir n a r).readData = s.readData := rfl

/-! ### A new value of one fir instance, and the results -/

@[simp] theorem State.setFir_cfg (s : State) (n : Nat) (a : FirInst) (r : Results) : (s.setFir n a r).cfg = s.cfg := rfl
@[simp] theorem State.setFir_cmd (s : State) (n : Nat) (a : FirInst) (r : Results) : (s.setFir n a r).cmd = s.cmd := rfl
@[simp] theorem State.setFir_last (s : State) (n : Nat) (a : FirInst) (r : Results) : (s.setFir n a r).last = s.last := rfl
@[simp] theorem State.setFir_err (s : State) (n : Nat) (a : FirInst) (r : Results) : (s.setFir n a r).err = s.err := rfl
@[simp] theorem State.setFir_op (s : State) (n : Nat) (a : FirInst) (r : Results) : (s.setFir n a r).op = s.op := rfl
@[simp] theorem State.setFir_res (s : State) (n : Nat) (a : FirInst) (r : Results) : (s.setFir n a r).res = r.write s.res := rfl
@[simp] theorem State.setFir_avg (s : State) (n : Nat) (a : FirInst) (r : Results) : (s.setFir n a r).avg = s.avg := rfl
@[simp] theorem State.setFir_lo (s : State) (n : Nat) (a : FirInst) (r : Results) : (s.setFir n a r).lo = s.lo := rfl
@[simp] theorem State.setFir_giir (s : State) (n : Nat) (a : FirInst) (r : Results) : (s.setFir n a r).giir = s.giir := rfl
@[simp] theorem State.setFir_fir (s : State) (n : Nat) (a : FirInst) (r : Results) : (s.setFir n a r).fir = s.fir.set n a := rfl
@[simp] theorem State.setFir_draws (s : State) (n : Nat) (a : FirInst) (r : Results) : (s.setFir n a r).draws = s.draws := rfl
@[simp] theorem State.setFir_bus (s : State) (n : Nat) (a : FirInst) (r : Results) : (s.setFir n a r).bus = s.bus := rfl
@[simp] theorem State.setFir_readData (s : State) (n : Nat) (a : FirInst) (r : Results) : (s.setFir n a r).readData = s.readData := rfl

/-! ### Reset (R450) -/

@[simp] theorem State.resetEngine_cfg (s : State) : (s.resetEngine).cfg = s.cfg := rfl
@[simp] theorem State.resetEngine_cmd (s : State) : (s.resetEngine).cmd = 0 := rfl
@[simp] theorem State.resetEngine_last (s : State) : (s.resetEngine).last = .ok := rfl
@[simp] theorem State.resetEngine_err (s : State) : (s.resetEngine).err = false := rfl
@[simp] theorem State.resetEngine_op (s : State) : (s.resetEngine).op = Vector.replicate 8 0 := rfl
@[simp] theorem State.resetEngine_res (s : State) : (s.resetEngine).res = Vector.replicate 4 0 := rfl
@[simp] theorem State.resetEngine_avg (s : State) : (s.resetEngine).avg = List.replicate s.cfg.niAvg (.reset s.cfg) := rfl
@[simp] theorem State.resetEngine_lo (s : State) : (s.resetEngine).lo = List.replicate s.cfg.niLo .reset := rfl
@[simp] theorem State.resetEngine_giir (s : State) : (s.resetEngine).giir = List.replicate s.cfg.niGiir (.reset s.cfg) := rfl
@[simp] theorem State.resetEngine_fir (s : State) : (s.resetEngine).fir = List.replicate s.cfg.niFir (.reset s.cfg) := rfl
@[simp] theorem State.resetEngine_draws (s : State) : (s.resetEngine).draws = s.draws := rfl
@[simp] theorem State.resetEngine_bus (s : State) : (s.resetEngine).bus = s.bus := rfl
@[simp] theorem State.resetEngine_readData (s : State) : (s.resetEngine).readData = s.readData := rfl

/-! ### Results (R57) -/

@[simp] theorem Results.write_none (v : Vector Word 4) : Results.none.write v = v := rfl
@[simp] theorem Results.write_one (a : Word) (v : Vector Word 4) : (Results.one a).write v = v.set 0 a := rfl
@[simp] theorem Results.write_two (a b : Word) (v : Vector Word 4) :
    (Results.two a b).write v = (v.set 0 a).set 1 b := rfl

/-! ### Filters of a low-order instance (R62) -/

@[simp] theorem LoInst.get_put (L : LoInst) (f : LoId) (F : LoFilter) : (L.put f F).get f = F := by cases f <;> rfl

theorem LoInst.get_put_ne (L : LoInst) {f g : LoId} (F : LoFilter) (h : g ≠ f) : (L.put f F).get g = L.get g := by
  cases f <;> cases g <;> first | rfl | exact absurd rfl h

/-! ### Outcomes -/

@[simp] theorem Result.onNext_next (f : State → State) (t : State) : Result.onNext f (.next t) = .next (f t) := rfl
@[simp] theorem Result.onNext_fault (f : State → State) (e : Fault) : Result.onNext f (.fault e) = .fault e := rfl
@[simp] theorem Result.onNext_refused (f : State → State) (e : Refusal) :
    Result.onNext f (.refused e) = .refused e := rfl

end Sys2Proof.Machine
end

