-- ==== Sys2Proof/Laws/Ops.lean ====
section
/-! SUPPORT. What each shared operation can do: how a command ends, a command on one instance, array access, the ring,
shift and doubled buffers, and sums. -/

namespace Sys2Proof.Machine

/-! ### How a command ends (R17, R18) -/

@[simp] theorem finish_error (s : State) (c : Code) : finish s (.error c) = .next (s.raise c) := rfl
@[simp] theorem finish_ok (s t : State) : finish s (.ok t) = .next t.complete := rfl

/-- All `finish` can do. -/
theorem finish_eq_next {s t : State} {body : Except Code State} (h : finish s body = .next t) :
    (∃ c, body = .error c ∧ t = s.raise c) ∨ ∃ u, body = .ok u ∧ t = u.complete := by
  cases body with
  | error c => exact .inl ⟨c, rfl, by simpa using h.symm⟩
  | ok u => exact .inr ⟨u, rfl, by simpa using h.symm⟩

/-! ### The instance a command selects (R72, R133) -/

theorem State.avgAt_of_get {s : State} {n : Nat} {A : AvgInst} (h : s.avg[n]? = some A) : s.avgAt n = A := by
  simp [State.avgAt, List.getD, h]
theorem State.loAt_of_get {s : State} {n : Nat} {L : LoInst} (h : s.lo[n]? = some L) : s.loAt n = L := by
  simp [State.loAt, List.getD, h]
theorem State.giirAt_of_get {s : State} {n : Nat} {G : GiirInst} (h : s.giir[n]? = some G) : s.giirAt n = G := by
  simp [State.giirAt, List.getD, h]
theorem State.firAt_of_get {s : State} {n : Nat} {F : FirInst} (h : s.fir[n]? = some F) : s.firAt n = F := by
  simp [State.firAt, List.getD, h]

section Run

variable {s t : State} {n : Nat}

theorem runAvg_of_le {body} (h : s.cfg.niAvg ≤ n) : runAvg n body s = .next (s.raise .range) := by
  simp [runAvg, h]
theorem runAvg_of_error {body} {c : Code} (hn : n < s.cfg.niAvg) (h : body s (s.avgAt n) = .error c) :
    runAvg n body s = .next (s.raise c) := by
  simp [runAvg, Nat.not_le.2 hn, h, Except.map]
theorem runAvg_of_ok {body} {a : AvgInst} {r : Results} (hn : n < s.cfg.niAvg)
    (h : body s (s.avgAt n) = .ok (a, r)) : runAvg n body s = .next (s.setAvg n a r).complete := by
  simp [runAvg, Nat.not_le.2 hn, h, Except.map]

/-- All a command on an average instance can do. -/
theorem runAvg_eq_next {body} (h : runAvg n body s = .next t) :
    (s.cfg.niAvg ≤ n ∧ t = s.raise .range) ∨
    (n < s.cfg.niAvg ∧ ∃ c, body s (s.avgAt n) = .error c ∧ t = s.raise c) ∨
    (n < s.cfg.niAvg ∧ ∃ a r, body s (s.avgAt n) = .ok (a, r) ∧ t = (s.setAvg n a r).complete) := by
  by_cases hn : s.cfg.niAvg ≤ n
  · rw [runAvg_of_le hn] at h; exact .inl ⟨hn, by simpa using h.symm⟩
  · have hlt := Nat.not_le.1 hn
    match hb : body s (s.avgAt n) with
    | .error c => rw [runAvg_of_error hlt hb] at h; exact .inr (.inl ⟨hlt, c, rfl, by simpa using h.symm⟩)
    | .ok (a, r) => rw [runAvg_of_ok hlt hb] at h; exact .inr (.inr ⟨hlt, a, r, rfl, by simpa using h.symm⟩)

theorem runLo_of_le {body} (h : s.cfg.niLo ≤ n) : runLo n body s = .next (s.raise .range) := by
  simp [runLo, h]
theorem runLo_of_error {body} {c : Code} (hn : n < s.cfg.niLo) (h : body s (s.loAt n) = .error c) :
    runLo n body s = .next (s.raise c) := by
  simp [runLo, Nat.not_le.2 hn, h, Except.map]
theorem runLo_of_ok {body} {a : LoInst} {r : Results} (hn : n < s.cfg.niLo)
    (h : body s (s.loAt n) = .ok (a, r)) : runLo n body s = .next (s.setLo n a r).complete := by
  simp [runLo, Nat.not_le.2 hn, h, Except.map]

/-- All a command on a low-order instance can do. -/
theorem runLo_eq_next {body} (h : runLo n body s = .next t) :
    (s.cfg.niLo ≤ n ∧ t = s.raise .range) ∨
    (n < s.cfg.niLo ∧ ∃ c, body s (s.loAt n) = .error c ∧ t = s.raise c) ∨
    (n < s.cfg.niLo ∧ ∃ a r, body s (s.loAt n) = .ok (a, r) ∧ t = (s.setLo n a r).complete) := by
  by_cases hn : s.cfg.niLo ≤ n
  · rw [runLo_of_le hn] at h; exact .inl ⟨hn, by simpa using h.symm⟩
  · have hlt := Nat.not_le.1 hn
    match hb : body s (s.loAt n) with
    | .error c => rw [runLo_of_error hlt hb] at h; exact .inr (.inl ⟨hlt, c, rfl, by simpa using h.symm⟩)
    | .ok (a, r) => rw [runLo_of_ok hlt hb] at h; exact .inr (.inr ⟨hlt, a, r, rfl, by simpa using h.symm⟩)

theorem runGiir_of_le {body} (h : s.cfg.niGiir ≤ n) : runGiir n body s = .next (s.raise .range) := by
  simp [runGiir, h]
theorem runGiir_of_error {body} {c : Code} (hn : n < s.cfg.niGiir) (h : body s (s.giirAt n) = .error c) :
    runGiir n body s = .next (s.raise c) := by
  simp [runGiir, Nat.not_le.2 hn, h, Except.map]
theorem runGiir_of_ok {body} {a : GiirInst} {r : Results} (hn : n < s.cfg.niGiir)
    (h : body s (s.giirAt n) = .ok (a, r)) : runGiir n body s = .next (s.setGiir n a r).complete := by
  simp [runGiir, Nat.not_le.2 hn, h, Except.map]

/-- All a command on a general-IIR instance can do. -/
theorem runGiir_eq_next {body} (h : runGiir n body s = .next t) :
    (s.cfg.niGiir ≤ n ∧ t = s.raise .range) ∨
    (n < s.cfg.niGiir ∧ ∃ c, body s (s.giirAt n) = .error c ∧ t = s.raise c) ∨
    (n < s.cfg.niGiir ∧ ∃ a r, body s (s.giirAt n) = .ok (a, r) ∧ t = (s.setGiir n a r).complete) := by
  by_cases hn : s.cfg.niGiir ≤ n
  · rw [runGiir_of_le hn] at h; exact .inl ⟨hn, by simpa using h.symm⟩
  · have hlt := Nat.not_le.1 hn
    match hb : body s (s.giirAt n) with
    | .error c => rw [runGiir_of_error hlt hb] at h; exact .inr (.inl ⟨hlt, c, rfl, by simpa using h.symm⟩)
    | .ok (a, r) => rw [runGiir_of_ok hlt hb] at h; exact .inr (.inr ⟨hlt, a, r, rfl, by simpa using h.symm⟩)

theorem runFir_of_le {body} (h : s.cfg.niFir ≤ n) : runFir n body s = .next (s.raise .range) := by
  simp [runFir, h]
theorem runFir_of_error {body} {c : Code} (hn : n < s.cfg.niFir) (h : body s (s.firAt n) = .error c) :
    runFir n body s = .next (s.raise c) := by
  simp [runFir, Nat.not_le.2 hn, h, Except.map]
theorem runFir_of_ok {body} {a : FirInst} {r : Results} (hn : n < s.cfg.niFir)
    (h : body s (s.firAt n) = .ok (a, r)) : runFir n body s = .next (s.setFir n a r).complete := by
  simp [runFir, Nat.not_le.2 hn, h, Except.map]

/-- All a command on a FIR instance can do. -/
theorem runFir_eq_next {body} (h : runFir n body s = .next t) :
    (s.cfg.niFir ≤ n ∧ t = s.raise .range) ∨
    (n < s.cfg.niFir ∧ ∃ c, body s (s.firAt n) = .error c ∧ t = s.raise c) ∨
    (n < s.cfg.niFir ∧ ∃ a r, body s (s.firAt n) = .ok (a, r) ∧ t = (s.setFir n a r).complete) := by
  by_cases hn : s.cfg.niFir ≤ n
  · rw [runFir_of_le hn] at h; exact .inl ⟨hn, by simpa using h.symm⟩
  · have hlt := Nat.not_le.1 hn
    match hb : body s (s.firAt n) with
    | .error c => rw [runFir_of_error hlt hb] at h; exact .inr (.inl ⟨hlt, c, rfl, by simpa using h.symm⟩)
    | .ok (a, r) => rw [runFir_of_ok hlt hb] at h; exact .inr (.inr ⟨hlt, a, r, rfl, by simpa using h.symm⟩)

end Run

/-! ### Arrays -/

@[simp] theorem rd_zeros (cap k : Nat) : rd (zeros cap) k = 0 := by
  unfold rd zeros
  by_cases h : k < cap <;> simp [List.getD, h]

@[simp] theorem length_zeros (cap : Nat) : (zeros cap).length = cap := List.length_replicate

theorem rd_set (l : List Word) (i k : Nat) (v : Word) :
    rd (l.set i v) k = if i = k ∧ k < l.length then v else rd l k := by
  simp only [rd, List.getD_eq_getElem?_getD, List.getElem?_set]
  by_cases h : i = k
  · subst h
    by_cases hl : i < l.length <;> simp [hl]
  · simp [h]

theorem rd_set_self {l : List Word} {k : Nat} (h : k < l.length) (v : Word) : rd (l.set k v) k = v := by
  simp [rd_set, h]

theorem rd_set_ne (l : List Word) {i k : Nat} (h : i ≠ k) (v : Word) : rd (l.set i v) k = rd l k := by
  simp [rd_set, h]

theorem rd_of_length_le {l : List Word} {k : Nat} (h : l.length ≤ k) : rd l k = 0 := by
  simp [rd, List.getD, h]

theorem tapCheck_eq_none {len k : Nat} : tapCheck len k = none ↔ k < len := by
  unfold tapCheck
  split
  · simp; omega
  · split <;> simp <;> omega

/-! ### The single ring (R115) -/

theorem ringIndex_eq {C c i : Nat} (hi : i ≤ c + C) : ringIndex C c i = (c + C - i) % C := by
  unfold ringIndex
  have h : ((c + C - i : Nat) : Int) = (c : Int) - i + C := by omega
  have e : ((c : Int) - i).emod C = (((c + C - i) % C : Nat) : Int) := by
    rw [Int.natCast_mod, h, Int.add_emod_right]; rfl
  rw [e, Int.toNat_natCast]

theorem ringIndex_lt {C c i : Nat} (hC : 0 < C) : ringIndex C c i < C := by
  unfold ringIndex
  have h1 : 0 ≤ ((c : Int) - i).emod C := Int.emod_nonneg _ (by omega)
  have h2 : ((c : Int) - i).emod C < C := Int.emod_lt_of_pos _ (by omega)
  omega

/-! ### The shift array (R119) -/

@[simp] theorem length_shiftUp (m : Nat) (l : List F32) : (shiftUp m l).length = l.length := by
  induction m generalizing l with
  | zero => rfl
  | succ m ih => rw [shiftUp, ih, List.length_set]

/-- After shifting entries 0 … m up by one, entry k + 1 holds what entry k held, and entry 0 keeps its value. -/
theorem rd_shiftUp {m : Nat} {l : List F32} (h : m < l.length) (k : Nat) :
    rd (shiftUp m l) k = if 1 ≤ k ∧ k ≤ m then rd l (k - 1) else rd l k := by
  induction m generalizing l with
  | zero => rw [shiftUp, if_neg (by omega)]
  | succ m ih =>
    rw [shiftUp, ih (by rw [List.length_set]; omega)]
    by_cases h1 : 1 ≤ k ∧ k ≤ m
    · rw [if_pos h1, if_pos ⟨h1.1, by omega⟩, rd_set_ne _ (by omega)]
    · rw [if_neg h1]
      by_cases h2 : k = m + 1
      · rw [if_pos ⟨by omega, by omega⟩, h2, rd_set_self h]; rfl
      · rw [if_neg (by omega), rd_set_ne _ (by omega)]

/-! ### The doubled ring (R68, R116, R117, R340) -/

@[simp] theorem length_writeBoth (N c : Nat) (v : Word) (l : List Word) : (writeBoth N c v l).length = l.length := by
  simp [writeBoth]

theorem rd_writeBoth {N c : Nat} {l : List Word} (hc : c < N) (hl : 2 * N ≤ l.length) (v : Word) (k : Nat) :
    rd (writeBoth N c v l) k = if k = c ∨ k = c + N then v else rd l k := by
  unfold writeBoth
  rw [rd_set, rd_set, List.length_set]
  by_cases h1 : k = c
  · subst h1; rw [if_neg (by omega), if_pos (by omega), if_pos (by omega)]
  · by_cases h2 : k = c + N
    · rw [if_pos (by omega), if_pos (by omega)]
    · rw [if_neg (by omega), if_neg (by omega), if_neg (by omega)]

/-- Under the doubled-buffer invariant the three index functions read the same sample (R117, R352). -/
theorem rd_index_of_doubled {l : List Word} {N c k : Nat} (hd : ∀ j, j < N → rd l j = rd l (j + N)) (hc : c < N)
    (hk : k < N) (p : Policy) : rd l (p.index c k N) = rd l ((c + k) % N) := by
  cases p with
  | mod => rfl
  | branch =>
    unfold Policy.index
    by_cases h : N ≤ c + k
    · rw [if_pos h, Nat.mod_eq_sub_mod h, Nat.mod_eq_of_lt (by omega)]
    · rw [if_neg h, Nat.mod_eq_of_lt (by omega)]
  | dbl =>
    change rd l (c + k) = _
    by_cases h : N ≤ c + k
    · rw [Nat.mod_eq_sub_mod h, Nat.mod_eq_of_lt (by omega), hd (c + k - N) (by omega), Nat.sub_add_cancel h]
    · rw [Nat.mod_eq_of_lt (by omega)]

/-! ### Sums (R27, R28) -/

theorem sumF_congr {ν : NaNs} {t u : Nat → F32} {m : Nat} (h : ∀ k, k ≤ m → t k = u k) : sumF ν t m = sumF ν u m := by
  induction m with
  | zero => exact h 0 le_rfl
  | succ m ih => rw [sumF, sumF, ih fun k hk => h k (by omega), h (m + 1) le_rfl]

theorem sumI_eq_sum (t : Nat → Int) (m : Nat) : sumI t m = ((List.range m).map t).sum := by
  induction m with
  | zero => rfl
  | succ m ih => rw [sumI, ih, List.range_succ, List.map_append, List.sum_append]; simp

end Sys2Proof.Machine
end

