-- ==== Sys2Proof/Laws/Bodies.lean ====
section
/-! SUPPORT. What the body of each command can answer: it raises error codes only (R400), and writes as many results as
R135 lists. -/

namespace Sys2Proof.Machine

/-- How many result registers are written. -/
def Results.count : Results → Nat
  | .none    => 0
  | .one _   => 1
  | .two _ _ => 2

/-- A result register at or past the count keeps its value (R57). -/
theorem Results.write_of_count_le (r : Results) (v : Vector Word 4) (j : Fin 4) (h : r.count ≤ j) :
    (r.write v)[j] = v[j] := by
  cases r <;> fin_cases j <;> simp_all [Results.count, Results.write]

/-- What a body answers: an error that is not OK, or `k` results. -/
def Answers {α : Type} (k : Nat) : Except Code (α × Results) → Prop
  | .error c => c ≠ .ok
  | .ok p    => p.2.count = k

theorem Answers.error {α : Type} {k : Nat} {x : Except Code (α × Results)} {c : Code} (h : Answers k x)
    (e : x = .error c) : c ≠ .ok := by rw [e] at h; exact h

theorem Answers.ok {α : Type} {k : Nat} {x : Except Code (α × Results)} {a : α} {r : Results} (h : Answers k x)
    (e : x = .ok (a, r)) : r.count = k := by rw [e] at h; exact h

theorem tapCheck_ne_ok {len k : Nat} {c : Code} (h : tapCheck len k = some c) : c ≠ .ok := by
  unfold tapCheck at h
  split at h
  · cases h; decide
  · split at h <;> cases h; decide

theorem avgProc_answers (s A) : Answers 1 (avgProc s A) := by
  unfold avgProc; dsimp only; split
  · exact nofun
  · rfl

theorem avgClr_answers (s A) : Answers 0 (avgClr s A) := rfl

theorem loFactor_ne_ok {ν : NaNs} {fc fs : F32} {c : Code} (h : loFactor ν fc fs = .error c) : c ≠ .ok := by
  unfold loFactor at h
  split at h
  · cases h; decide
  · split at h
    · cases h; decide
    · dsimp only at h; split at h <;> cases h; decide

theorem lpProc_answers (f k s L) : Answers 1 (lpProc f k s L) := by
  unfold lpProc; dsimp only; split
  · rename_i h; exact loFactor_ne_ok h
  · rfl

theorem hpProc_answers (f k s L) : Answers 1 (hpProc f k s L) := by
  unfold hpProc; dsimp only; split
  · rename_i h; exact loFactor_ne_ok h
  · rfl

theorem loClr_answers (fs s L) : Answers 0 (loClr fs s L) := rfl

theorem giirCfg_answers (s G) : Answers 0 (giirCfg s G) := by
  unfold giirCfg; dsimp only; split
  · exact nofun
  · rfl

theorem giirSetb_answers (s G) : Answers 0 (giirSetb s G) := by
  unfold giirSetb; dsimp only; split
  · rename_i h; exact tapCheck_ne_ok h
  · rfl

theorem giirSeta_answers (s G) : Answers 0 (giirSeta s G) := by
  unfold giirSeta; dsimp only; split
  · rename_i h; exact tapCheck_ne_ok h
  · rfl

theorem giirGetb_answers (s G) : Answers 1 (giirGetb s G) := by
  unfold giirGetb; dsimp only; split
  · rename_i h; exact tapCheck_ne_ok h
  · rfl

theorem giirGeta_answers (s G) : Answers 1 (giirGeta s G) := by
  unfold giirGeta; dsimp only; split
  · rename_i h; exact tapCheck_ne_ok h
  · rfl

theorem giirProc_answers (s G) : Answers 1 (giirProc s G) := by
  unfold giirProc; split
  · exact nofun
  · rfl

theorem giirProc2_answers (s G) : Answers 2 (giirProc2 s G) := by
  unfold giirProc2; split
  · exact nofun
  · rfl

theorem giirClr_answers (s G) : Answers 0 (giirClr s G) := rfl

theorem designCheck_ne_ok {c : Params} {D : Design} {e : Code} (h : designCheck c D = some e) : e ≠ .ok := by
  unfold designCheck at h
  split_ifs at h <;> cases h <;> decide

theorem firDesign_answers (kind w s F) : Answers 0 (firDesign kind w s F) := by
  unfold firDesign; dsimp only; split
  · rename_i h; exact designCheck_ne_ok h
  · split
    · rfl
    · exact nofun

theorem firGetcf_answers (s F) : Answers 1 (firGetcf s F) := by
  unfold firGetcf; dsimp only; split
  · rename_i h; exact tapCheck_ne_ok h
  · rfl

theorem firGetci_answers (s F) : Answers 1 (firGetci s F) := by
  unfold firGetci; dsimp only; split
  · rename_i h; exact tapCheck_ne_ok h
  · rfl

theorem firProcf_answers (p s F) : Answers 1 (firProcf p s F) := by
  unfold firProcf; split
  · exact nofun
  · rfl

theorem firProci_answers (p s F) : Answers 2 (firProci p s F) := by
  unfold firProci; split
  · exact nofun
  · dsimp only; split
    · exact nofun
    · rfl

theorem firProc2_answers (p s F) : Answers 2 (firProc2 p s F) := by
  unfold firProc2; split
  · exact nofun
  · rfl

theorem firSetconv_answers (s F) : Answers 0 (firSetconv s F) := rfl

theorem firClr_answers (s F) : Answers 0 (firClr s F) := rfl

end Sys2Proof.Machine
end

