-- ==== Sys2Proof/Laws/Bus.lean ====
section
/-! SUPPORT. What a host access and a step can do (R101, R104, R105, R108, R414). -/

namespace Sys2Proof.Machine

theorem accessOffset_of_offset (c : Params) {off : Nat} (h : off < 256) (ha : off % 4 = 0) :
    accessOffset c (c.fcBase + off) 4 = .ok off := by
  unfold accessOffset
  rw [if_neg (by omega), if_neg (by omega), Nat.add_sub_cancel_left]

theorem accessOffset_of_bad (c : Params) {off width : Nat} (h : off < 256) (ha : width ≠ 4 ∨ off % 4 ≠ 0) :
    accessOffset c (c.fcBase + off) width = .error .inadmissibleAccess := by
  unfold accessOffset
  rw [if_neg (by omega), if_pos (by omega)]

/-- All `accessOffset` can answer. -/
theorem accessOffset_eq_ok {c : Params} {addr width off : Nat} (h : accessOffset c addr width = .ok off) :
    addr = c.fcBase + off ∧ off < 256 ∧ off % 4 = 0 ∧ width = 4 := by
  unfold accessOffset at h
  split at h
  · cases h
  · split at h
    · cases h
    · cases h; omega

theorem step_nil {s : State} (h : s.bus = []) : step s = .next s := by simp [step, h]

theorem step_cons {s : State} {a : HostAction} {rest : List HostAction} (h : s.bus = a :: rest) :
    step s = serve a { s with bus := rest } := by simp [step, h]

theorem serve_read (s : State) {off : Nat} (h : off < 256) (ha : off % 4 = 0) :
    serve (.read (s.cfg.fcBase + off) 4) s = .next { s with readData := s.readReg (regAt off) } := by
  simp [serve, accessOffset_of_offset _ h ha]

theorem serve_write (s : State) {off : Nat} (h : off < 256) (ha : off % 4 = 0) (v : Word) :
    serve (.write (s.cfg.fcBase + off) 4 v) s = s.writeReg (regAt off) v := by
  simp [serve, accessOffset_of_offset _ h ha]

theorem serve_commandWrite (s : State) (w : Word) : serve (commandWrite s.cfg w) s = runCommand w s :=
  serve_write s (off := 0) (by norm_num) (by norm_num) w

theorem runCommand_of_ok {w : Word} {i : Instr} (h : decode w = .ok i) (s : State) :
    runCommand w s = Result.onNext State.nextDraw (exec i { s with cmd := w }) := by simp [runCommand, h]

theorem runCommand_of_error {w : Word} {e : DecodeError} (h : decode w = .error e) (s : State) :
    runCommand w s = .next (({ s with cmd := w } : State).raise (decodeCode e)).nextDraw := by simp [runCommand, h]

/-- The host's interface reads its own words back: the step of a fetched word runs it. -/
theorem step_withFetchWord (s : State) (nbits w : Nat) :
    step (s.withFetchWord nbits w) = runCommand (BitVec.ofNat 32 (w % 2 ^ nbits)) s := by
  rw [step_cons (rest := s.bus) rfl]
  exact serve_commandWrite s _

end Sys2Proof.Machine
end

