-- ==== Sys2Proof/Laws/Float.lean ====
section
/-! SUPPORT. Laws of binary32 patterns and of the one rounding function: bits and signs, the order of the magnitudes,
what `roundMag` answers, and that rounding a representable value changes nothing. -/

namespace Sys2Proof.Machine

/-! ### Patterns -/

theorem fmag_lt (a : F32) : fmag a < 2 ^ 31 := Nat.mod_lt _ (by norm_num)

@[simp] theorem fmag_fpack (neg : Bool) {m : Nat} (h : m < 2 ^ 31) : fmag (fpack neg m) = m := by
  unfold fmag fpack
  cases neg <;> simp only [BitVec.toNat_ofNat, if_true, if_false, Bool.false_eq_true] <;> omega

@[simp] theorem fsign_fpack (neg : Bool) {m : Nat} (h : m < 2 ^ 31) : fsign (fpack neg m) = neg := by
  unfold fsign fpack
  rw [BitVec.msb_eq_decide]
  cases neg <;> simp only [BitVec.toNat_ofNat, if_true, if_false, Bool.false_eq_true] <;> simp <;> omega

/-- A pattern is its sign and its magnitude bits. -/
theorem fpack_fsign_fmag (a : F32) : fpack (fsign a) (fmag a) = a := by
  apply BitVec.eq_of_toNat_eq
  have ha := a.isLt
  unfold fpack fsign fmag
  rw [BitVec.msb_eq_decide]
  by_cases h : 2 ^ 31 ≤ a.toNat
  · have h' : 2 ^ (32 - 1) ≤ a.toNat := h
    simp only [h', decide_true, if_true, BitVec.toNat_ofNat]; omega
  · have h' : ¬ 2 ^ (32 - 1) ≤ a.toNat := h
    simp only [h', decide_false, BitVec.toNat_ofNat, Bool.false_eq_true, if_false]; omega

theorem eq_of_sign_mag {a b : F32} (hs : fsign a = fsign b) (hm : fmag a = fmag b) : a = b := by
  rw [← fpack_fsign_fmag a, ← fpack_fsign_fmag b, hs, hm]

theorem toNat_eq (a : F32) : a.toNat = (if fsign a then 2 ^ 31 else 0) + fmag a := by
  conv_lhs => rw [← fpack_fsign_fmag a]
  have := fmag_lt a
  unfold fpack
  cases fsign a <;> simp only [BitVec.toNat_ofNat, if_true, if_false, Bool.false_eq_true] <;> omega

theorem fmag_eq_setWidth (a : F32) : fmag a = (a.setWidth 31).toNat := by
  simp [fmag, BitVec.toNat_setWidth]

@[simp] theorem fmag_fneg (a : F32) : fmag (fneg a) = fmag a := by
  have h0 : (0x80000000#32).setWidth 31 = 0#31 := by decide
  rw [fmag_eq_setWidth, fmag_eq_setWidth, fneg, BitVec.setWidth_xor, h0, BitVec.xor_zero]

@[simp] theorem fsign_fneg (a : F32) : fsign (fneg a) = !fsign a := by
  have h0 : (0x80000000#32).msb = true := by decide
  unfold fsign fneg
  rw [BitVec.msb_xor, h0, Bool.xor_true]

@[simp] theorem fneg_fpack (neg : Bool) {m : Nat} (h : m < 2 ^ 31) : fneg (fpack neg m) = fpack (!neg) m :=
  eq_of_sign_mag (by rw [fsign_fneg, fsign_fpack _ h, fsign_fpack _ h]) (by rw [fmag_fneg, fmag_fpack _ h, fmag_fpack _ h])

@[simp] theorem fneg_fneg (a : F32) : fneg (fneg a) = a := eq_of_sign_mag (by simp) (by simp)

@[simp] theorem isNaN_fneg (a : F32) : isNaN (fneg a) = isNaN a := by simp [isNaN]
@[simp] theorem isInf_fneg (a : F32) : isInf (fneg a) = isInf a := by simp [isInf]
@[simp] theorem isFinite_fneg (a : F32) : isFinite (fneg a) = isFinite a := by simp [isFinite]
@[simp] theorem isZero_fneg (a : F32) : isZero (fneg a) = isZero a := by simp [isZero]
@[simp] theorem funits_fneg (a : F32) : funits (fneg a) = funits a := by simp [funits, fexp, ffrac]

@[simp] theorem fint_fneg (a : F32) : fint (fneg a) = -fint a := by
  unfold fint; rw [fsign_fneg, funits_fneg]; cases fsign a <;> simp

theorem isFinite_iff (a : F32) : isFinite a = true ↔ fmag a < infMag := by simp [isFinite]
theorem isNaN_of_isFinite {a : F32} (h : isFinite a = true) : isNaN a = false := by
  rw [isFinite_iff] at h; simp only [isNaN, decide_eq_false_iff_not]; omega
theorem isInf_of_isFinite {a : F32} (h : isFinite a = true) : isInf a = false := by
  rw [isFinite_iff] at h; simp only [isInf, beq_eq_false_iff_ne]; omega

/-! ### The magnitudes in units of 2^-149 -/

/-- The magnitude with bits `m`, in units of 2^-149. -/
def magUnits (m : Nat) : Nat := unitsOf (m / 2 ^ 23) (m % 2 ^ 23)

theorem funits_eq (a : F32) : funits a = magUnits (fmag a) := rfl

theorem magUnits_small {m : Nat} (h : m < 2 ^ 23) : magUnits m = m := by
  unfold magUnits unitsOf
  rw [Nat.div_eq_of_lt h, if_pos rfl, Nat.mod_eq_of_lt h]

/-- `k * 2 ^ 23` plus a significand `r` from 2^23 to 2^24 is the pattern of `r * 2 ^ k` units; below 2^23 with k = 0. -/
theorem magUnits_pattern (k r : Nat) (hr : r ≤ 2 ^ 24) (hk : k = 0 ∨ 2 ^ 23 ≤ r) :
    magUnits (k * 2 ^ 23 + r) = r * 2 ^ k := by
  by_cases h23 : r < 2 ^ 23
  · obtain rfl : k = 0 := by omega
    rw [Nat.zero_mul, Nat.zero_add, magUnits_small h23, pow_zero, Nat.mul_one]
  · by_cases h24 : r < 2 ^ 24
    · have e : k * 2 ^ 23 + r = (k + 1) * 2 ^ 23 + (r - 2 ^ 23) := by omega
      have hlt : r - 2 ^ 23 < 2 ^ 23 := by omega
      have e1 : (k * 2 ^ 23 + r) / 2 ^ 23 = k + 1 := by omega
      have e2 : (k * 2 ^ 23 + r) % 2 ^ 23 = r - 2 ^ 23 := by omega
      unfold magUnits unitsOf
      rw [e1, e2, if_neg (by omega), Nat.add_sub_cancel, show 2 ^ 23 + (r - 2 ^ 23) = r by omega]
    · have hr24 : r = 2 ^ 24 := by omega
      have e1 : (k * 2 ^ 23 + r) / 2 ^ 23 = k + 2 := by omega
      have e2 : (k * 2 ^ 23 + r) % 2 ^ 23 = 0 := by omega
      unfold magUnits unitsOf
      rw [e1, e2, if_neg (by omega), hr24, Nat.add_zero, Nat.add_sub_assoc (by norm_num), pow_add]
      ring

/-- The exponent and the significand of a magnitude. -/
theorem exists_pattern (m : Nat) :
    ∃ k r, m = k * 2 ^ 23 + r ∧ r < 2 ^ 24 ∧ (k = 0 ∨ 2 ^ 23 ≤ r) ∧ magUnits m = r * 2 ^ k := by
  by_cases h : m < 2 ^ 23
  · exact ⟨0, m, by omega, by omega, .inl rfl, by rw [magUnits_small h]; omega⟩
  · refine ⟨m / 2 ^ 23 - 1, m - (m / 2 ^ 23 - 1) * 2 ^ 23, by omega, by omega, .inr (by omega), ?_⟩
    have e : m = (m / 2 ^ 23 - 1) * 2 ^ 23 + (m - (m / 2 ^ 23 - 1) * 2 ^ 23) := by omega
    conv_lhs => rw [e]
    exact magUnits_pattern _ _ (by omega) (.inr (by omega))

theorem magUnits_lt_magUnits {m m' : Nat} (h : m < m') : magUnits m < magUnits m' := by
  obtain ⟨k, r, hm, hr, hk, e⟩ := exists_pattern m
  obtain ⟨k', r', hm', hr', hk', e'⟩ := exists_pattern m'
  rw [e, e']
  rcases Nat.lt_trichotomy k k' with hlt | rfl | hgt
  · have h1 : 2 ^ 23 ≤ r' := by omega
    calc r * 2 ^ k < 2 ^ 24 * 2 ^ k := Nat.mul_lt_mul_of_pos_right hr (by positivity)
      _ = 2 ^ 23 * 2 ^ (k + 1) := by rw [pow_succ]; ring
      _ ≤ 2 ^ 23 * 2 ^ k' := Nat.mul_le_mul_left _ (Nat.pow_le_pow_right (by norm_num) hlt)
      _ ≤ r' * 2 ^ k' := Nat.mul_le_mul_right _ h1
  · exact Nat.mul_lt_mul_of_pos_right (by omega) (by positivity)
  · exfalso
    have : 2 ^ 23 ≤ r := by omega
    omega

theorem magUnits_le_magUnits {m m' : Nat} (h : m ≤ m') : magUnits m ≤ magUnits m' := by
  rcases Nat.eq_or_lt_of_le h with rfl | h
  · exact le_rfl
  · exact (magUnits_lt_magUnits h).le

theorem magUnits_lt_iff {m m' : Nat} : magUnits m < magUnits m' ↔ m < m' :=
  ⟨fun h => by by_contra hn; exact absurd (magUnits_le_magUnits (Nat.le_of_not_lt hn)) (by omega), magUnits_lt_magUnits⟩

theorem magUnits_le_iff {m m' : Nat} : magUnits m ≤ magUnits m' ↔ m ≤ m' := by
  rw [← Nat.not_lt, ← Nat.not_lt, magUnits_lt_iff]

theorem magUnits_injective {m m' : Nat} (h : magUnits m = magUnits m') : m = m' :=
  Nat.le_antisymm (magUnits_le_iff.1 h.le) (magUnits_le_iff.1 h.ge)

@[simp] theorem magUnits_zero : magUnits 0 = 0 := rfl

theorem magUnits_eq_zero {m : Nat} : magUnits m = 0 ↔ m = 0 :=
  ⟨fun h => magUnits_injective (h.trans magUnits_zero.symm), fun h => by rw [h]; rfl⟩

/-! ### Rounding to an integer -/

theorem roundEven_spec (n : Nat) {d : Nat} (hd : 0 < d) :
    2 * n ≤ 2 * (roundEven n d * d) + d ∧ 2 * (roundEven n d * d) ≤ 2 * n + d ∧
    (2 * n = 2 * (roundEven n d * d) + d ∨ 2 * (roundEven n d * d) = 2 * n + d → roundEven n d % 2 = 0) := by
  have e : n = n / d * d + n % d := by rw [Nat.mul_comm]; exact (Nat.div_add_mod n d).symm
  have hr : n % d < d := Nat.mod_lt _ hd
  have e1 : (n / d + 1) * d = n / d * d + d := by ring
  unfold roundEven
  dsimp only
  split
  · omega
  · split
    · rw [e1]; omega
    · rcases Nat.mod_two_eq_zero_or_one (n / d) with h | h <;> rw [h]
      · rw [Nat.add_zero]; omega
      · rw [e1]; omega

/-- The rounding of `n / d` is one of its two integer neighbours. -/
theorem le_roundEven {n d r : Nat} (hd : 0 < d) (h : r * d ≤ n) : r ≤ roundEven n d := by
  obtain ⟨h1, -, h3⟩ := roundEven_spec n hd
  by_contra hlt
  have h4 : (roundEven n d + 1) * d ≤ r * d := Nat.mul_le_mul_right _ (by omega)
  rw [Nat.add_mul, Nat.one_mul] at h4
  omega

theorem roundEven_le {n d r : Nat} (hd : 0 < d) (h : n ≤ r * d) : roundEven n d ≤ r := by
  obtain ⟨-, h2, h3⟩ := roundEven_spec n hd
  by_contra hlt
  have h4 : (r + 1) * d ≤ roundEven n d * d := Nat.mul_le_mul_right _ (by omega)
  rw [Nat.add_mul, Nat.one_mul] at h4
  omega

@[simp] theorem roundEven_mul (r : Nat) {d : Nat} (hd : 0 < d) : roundEven (r * d) d = r :=
  Nat.le_antisymm (roundEven_le hd le_rfl) (le_roundEven hd le_rfl)

theorem roundEven_mono {n d n' d' : Nat} (hd : 0 < d) (hd' : 0 < d') (h : n * d' ≤ n' * d) :
    roundEven n d ≤ roundEven n' d' := by
  by_contra hlt
  obtain ⟨-, h2, h3⟩ := roundEven_spec n hd
  obtain ⟨h1', -, h3'⟩ := roundEven_spec n' hd'
  generalize roundEven n d = r at *
  generalize roundEven n' d' = r' at *
  -- r ≥ r' + 1, so 2n ≥ 2rd - d ≥ (2r' + 1)d and 2n' ≤ (2r' + 1)d'
  have hlow : (2 * r' + 1) * d ≤ 2 * n := by
    have : (r' + 1) * d ≤ r * d := Nat.mul_le_mul_right _ (by omega)
    have e : (r' + 1) * d = r' * d + d := by ring
    have e' : (2 * r' + 1) * d = 2 * (r' * d) + d := by ring
    omega
  have hhigh : 2 * n' ≤ (2 * r' + 1) * d' := by
    have e' : (2 * r' + 1) * d' = 2 * (r' * d') + d' := by ring
    omega
  have hA : (2 * r' + 1) * d * d' ≤ 2 * n * d' := Nat.mul_le_mul_right _ hlow
  have hB : 2 * n' * d ≤ (2 * r' + 1) * d' * d := Nat.mul_le_mul_right _ hhigh
  have hC : 2 * n * d' ≤ 2 * n' * d := by
    have := Nat.mul_le_mul_left 2 h
    calc 2 * n * d' = 2 * (n * d') := by ring
      _ ≤ 2 * (n' * d) := this
      _ = 2 * n' * d := by ring
  have hD : (2 * r' + 1) * d * d' = (2 * r' + 1) * d' * d := by ring
  have hE : 2 * n * d' = (2 * r' + 1) * d * d' := by omega
  have hF : 2 * n' * d = (2 * r' + 1) * d' * d := by omega
  have e1 : 2 * n = (2 * r' + 1) * d := Nat.eq_of_mul_eq_mul_right hd' hE
  have e2 : 2 * n' = (2 * r' + 1) * d' := Nat.eq_of_mul_eq_mul_right hd hF
  have p2 : r' % 2 = 0 := h3' (.inl (by rw [e2]; ring))
  have hr : r = r' + 1 := by
    by_contra hne
    have : (r' + 2) * d ≤ r * d := Nat.mul_le_mul_right _ (by omega)
    have e : (r' + 2) * d = r' * d + 2 * d := by ring
    have e' : (2 * r' + 1) * d = 2 * (r' * d) + d := by ring
    omega
  have p1 : r % 2 = 0 := h3 (.inr (by rw [e1, hr]; ring))
  omega

/-! ### Rounding to a pattern -/

/-- The exponent of the grid `roundMag` rounds to. -/
def roundExp (n d : Nat) : Nat := (n / d).log2 - 23

theorem roundMag_eq (n d : Nat) :
    roundMag n d = min (roundExp n d * 2 ^ 23 + roundEven n (d * 2 ^ roundExp n d)) infMag := rfl

/-- Where the rounded value stands on its grid: below 2^24 grid steps, and from 2^23 on unless the grid is the
finest. -/
theorem roundExp_spec (n : Nat) {d : Nat} (hd : 0 < d) :
    n < 2 ^ 24 * (d * 2 ^ roundExp n d) ∧ (roundExp n d = 0 ∨ 2 ^ 23 * (d * 2 ^ roundExp n d) ≤ n) := by
  have hlt : n < (n / d + 1) * d := by
    rw [Nat.add_mul, Nat.one_mul, Nat.mul_comm]; exact Nat.lt_mul_div_succ n hd |>.trans_eq (by ring)
  have hle : n / d * d ≤ n := Nat.div_mul_le_self n d
  have hlog : n / d < 2 ^ ((n / d).log2 + 1) := Nat.lt_log2_self
  unfold roundExp
  by_cases h : (n / d).log2 ≤ 23
  · refine ⟨?_, .inl (by omega)⟩
    rw [Nat.sub_eq_zero_of_le h, pow_zero, Nat.mul_one]
    have : n / d + 1 ≤ 2 ^ 24 := lt_of_lt_of_le hlog (Nat.pow_le_pow_right (by norm_num) (by omega))
    exact lt_of_lt_of_le hlt (Nat.mul_le_mul_right _ this)
  · have hne : n / d ≠ 0 := by rintro h0; rw [h0] at h; simp at h
    have hself : 2 ^ (n / d).log2 ≤ n / d := Nat.log2_self_le hne
    obtain ⟨j, hj⟩ : ∃ j, (n / d).log2 = 23 + j := ⟨(n / d).log2 - 23, by omega⟩
    rw [hj] at hlog hself ⊢
    rw [Nat.add_sub_cancel_left]
    constructor
    · calc n < (n / d + 1) * d := hlt
        _ ≤ 2 ^ (23 + j + 1) * d := Nat.mul_le_mul_right _ hlog
        _ = 2 ^ 24 * (d * 2 ^ j) := by rw [show 23 + j + 1 = 24 + j by omega, pow_add]; ring
    · right
      calc 2 ^ 23 * (d * 2 ^ j) = 2 ^ (23 + j) * d := by rw [pow_add]; ring
        _ ≤ n / d * d := Nat.mul_le_mul_right _ hself
        _ ≤ n := hle

theorem roundExp_unique {n d k : Nat} (hd : 0 < d) (hlt : n < 2 ^ 24 * (d * 2 ^ k))
    (hge : k = 0 ∨ 2 ^ 23 * (d * 2 ^ k) ≤ n) : roundExp n d = k := by
  obtain ⟨h1, h2⟩ := roundExp_spec n hd
  have key : ∀ {a b : Nat}, n < 2 ^ 24 * (d * 2 ^ a) → (b = 0 ∨ 2 ^ 23 * (d * 2 ^ b) ≤ n) → b ≤ a := by
    intro a b ha hb
    by_contra hn
    rcases hb with rfl | hb
    · omega
    · have : 2 ^ 24 * (d * 2 ^ a) ≤ 2 ^ 23 * (d * 2 ^ b) := by
        calc 2 ^ 24 * (d * 2 ^ a) = 2 ^ 23 * (d * 2 ^ (a + 1)) := by rw [pow_succ]; ring
          _ ≤ 2 ^ 23 * (d * 2 ^ b) :=
            Nat.mul_le_mul_left _ (Nat.mul_le_mul_left _ (Nat.pow_le_pow_right (by norm_num) (by omega)))
      omega
  exact Nat.le_antisymm (key hlt h2) (key h1 hge)

/-- The significand `roundMag` answers before overflow, in grid steps. -/
def roundSig (n d : Nat) : Nat := roundEven n (d * 2 ^ roundExp n d)

theorem roundSig_le (n : Nat) {d : Nat} (hd : 0 < d) : roundSig n d ≤ 2 ^ 24 :=
  roundEven_le (by positivity) (roundExp_spec n hd).1.le

theorem roundSig_ge (n : Nat) {d : Nat} (hd : 0 < d) : roundExp n d = 0 ∨ 2 ^ 23 ≤ roundSig n d :=
  (roundExp_spec n hd).2.imp_right (le_roundEven (by positivity))

/-- The pattern before overflow. -/
def roundPat (n d : Nat) : Nat := roundExp n d * 2 ^ 23 + roundSig n d

theorem roundMag_eq_min (n d : Nat) : roundMag n d = min (roundPat n d) infMag := rfl

theorem magUnits_roundPat (n : Nat) {d : Nat} (hd : 0 < d) :
    magUnits (roundPat n d) = roundSig n d * 2 ^ roundExp n d :=
  magUnits_pattern _ _ (roundSig_le n hd) (roundSig_ge n hd)

theorem roundMag_le_infMag (n d : Nat) : roundMag n d ≤ infMag := min_le_right _ _

theorem roundMag_lt (n d : Nat) : roundMag n d < 2 ^ 31 :=
  lt_of_le_of_lt (roundMag_le_infMag n d) (by unfold infMag; norm_num)

/-- Rounding a representable magnitude answers it. -/
theorem roundPat_magUnits (m : Nat) {d : Nat} (hd : 0 < d) : roundPat (magUnits m * d) d = m := by
  obtain ⟨k, r, hm, hr, hk, e⟩ := exists_pattern m
  have hexp : roundExp (magUnits m * d) d = k := by
    refine roundExp_unique hd ?_ (hk.imp_right fun h => ?_)
    · rw [e]
      calc r * 2 ^ k * d < 2 ^ 24 * 2 ^ k * d :=
            Nat.mul_lt_mul_of_pos_right (Nat.mul_lt_mul_of_pos_right hr (by positivity)) hd
        _ = 2 ^ 24 * (d * 2 ^ k) := by ring
    · rw [e]
      calc 2 ^ 23 * (d * 2 ^ k) = 2 ^ 23 * 2 ^ k * d := by ring
        _ ≤ r * 2 ^ k * d := Nat.mul_le_mul_right _ (Nat.mul_le_mul_right _ h)
  unfold roundPat roundSig
  rw [hexp, e, show r * 2 ^ k * d = r * (d * 2 ^ k) by ring, roundEven_mul _ (by positivity)]
  omega

theorem roundMag_magUnits {m d : Nat} (hd : 0 < d) (hm : m ≤ infMag) : roundMag (magUnits m * d) d = m := by
  rw [roundMag_eq_min, roundPat_magUnits m hd, min_eq_left hm]

/-- Rounding is monotone. -/
theorem roundPat_mono {n d n' d' : Nat} (hd : 0 < d) (hd' : 0 < d') (h : n * d' ≤ n' * d) :
    roundPat n d ≤ roundPat n' d' := by
  obtain ⟨a1, a2⟩ := roundExp_spec n hd
  obtain ⟨b1, b2⟩ := roundExp_spec n' hd'
  have s1 := roundSig_le n hd
  have s2 := roundSig_ge n' hd'
  rcases Nat.lt_trichotomy (roundExp n d) (roundExp n' d') with hlt | heq | hgt
  · have : 2 ^ 23 ≤ roundSig n' d' := by omega
    unfold roundPat
    have : (roundExp n d + 1) * 2 ^ 23 ≤ roundExp n' d' * 2 ^ 23 := Nat.mul_le_mul_right _ hlt
    omega
  · have : roundSig n d ≤ roundSig n' d' := by
      unfold roundSig
      rw [heq]
      refine roundEven_mono (by positivity) (by positivity) ?_
      calc n * (d' * 2 ^ roundExp n' d') = n * d' * 2 ^ roundExp n' d' := by ring
        _ ≤ n' * d * 2 ^ roundExp n' d' := Nat.mul_le_mul_right _ h
        _ = n' * (d * 2 ^ roundExp n' d') := by ring
    unfold roundPat
    rw [heq]; omega
  · exfalso
    rcases a2 with a2 | a2
    · omega
    · have h1 : n' * d < 2 ^ 24 * (d' * 2 ^ roundExp n' d') * d := Nat.mul_lt_mul_of_pos_right b1 hd
      have h2 : 2 ^ 23 * (d * 2 ^ roundExp n d) * d' ≤ n * d' := Nat.mul_le_mul_right _ a2
      have h3 : 2 ^ 24 * (d' * 2 ^ roundExp n' d') * d ≤ 2 ^ 23 * (d * 2 ^ roundExp n d) * d' := by
        calc 2 ^ 24 * (d' * 2 ^ roundExp n' d') * d = 2 ^ 23 * (2 ^ (roundExp n' d' + 1)) * (d * d') := by
              rw [pow_succ]; ring
          _ ≤ 2 ^ 23 * 2 ^ roundExp n d * (d * d') :=
            Nat.mul_le_mul_right _ (Nat.mul_le_mul_left _ (Nat.pow_le_pow_right (by norm_num) hgt))
          _ = 2 ^ 23 * (d * 2 ^ roundExp n d) * d' := by ring
      omega

theorem roundMag_mono {n d n' d' : Nat} (hd : 0 < d) (hd' : 0 < d') (h : n * d' ≤ n' * d) :
    roundMag n d ≤ roundMag n' d' :=
  min_le_min_right _ (roundPat_mono hd hd' h)

/-- A magnitude not above the exact value is not above the rounded one. -/
theorem le_roundPat {m n d : Nat} (hd : 0 < d) (h : magUnits m * d ≤ n) : m ≤ roundPat n d := by
  calc m = roundPat (magUnits m * d) d := (roundPat_magUnits m hd).symm
    _ ≤ roundPat n d := roundPat_mono hd hd (Nat.mul_le_mul_right _ h)

theorem roundPat_le {m n d : Nat} (hd : 0 < d) (h : n ≤ magUnits m * d) : roundPat n d ≤ m := by
  calc roundPat n d ≤ roundPat (magUnits m * d) d := roundPat_mono hd hd (Nat.mul_le_mul_right _ h)
    _ = m := roundPat_magUnits m hd

theorem le_roundMag {m n d : Nat} (hd : 0 < d) (hm : m ≤ infMag) (h : magUnits m * d ≤ n) : m ≤ roundMag n d :=
  le_min (le_roundPat hd h) hm

theorem roundMag_le {m n d : Nat} (hd : 0 < d) (h : n ≤ magUnits m * d) : roundMag n d ≤ m :=
  (min_le_left _ _).trans (roundPat_le hd h)

@[simp] theorem roundMag_zero {d : Nat} (hd : 0 < d) : roundMag 0 d = 0 := by
  have := roundMag_magUnits (m := 0) hd (Nat.zero_le _)
  simpa using this

/-! ### Representable values -/

/-- A significand up to 2^24 times a power of two is the magnitude of a finite pattern. -/
theorem exists_magUnits {r j : Nat} (hr : r ≤ 2 ^ 24) (hj : j ≤ 252) : ∃ m, m < infMag ∧ magUnits m = r * 2 ^ j := by
  induction j generalizing r with
  | zero =>
    exact ⟨r, by unfold infMag; omega, by simpa using magUnits_pattern 0 r hr (.inl rfl)⟩
  | succ j ih =>
    by_cases h : r < 2 ^ 23
    · obtain ⟨m, h1, h2⟩ := ih (r := 2 * r) (by omega) (by omega)
      exact ⟨m, h1, by rw [h2, pow_succ]; ring⟩
    · exact ⟨(j + 1) * 2 ^ 23 + r, by unfold infMag; omega, magUnits_pattern _ _ hr (.inr (by omega))⟩

/-- The rounding of an integer up to 2^24 is exact. -/
theorem magUnits_roundMag_nat {n : Nat} (hn : n ≤ 2 ^ 24) : magUnits (roundMag (n * 2 ^ 149) 1) = n * 2 ^ 149 := by
  obtain ⟨m, h1, h2⟩ := exists_magUnits (j := 149) hn (by norm_num)
  rw [← h2]
  have := roundMag_magUnits (d := 1) (by norm_num) h1.le
  rw [Nat.mul_one] at this
  rw [this]

theorem roundMag_nat_lt {n : Nat} (hn : n ≤ 2 ^ 24) : roundMag (n * 2 ^ 149) 1 < infMag := by
  obtain ⟨m, h1, h2⟩ := exists_magUnits (j := 149) hn (by norm_num)
  rw [← h2]
  have := roundMag_magUnits (d := 1) (by norm_num) h1.le
  rw [Nat.mul_one] at this
  rw [this]; exact h1

/-! ### Nearest, ties to even (R22) -/

/-- The next pattern up is a whole grid step away, or more. -/
theorem magUnits_succ_ge (n : Nat) {d : Nat} (hd : 0 < d) :
    (roundSig n d + 1) * 2 ^ roundExp n d ≤ magUnits (roundPat n d + 1) := by
  have h1 := roundSig_le n hd
  have h2 := roundSig_ge n hd
  unfold roundPat
  generalize roundSig n d = r at *
  generalize roundExp n d = k at *
  by_cases h : r + 1 ≤ 2 ^ 24
  · rw [Nat.add_assoc, magUnits_pattern k (r + 1) h (by omega)]
  · have hr : r = 2 ^ 24 := by omega
    have e : k * 2 ^ 23 + r + 1 = (k + 1) * 2 ^ 23 + (2 ^ 23 + 1) := by omega
    rw [e, magUnits_pattern (k + 1) (2 ^ 23 + 1) (by norm_num) (.inr (by norm_num)), pow_succ, hr]
    calc (2 ^ 24 + 1) * 2 ^ k ≤ (2 ^ 24 + 2) * 2 ^ k := Nat.mul_le_mul_right _ (by norm_num)
      _ = (2 ^ 23 + 1) * (2 ^ k * 2) := by ring

/-- The next pattern down is a whole grid step away, or the exact value is not below the rounded one. -/
theorem magUnits_pred_le (n : Nat) {d : Nat} (hd : 0 < d) (hp : 0 < roundPat n d) :
    magUnits (roundPat n d - 1) + 2 ^ roundExp n d ≤ roundSig n d * 2 ^ roundExp n d ∨
    roundSig n d * (d * 2 ^ roundExp n d) ≤ n := by
  have h1 := roundSig_le n hd
  have h2 := roundSig_ge n hd
  have h3 := (roundExp_spec n hd).2
  unfold roundPat at *
  generalize roundSig n d = r at *
  generalize roundExp n d = k at *
  by_cases h : k = 0 ∨ 2 ^ 23 < r
  · left
    obtain ⟨q, rfl⟩ : ∃ q, r = q + 1 := ⟨r - 1, by omega⟩
    rw [show k * 2 ^ 23 + (q + 1) - 1 = k * 2 ^ 23 + q by omega, magUnits_pattern k q (by omega) (by omega),
      Nat.add_mul, Nat.one_mul]
  · right
    have hr : r = 2 ^ 23 := by omega
    rw [hr]
    exact h3.resolve_left (by omega)

/-- No magnitude is nearer to the exact value than the rounded one, and one that is as near makes its last bit 0. -/
theorem roundPat_nearest (n : Nat) {d : Nat} (hd : 0 < d) (m : Nat) :
    |(magUnits (roundPat n d) * d : Int) - n| ≤ |(magUnits m * d : Int) - n| ∧
    (|(magUnits m * d : Int) - n| = |(magUnits (roundPat n d) * d : Int) - n| → m ≠ roundPat n d →
      roundPat n d % 2 = 0) := by
  have hpos : 0 < d * 2 ^ roundExp n d := by positivity
  obtain ⟨r1, r2, r3⟩ := roundEven_spec n hpos
  have hU : magUnits (roundPat n d) * d = roundSig n d * (d * 2 ^ roundExp n d) := by
    rw [magUnits_roundPat n hd]; ring
  have hpar : roundPat n d % 2 = roundSig n d % 2 := by unfold roundPat; omega
  rw [show roundEven n (d * 2 ^ roundExp n d) = roundSig n d from rfl, ← hU] at r1 r2 r3
  rw [← hpar] at r3
  have ex : (magUnits m * d : Int) = (magUnits m * d : Nat) := by push_cast; rfl
  have ey : (magUnits (roundPat n d) * d : Int) = (magUnits (roundPat n d) * d : Nat) := by push_cast; rfl
  have ax := abs_cases ((magUnits m * d : Nat) - n : Int)
  have ay := abs_cases ((magUnits (roundPat n d) * d : Nat) - n : Int)
  rw [ex, ey]
  rcases Nat.lt_trichotomy m (roundPat n d) with hlt | heq | hgt
  · have hm : magUnits m ≤ magUnits (roundPat n d - 1) := magUnits_le_magUnits (by omega)
    have hmd : magUnits m * d < magUnits (roundPat n d) * d := Nat.mul_lt_mul_of_pos_right (magUnits_lt_magUnits hlt) hd
    rcases magUnits_pred_le n hd (by omega) with h | h
    · have h' : (magUnits m + 2 ^ roundExp n d) * d ≤ roundSig n d * 2 ^ roundExp n d * d :=
        Nat.mul_le_mul_right _ (by omega)
      rw [show (magUnits m + 2 ^ roundExp n d) * d = magUnits m * d + d * 2 ^ roundExp n d by ring,
        show roundSig n d * 2 ^ roundExp n d * d = roundSig n d * (d * 2 ^ roundExp n d) by ring, ← hU] at h'
      generalize d * 2 ^ roundExp n d = D at *
      generalize magUnits m * d = x at *
      generalize magUnits (roundPat n d) * d = y at *
      omega
    · rw [← hU] at h
      generalize magUnits m * d = x at *
      generalize magUnits (roundPat n d) * d = y at *
      omega
  · subst heq; exact ⟨le_rfl, fun _ h => absurd rfl h⟩
  · have hm : magUnits (roundPat n d + 1) ≤ magUnits m := magUnits_le_magUnits hgt
    have h := magUnits_succ_ge n hd
    have h' : (roundSig n d + 1) * 2 ^ roundExp n d * d ≤ magUnits m * d := Nat.mul_le_mul_right _ (by omega)
    rw [show (roundSig n d + 1) * 2 ^ roundExp n d * d =
        roundSig n d * (d * 2 ^ roundExp n d) + d * 2 ^ roundExp n d by ring, ← hU] at h'
    generalize d * 2 ^ roundExp n d = D at *
    generalize magUnits m * d = x at *
    generalize magUnits (roundPat n d) * d = y at *
    omega

theorem magUnits_infMag : magUnits infMag = 2 ^ 25 * 2 ^ 252 := by
  have h := magUnits_pattern 254 (2 ^ 23) (by norm_num) (.inr (by norm_num))
  rw [show 254 * 2 ^ 23 + 2 ^ 23 = infMag by unfold infMag; norm_num] at h
  rw [h, ← pow_add, ← pow_add]

theorem magUnits_maxFinite : magUnits (infMag - 1) = (2 ^ 25 - 2) * 2 ^ 252 := by
  have h := magUnits_pattern 253 (2 ^ 24 - 1) (by norm_num) (.inr (by norm_num))
  rw [show 253 * 2 ^ 23 + (2 ^ 24 - 1) = infMag - 1 by unfold infMag; norm_num] at h
  rw [h, show (253 : Nat) = 252 + 1 from rfl, pow_succ (2 : Nat) 252]
  ring_nf

/-- Overflow (R22): the rounded magnitude is infinite from the largest finite magnitude plus half a grid step on. -/
theorem infMag_le_roundPat_iff (n : Nat) {d : Nat} (hd : 0 < d) :
    infMag ≤ roundPat n d ↔ (2 ^ 25 - 1) * (2 ^ 252 * d) ≤ n := by
  have hpos : 0 < 2 ^ 252 * d := by positivity
  have uI : magUnits infMag * d = 2 ^ 25 * (2 ^ 252 * d) := by rw [magUnits_infMag, Nat.mul_assoc]
  have uM : magUnits (infMag - 1) * d = (2 ^ 25 - 2) * (2 ^ 252 * d) := by rw [magUnits_maxFinite, Nat.mul_assoc]
  generalize 2 ^ 252 * d = A at *
  constructor
  · intro h
    by_contra hn
    have heq : roundPat n d = infMag := le_antisymm (roundPat_le hd (by omega)) h
    have h1 := (roundPat_nearest n hd (infMag - 1)).1
    rw [heq] at h1
    have ex : (magUnits infMag * d : Int) = (magUnits infMag * d : Nat) := by push_cast; rfl
    have ey : (magUnits (infMag - 1) * d : Int) = (magUnits (infMag - 1) * d : Nat) := by push_cast; rfl
    rw [ex, ey, uI, uM] at h1
    have ax := abs_cases ((2 ^ 25 * A : Nat) - n : Int)
    have ay := abs_cases (((2 ^ 25 - 2) * A : Nat) - n : Int)
    omega
  · intro h
    by_contra hn
    have hR : magUnits (roundPat n d) * d ≤ magUnits (infMag - 1) * d :=
      Nat.mul_le_mul_right _ (magUnits_le_magUnits (by omega))
    obtain ⟨h1, h2⟩ := roundPat_nearest n hd infMag
    have ex : (magUnits infMag * d : Int) = (magUnits infMag * d : Nat) := by push_cast; rfl
    have ey : (magUnits (roundPat n d) * d : Int) = (magUnits (roundPat n d) * d : Nat) := by push_cast; rfl
    have ax := abs_cases ((2 ^ 25 * A : Nat) - n : Int)
    have ay := abs_cases ((magUnits (roundPat n d) * d : Nat) - n : Int)
    rw [ex, ey, uI] at h1 h2
    have h3 := h2 (by omega) (by omega)
    have h4 : magUnits (roundPat n d) * d ≠ (2 ^ 25 - 2) * A := by
      intro h
      have h5 : roundPat n d = infMag - 1 :=
        magUnits_injective (Nat.eq_of_mul_eq_mul_right hd (h.trans uM.symm))
      rw [h5] at h3
      exact absurd h3 (by unfold infMag; norm_num)
    omega

/-! ### The operations on finite operands (R21) -/

section Finite

variable {nan a b : F32}

theorem fadd_finite (ha : isFinite a = true) (hb : isFinite b = true) :
    fadd nan a b = if fint a + fint b = 0 then fpack (fsign a && fsign b) 0
      else fpack (decide (fint a + fint b < 0)) (roundMag (fint a + fint b).natAbs 1) := by
  simp [fadd, isNaN_of_isFinite ha, isNaN_of_isFinite hb, isInf_of_isFinite ha, isInf_of_isFinite hb]

theorem fmul_finite (ha : isFinite a = true) (hb : isFinite b = true) :
    fmul nan a b = fpack (fsign a != fsign b) (roundMag (funits a * funits b) (2 ^ 149)) := by
  simp [fmul, isNaN_of_isFinite ha, isNaN_of_isFinite hb, isInf_of_isFinite ha, isInf_of_isFinite hb]

theorem isZero_iff (b : F32) : isZero b = true ↔ funits b = 0 := by
  rw [funits_eq, magUnits_eq_zero, isZero, beq_iff_eq]

theorem fdiv_finite (ha : isFinite a = true) (hb : isFinite b = true) (h : 0 < funits b) :
    fdiv nan a b = fpack (fsign a != fsign b) (roundMag (funits a * 2 ^ 149) (funits b)) := by
  have : isZero b = false := by rw [← Bool.not_eq_true, isZero_iff]; omega
  simp [fdiv, isNaN_of_isFinite ha, isNaN_of_isFinite hb, isInf_of_isFinite ha, isInf_of_isFinite hb, this]

end Finite

/-- The three kinds of patterns. -/
theorem kinds (a : F32) : isNaN a = true ∨ isInf a = true ∨ isFinite a = true := by
  simp only [isNaN, isInf, isFinite, decide_eq_true_eq, beq_iff_eq]; omega

theorem fmag_fONE : fmag fONE = 127 * 2 ^ 23 := by decide

theorem funits_fONE : funits fONE = 2 ^ 149 := by
  rw [funits_eq, fmag_fONE]
  have h := magUnits_pattern 126 (2 ^ 23) (by norm_num) (.inr (by norm_num))
  rw [show 126 * 2 ^ 23 + 2 ^ 23 = 127 * 2 ^ 23 by norm_num] at h
  rw [h, ← pow_add]

theorem isFinite_fONE : isFinite fONE = true := by decide

/-- Multiplying by 1.0 changes no value but a NaN. -/
theorem fmul_one (nan : F32) {x : F32} (hx : isNaN x = false) : fmul nan x fONE = x := by
  have h1 : isNaN fONE = false := by decide
  have h2 : isInf fONE = false := by decide
  have h3 : isZero fONE = false := by decide
  have h4 : fsign fONE = false := by decide
  rcases kinds x with h | h | h
  · rw [h] at hx; cases hx
  · have hm : fmag x = infMag := by simpa [isInf] using h
    have hz : isZero x = false := by rw [isZero, hm]; decide
    simp only [fmul, hx, h1, h, h2, h3, hz, h4, Bool.or_false, Bool.false_eq_true, if_false, if_true, Bool.bne_false]
    rw [← hm, fpack_fsign_fmag]
  · rw [fmul_finite h isFinite_fONE, funits_fONE, h4, Bool.bne_false, funits_eq,
      roundMag_magUnits (by positivity) ((isFinite_iff x).1 h).le, fpack_fsign_fmag]

theorem fmul_comm (nan a b : F32) : fmul nan a b = fmul nan b a := by
  unfold fmul
  rw [Bool.or_comm (isNaN b), Bool.or_comm (isInf b), Bool.or_comm (isZero b), Nat.mul_comm (funits b), bne_comm]

/-! ### The NaN of an operation matters only where the result is a NaN (R24) -/

theorem isNaN_fpack (neg : Bool) {m : Nat} (h : m ≤ infMag) : isNaN (fpack neg m) = false := by
  have h31 : m < 2 ^ 31 := lt_of_le_of_lt h (by unfold infMag; norm_num)
  rw [isNaN, fmag_fpack _ h31]; simpa using h

theorem fadd_nan (nan nan' a b : F32) : fadd nan a b = fadd nan' a b ∨ (fadd nan a b = nan ∧ fadd nan' a b = nan') := by
  unfold fadd; split_ifs <;> simp

theorem fsub_nan (nan nan' a b : F32) : fsub nan a b = fsub nan' a b ∨ (fsub nan a b = nan ∧ fsub nan' a b = nan') :=
  fadd_nan _ _ _ _

theorem fmul_nan (nan nan' a b : F32) : fmul nan a b = fmul nan' a b ∨ (fmul nan a b = nan ∧ fmul nan' a b = nan') := by
  unfold fmul; split_ifs <;> simp

theorem fdiv_nan (nan nan' a b : F32) : fdiv nan a b = fdiv nan' a b ∨ (fdiv nan a b = nan ∧ fdiv nan' a b = nan') := by
  unfold fdiv; split_ifs <;> simp

/-- Equal, or both a NaN: what is left of two computations that differ in the NaNs they draw. -/
def NaNEq (x y : F32) : Prop := x = y ∨ (isNaN x = true ∧ isNaN y = true)

theorem NaNEq.refl (x : F32) : NaNEq x x := .inl rfl

theorem NaNEq.eq {x y : F32} (h : NaNEq x y) (hx : isNaN x = false) : x = y :=
  h.resolve_right fun hn => by rw [hx] at hn; cases hn.1

theorem NaNEq.isFinite_eq {x y : F32} (h : NaNEq x y) : isFinite x = isFinite y := by
  rcases h with rfl | ⟨hx, hy⟩
  · rfl
  · have key : ∀ z : F32, isNaN z = true → isFinite z = false := fun z hz => by
      cases hf : isFinite z
      · rfl
      · rw [isNaN_of_isFinite hf] at hz; cases hz
    rw [key x hx, key y hy]

theorem NaNEq.fneg {x y : F32} (h : NaNEq x y) : NaNEq (fneg x) (fneg y) :=
  h.imp (congrArg _) fun hn => by simpa using hn

section Congruence

variable {nan nan' a a' b b' : F32} (hn : isNaN nan = true) (hn' : isNaN nan' = true) (ha : NaNEq a a')
  (hb : NaNEq b b')

include hn hn' ha hb

/-- An operation respects `NaNEq` when a NaN operand gives the drawn NaN and the drawn NaN matters only where it is
the result. -/
theorem nanEq_of (op : F32 → F32 → F32 → F32)
    (hl : ∀ n x y, isNaN x = true → op n x y = n) (hr : ∀ n x y, isNaN y = true → op n x y = n)
    (he : ∀ n n' x y, op n x y = op n' x y ∨ (op n x y = n ∧ op n' x y = n')) :
    NaNEq (op nan a b) (op nan' a' b') := by
  rcases ha with rfl | ⟨h, h'⟩
  · rcases hb with rfl | ⟨h, h'⟩
    · exact (he nan nan' a b).imp id fun e => by rw [e.1, e.2]; exact ⟨hn, hn'⟩
    · rw [hr _ _ _ h, hr _ _ _ h']; exact .inr ⟨hn, hn'⟩
  · rw [hl _ _ _ h, hl _ _ _ h']; exact .inr ⟨hn, hn'⟩

theorem fadd_nanEq : NaNEq (fadd nan a b) (fadd nan' a' b') :=
  nanEq_of hn hn' ha hb fadd (fun _ _ _ h => by simp [fadd, h]) (fun _ _ _ h => by simp [fadd, h]) fadd_nan

theorem fsub_nanEq : NaNEq (fsub nan a b) (fsub nan' a' b') := fadd_nanEq hn hn' ha hb.fneg

theorem fmul_nanEq : NaNEq (fmul nan a b) (fmul nan' a' b') :=
  nanEq_of hn hn' ha hb fmul (fun _ _ _ h => by simp [fmul, h]) (fun _ _ _ h => by simp [fmul, h]) fmul_nan

theorem fdiv_nanEq : NaNEq (fdiv nan a b) (fdiv nan' a' b') :=
  nanEq_of hn hn' ha hb fdiv (fun _ _ _ h => by simp [fdiv, h]) (fun _ _ _ h => by simp [fdiv, h]) fdiv_nan

end Congruence

/-! ### Results that are no NaN -/

theorem isNaN_fmul_finite {nan a b : F32} (ha : isFinite a = true) (hb : isFinite b = true) :
    isNaN (fmul nan a b) = false := by rw [fmul_finite ha hb]; exact isNaN_fpack _ (roundMag_le_infMag _ _)

/-- A number times a finite number other than zero is a number. -/
theorem isNaN_fmul_nonzero {nan a b : F32} (ha : isNaN a = false) (hb : isFinite b = true) (h0 : isZero b = false) :
    isNaN (fmul nan a b) = false := by
  simp only [fmul, ha, isNaN_of_isFinite hb, isInf_of_isFinite hb, h0, Bool.or_false, Bool.false_eq_true, if_false]
  cases hi : isInf a
  · simpa using isNaN_fpack _ (roundMag_le_infMag _ _)
  · cases hz : isZero a
    · simpa using isNaN_fpack _ le_rfl
    · simp only [isZero, isInf, beq_iff_eq] at hz hi
      rw [hz] at hi; exact absurd hi (by unfold infMag; norm_num)

/-- A number divided by a finite number other than zero is a number. -/
theorem isNaN_fdiv_nonzero {nan a b : F32} (ha : isNaN a = false) (hb : isFinite b = true) (h0 : isZero b = false) :
    isNaN (fdiv nan a b) = false := by
  simp only [fdiv, ha, isNaN_of_isFinite hb, isInf_of_isFinite hb, h0, Bool.or_false, Bool.false_eq_true, if_false]
  cases isInf a
  · simpa using isNaN_fpack _ (roundMag_le_infMag _ _)
  · simpa using isNaN_fpack _ le_rfl

/-- An integer of at most 32 bits converts to a finite value. -/
theorem isFinite_i2f {n : Int} (h : n.natAbs ≤ 2 ^ 32) : isFinite (i2f n) = true := by
  have h1 : roundMag (n.natAbs * 2 ^ 149) 1 ≤ 159 * 2 ^ 23 := by
    apply roundMag_le one_pos
    have e := magUnits_pattern 158 (2 ^ 23) (by norm_num) (.inr (by norm_num))
    rw [show 158 * 2 ^ 23 + 2 ^ 23 = 159 * 2 ^ 23 by norm_num] at e
    rw [e, ← pow_add, Nat.mul_one]
    calc n.natAbs * 2 ^ 149 ≤ 2 ^ 32 * 2 ^ 149 := Nat.mul_le_mul_right _ h
      _ = 2 ^ (23 + 158) := by rw [← pow_add]
  rw [isFinite_iff, i2f, fmag_fpack _ (roundMag_lt _ _)]
  exact lt_of_le_of_lt h1 (by unfold infMag; norm_num)

/-- An integer other than 0 does not convert to a zero. -/
theorem isZero_i2f {n : Int} (h : n ≠ 0) : isZero (i2f n) = false := by
  have h1 : 1 ≤ roundMag (n.natAbs * 2 ^ 149) 1 := by
    apply le_roundMag one_pos (by unfold infMag; norm_num)
    rw [magUnits_small (by norm_num)]
    exact Nat.mul_pos (by omega) (by positivity)
  rw [isZero, i2f, fmag_fpack _ (roundMag_lt _ _), beq_eq_false_iff_ne]
  omega

/-! ### NaN results (R24, log 3) -/

theorem toNat_append_eq {n m : Nat} (x : BitVec n) (y : BitVec m) : (x ++ y).toNat = x.toNat * 2 ^ m + y.toNat := by
  rw [BitVec.toNat_append, Nat.shiftLeft_eq, Nat.mul_comm, ← Nat.two_pow_add_eq_or_of_lt y.isLt]

/-- The magnitude of a drawn NaN: exponent all ones, quiet bit set, then the payload. -/
theorem fmag_quietNaN (d : BitVec 23) :
    fmag (quietNaN d) = infMag + 2 ^ 22 + (d.extractLsb' 0 22).toNat := by
  have h := (d.extractLsb' 0 22).isLt
  unfold fmag quietNaN
  rw [toNat_append_eq, toNat_append_eq, toNat_append_eq]
  simp only [BitVec.toNat_ofNat, infMag]
  omega

/-- No drawn NaN is anything but a NaN. -/
@[simp] theorem isNaN_quietNaN (d : BitVec 23) : isNaN (quietNaN d) = true := by
  simp only [isNaN, decide_eq_true_eq, fmag_quietNaN]; omega

end Sys2Proof.Machine
end

