-- ==== Sys2Proof/Laws/Invariants.lean ====
section
/-! SUPPORT. The reset value of every instance is well formed, and the body of every command keeps its instance well
formed. -/

namespace Sys2Proof.Machine

theorem rd_replicate_zero (cap k : Nat) : rd (List.replicate cap 0) k = 0 := rd_zeros cap k

theorem rdInt_replicate_zero (cap k : Nat) : rdInt (List.replicate cap 0) k = 0 := by
  unfold rdInt
  by_cases h : k < cap <;> simp [List.getD, h]

theorem zeroFrom_zeros (cap start n : Nat) : ZeroFrom (zeros cap) start n := fun k _ _ => rd_zeros cap k

theorem doubled_zeros (cap N : Nat) : Doubled (zeros cap) N := fun j _ => by rw [rd_zeros, rd_zeros]

/-! ### Reset values -/

theorem AvgInst.reset_inv {c : Params} (h : 1 ≤ c.avgCap) : (AvgInst.reset c).Inv c :=
  ⟨List.length_replicate, h⟩

theorem LoInst.reset_inv : LoInst.reset.Inv := by decide

theorem GiirInst.reset_inv (c : Params) : (GiirInst.reset c).Inv c :=
  ⟨Nat.zero_le _, Nat.zero_le _, Iff.rfl, List.length_replicate, List.length_replicate, List.length_replicate,
    List.length_replicate, List.length_replicate, List.length_replicate, zeroFrom_zeros _ _ _, zeroFrom_zeros _ _ _,
    zeroFrom_zeros _ _ _, zeroFrom_zeros _ _ _, zeroFrom_zeros _ _ _, zeroFrom_zeros _ _ _⟩

theorem fitsI32_zero : fitsI32 0 = true := by decide

theorem FirInst.reset_inv (c : Params) : (FirInst.reset c).Inv c :=
  ⟨Nat.zero_le _, .inr ⟨rfl, rfl⟩, List.length_replicate, List.length_replicate, List.length_replicate,
    List.length_replicate, List.length_replicate, fun _ hv => List.eq_of_mem_replicate hv ▸ fitsI32_zero,
    doubled_zeros _ _, doubled_zeros _ _, doubled_zeros _ _, zeroFrom_zeros _ _ _,
    fun k _ _ => rdInt_replicate_zero _ k, zeroFrom_zeros _ _ _, zeroFrom_zeros _ _ _, zeroFrom_zeros _ _ _⟩

/-! ### Average (R200, R201) -/

theorem avgProc_inv {s : State} {A B : AvgInst} {r : Results} (h : A.Inv s.cfg) (e : avgProc s A = .ok (B, r)) :
    B.Inv s.cfg := by
  unfold avgProc at e
  dsimp only at e
  split at e
  · cases e
  · cases e
    exact ⟨by rw [List.length_set]; exact h.1, Nat.mod_lt _ (by omega)⟩

theorem avgClr_inv {s : State} {A B : AvgInst} {r : Results} (hc : 1 ≤ s.cfg.avgCap) (e : avgClr s A = .ok (B, r)) :
    B.Inv s.cfg := by
  cases e; exact AvgInst.reset_inv hc

/-! ### General IIR (R260 to R267) -/

theorem zeroFrom_set {l : List Word} {start cap k : Nat} {v : Word} (h : ZeroFrom l start cap) (hk : k < start) :
    ZeroFrom (l.set k v) start cap := fun j hj hs => by rw [rd_set_ne _ (by omega), h j hj hs]

theorem zeroFrom_shiftUp {l : List F32} {start cap m : Nat} (hl : m < l.length) (h : ZeroFrom l start cap)
    (hm : m < start) : ZeroFrom (shiftUp m l) start cap := fun j hj hs => by
  rw [rd_shiftUp hl, if_neg (by omega), h j hj hs]

theorem giirCfg_inv {s : State} {G H : GiirInst} {r : Results} (e : giirCfg s G = .ok (H, r)) : H.Inv s.cfg := by
  unfold giirCfg at e
  dsimp only at e
  split at e
  · cases e
  · cases e
    have h1 : asU32 s.op[0] ≤ s.cfg.giirCap := by omega
    have h2 : asU32 s.op[1] ≤ s.cfg.giirCap := by omega
    have h3 : asU32 s.op[0] = 0 ↔ asU32 s.op[1] = 0 := by omega
    exact ⟨h1, h2, h3, length_zeros _, length_zeros _, length_zeros _, length_zeros _,
      length_zeros _, length_zeros _, zeroFrom_zeros _ _ _, zeroFrom_zeros _ _ _, zeroFrom_zeros _ _ _,
      zeroFrom_zeros _ _ _, zeroFrom_zeros _ _ _, zeroFrom_zeros _ _ _⟩

theorem giirSetb_inv {s : State} {G H : GiirInst} {r : Results} (h : G.Inv s.cfg) (e : giirSetb s G = .ok (H, r)) :
    H.Inv s.cfg := by
  obtain ⟨h1, h2, h3, h4, h5, h6, h7, h8, h9, z1, z2, z3, z4, z5, z6⟩ := h
  unfold giirSetb at e
  dsimp only at e
  split at e
  · cases e
  · rename_i hk
    cases e
    exact ⟨h1, h2, h3, by rw [List.length_set, h4], h5, h6, h7, h8, h9, zeroFrom_set z1 (tapCheck_eq_none.1 hk), z2, z3,
      z4, z5, z6⟩

theorem giirSeta_inv {s : State} {G H : GiirInst} {r : Results} (h : G.Inv s.cfg) (e : giirSeta s G = .ok (H, r)) :
    H.Inv s.cfg := by
  obtain ⟨h1, h2, h3, h4, h5, h6, h7, h8, h9, z1, z2, z3, z4, z5, z6⟩ := h
  unfold giirSeta at e
  dsimp only at e
  split at e
  · cases e
  · rename_i hk
    cases e
    exact ⟨h1, h2, h3, h4, by rw [List.length_set, h5], h6, h7, h8, h9, z1, z2, z3,
      zeroFrom_set z4 (tapCheck_eq_none.1 hk), z5, z6⟩

theorem giirGetb_ok {s : State} {G H : GiirInst} {r : Results} (e : giirGetb s G = .ok (H, r)) : H = G := by
  unfold giirGetb at e
  dsimp only at e
  split at e <;> cases e
  rfl

theorem giirGeta_ok {s : State} {G H : GiirInst} {r : Results} (e : giirGeta s G = .ok (H, r)) : H = G := by
  unfold giirGeta at e
  dsimp only at e
  split at e <;> cases e
  rfl

/-- What the direct-form step keeps of the two histories of a channel. -/
theorem df1Step_inv (ν : NaNs) {c : Params} {G : GiirInst} {X Y : List F32} (x : F32) (hb : 0 < G.nb)
    (ha : 0 < G.na) (hnb : G.nb ≤ c.giirCap) (hna : G.na ≤ c.giirCap) (hX : X.length = c.giirCap)
    (hY : Y.length = c.giirCap) (zX : ZeroFrom X G.nb c.giirCap) (zY : ZeroFrom Y G.na c.giirCap) :
    (df1Step ν G X Y x).1.length = c.giirCap ∧ (df1Step ν G X Y x).2.1.length = c.giirCap ∧
    ZeroFrom (df1Step ν G X Y x).1 G.nb c.giirCap ∧ ZeroFrom (df1Step ν G X Y x).2.1 G.na c.giirCap := by
  unfold df1Step
  refine ⟨by rw [List.length_set, length_shiftUp, hX], by rw [List.length_set, length_shiftUp, hY], ?_, ?_⟩
  · exact zeroFrom_set (zeroFrom_shiftUp (by omega) zX (by omega)) hb
  · exact zeroFrom_set (zeroFrom_shiftUp (by omega) zY (by omega)) ha

theorem giirProc_inv {s : State} {G H : GiirInst} {r : Results} (h : G.Inv s.cfg) (e : giirProc s G = .ok (H, r)) :
    H.Inv s.cfg := by
  obtain ⟨h1, h2, h3, h4, h5, h6, h7, h8, h9, z1, z2, z3, z4, z5, z6⟩ := h
  unfold giirProc at e
  split at e
  · cases e
  · cases e
    have hb : 0 < G.nb := by omega
    have ha : 0 < G.na := by omega
    obtain ⟨k1, k2, k3, k4⟩ := df1Step_inv (s.nans.lane 2 0) (asF32 s.op[0]) hb ha h1 h2 h6 h7 z2 z5
    exact ⟨h1, h2, h3, h4, h5, k1, k2, h8, h9, z1, k3, z3, z4, k4, z6⟩

theorem giirProc2_inv {s : State} {G H : GiirInst} {r : Results} (h : G.Inv s.cfg) (e : giirProc2 s G = .ok (H, r)) :
    H.Inv s.cfg := by
  obtain ⟨h1, h2, h3, h4, h5, h6, h7, h8, h9, z1, z2, z3, z4, z5, z6⟩ := h
  unfold giirProc2 at e
  split at e
  · cases e
  · cases e
    have hb : 0 < G.nb := by omega
    have ha : 0 < G.na := by omega
    obtain ⟨k1, k2, k3, k4⟩ := df1Step_inv (s.nans.lane 2 0) (asF32 s.op[0]) hb ha h1 h2 h6 h7 z2 z5
    obtain ⟨m1, m2, m3, m4⟩ := df1Step_inv (s.nans.lane 2 1) (asF32 s.op[1]) hb ha h1 h2 h8 h9 z3 z6
    exact ⟨h1, h2, h3, h4, h5, k1, k2, m1, m2, z1, k3, m3, z4, k4, m4⟩

theorem giirClr_inv {s : State} {G H : GiirInst} {r : Results} (h : G.Inv s.cfg) (e : giirClr s G = .ok (H, r)) :
    H.Inv s.cfg := by
  obtain ⟨h1, h2, h3, h4, h5, -, -, -, -, z1, -, -, z4, -, -⟩ := h
  cases e
  exact ⟨h1, h2, h3, h4, h5, length_zeros _, length_zeros _, length_zeros _, length_zeros _, z1, zeroFrom_zeros _ _ _,
    zeroFrom_zeros _ _ _, z4, zeroFrom_zeros _ _ _, zeroFrom_zeros _ _ _⟩

/-! ### FIR (R316, R346 to R350) -/

/-- Writing a sample keeps the doubled-buffer invariant (R68). -/
theorem doubled_writeBoth {l : List Word} {N c : Nat} (hc : c < N) (hl : 2 * N ≤ l.length) (h : Doubled l N)
    (v : Word) : Doubled (writeBoth N c v l) N := by
  intro j hj
  rw [rd_writeBoth hc hl, rd_writeBoth hc hl]
  by_cases e : j = c
  · rw [if_pos (by omega), if_pos (by omega)]
  · rw [if_neg (by omega), if_neg (by omega), h j hj]

theorem zeroFrom_writeBoth {l : List Word} {N c cap : Nat} (hc : c < N) (hl : 2 * N ≤ l.length)
    (h : ZeroFrom l (2 * N) cap) (v : Word) : ZeroFrom (writeBoth N c v l) (2 * N) cap := by
  intro j hj hs
  rw [rd_writeBoth hc hl, if_neg (by omega), h j hj hs]

theorem firPush_inv {c : Params} {F : FirInst} (h : F.Inv c) (hN : F.order ≠ 0) (x : F32) (r : Word) :
    (firPush F x r).Inv c := by
  obtain ⟨h1, h2, h3, h4, h5, h6, h7, h8, d1, d2, d3, z1, z2, z3, z4, z5⟩ := h
  have hc : F.cur < F.order := by omega
  have hA : 2 * F.order ≤ F.bufA.length := by omega
  have hR : 2 * F.order ≤ F.bufR.length := by omega
  exact ⟨h1, .inl (Nat.mod_lt _ (by omega)), h3, h4, by rw [← h5]; exact length_writeBoth _ _ _ _, h6,
    by rw [← h7]; exact length_writeBoth _ _ _ _, h8, doubled_writeBoth hc hA d1 x, d2, doubled_writeBoth hc hR d3 r,
    z1, z2, zeroFrom_writeBoth hc hA z3 x, z4, zeroFrom_writeBoth hc hR z5 r⟩

theorem firPush2_inv {c : Params} {F : FirInst} (h : F.Inv c) (hN : F.order ≠ 0) (x y : F32) :
    (firPush2 F x y).Inv c := by
  obtain ⟨h1, h2, h3, h4, h5, h6, h7, h8, d1, d2, d3, z1, z2, z3, z4, z5⟩ := h
  have hc : F.cur < F.order := by omega
  have hA : 2 * F.order ≤ F.bufA.length := by omega
  have hB : 2 * F.order ≤ F.bufB.length := by omega
  exact ⟨h1, .inl (Nat.mod_lt _ (by omega)), h3, h4, by rw [← h5]; exact length_writeBoth _ _ _ _,
    by rw [← h6]; exact length_writeBoth _ _ _ _, h7, h8, doubled_writeBoth hc hA d1 x, doubled_writeBoth hc hB d2 y,
    d3, z1, z2, zeroFrom_writeBoth hc hA z3 x, zeroFrom_writeBoth hc hB z4 y, z5⟩

theorem firProcf_inv {p : Policy} {s : State} {F G : FirInst} {r : Results} (h : F.Inv s.cfg)
    (e : firProcf p s F = .ok (G, r)) : G.Inv s.cfg := by
  unfold firProcf at e
  split at e
  · cases e
  · cases e; exact firPush_inv h ‹_› _ _

theorem firProci_inv {p : Policy} {s : State} {F G : FirInst} {r : Results} (h : F.Inv s.cfg)
    (e : firProci p s F = .ok (G, r)) : G.Inv s.cfg := by
  unfold firProci at e
  split at e
  · cases e
  · dsimp only at e
    split at e
    · cases e
    · cases e; exact firPush_inv h ‹_› _ _

theorem firProc2_inv {p : Policy} {s : State} {F G : FirInst} {r : Results} (h : F.Inv s.cfg)
    (e : firProc2 p s F = .ok (G, r)) : G.Inv s.cfg := by
  unfold firProc2 at e
  split at e
  · cases e
  · cases e; exact firPush2_inv h ‹_› _ _

theorem firSetconv_inv {s : State} {F G : FirInst} {r : Results} (h : F.Inv s.cfg)
    (e : firSetconv s F = .ok (G, r)) : G.Inv s.cfg := by
  cases e; exact h

theorem firClr_inv {s : State} {F G : FirInst} {r : Results} (h : F.Inv s.cfg) (e : firClr s F = .ok (G, r)) :
    G.Inv s.cfg := by
  obtain ⟨h1, h2, h3, h4, -, -, -, h8, -, -, -, z1, z2, -, -, -⟩ := h
  have h0 : 0 < F.order ∨ F.order = 0 ∧ 0 = 0 := by omega
  cases e
  exact ⟨h1, h0, h3, h4, length_zeros _, length_zeros _, length_zeros _, h8, doubled_zeros _ _,
    doubled_zeros _ _, doubled_zeros _ _, z1, z2, zeroFrom_zeros _ _ _, zeroFrom_zeros _ _ _, zeroFrom_zeros _ _ _⟩

theorem firGetcf_ok {s : State} {F G : FirInst} {r : Results} (e : firGetcf s F = .ok (G, r)) : G = F := by
  unfold firGetcf at e
  dsimp only at e
  split at e <;> cases e
  rfl

theorem firGetci_ok {s : State} {F G : FirInst} {r : Results} (e : firGetci s F = .ok (G, r)) : G = F := by
  unfold firGetci at e
  dsimp only at e
  split at e <;> cases e
  rfl

@[simp] theorem length_fillArray {α : Type} (cap N : Nat) (f : Nat → α) (z : α) :
    (fillArray cap N f z).length = cap := by simp [fillArray]

theorem getD_fillArray {α : Type} (cap N : Nat) (f : Nat → α) (z : α) (k : Nat) :
    (fillArray cap N f z).getD k z = if k < N ∧ k < cap then f k else z := by
  unfold fillArray
  by_cases h : k < cap
  · by_cases hN : k < N <;> simp [List.getD, h, hN]
  · simp [List.getD, h]

/-- All `designCheck` lets through (R301). -/
theorem designCheck_eq_none {c : Params} {D : Design} (h : designCheck c D = none) :
    1 ≤ D.order ∧ D.order ≤ c.firMax := by
  unfold designCheck at h
  split at h
  · cases h
  · omega

theorem firDesign_inv {kind : FirKind} {w : Window} {s : State} {F G : FirInst} {r : Results}
    (e : firDesign kind w s F = .ok (G, r)) : G.Inv s.cfg := by
  unfold firDesign at e
  dsimp only at e
  split at e
  · cases e
  · rename_i hD
    obtain ⟨h1, h2⟩ := designCheck_eq_none hD
    split at e
    · rename_i hall
      cases e
      rw [List.all_eq_true] at hall
      refine ⟨h2, .inl h1, length_fillArray _ _ _ _, length_fillArray _ _ _ _, length_zeros _, length_zeros _,
        length_zeros _, ?_, doubled_zeros _ _, doubled_zeros _ _, doubled_zeros _ _, ?_, ?_, zeroFrom_zeros _ _ _,
        zeroFrom_zeros _ _ _, zeroFrom_zeros _ _ _⟩
      · intro v hv
        obtain ⟨i, -, rfl⟩ := List.mem_map.1 hv
        split
        · rename_i hi
          have := hall i (List.mem_range.2 hi)
          simp only [tapValid, Bool.and_eq_true] at this
          exact this.2
        · exact fitsI32_zero
      · intro k _ hs
        exact (getD_fillArray _ _ _ _ k).trans (if_neg (by dsimp only [commitDesign] at hs; omega))
      · intro k _ hs
        exact (getD_fillArray _ _ _ _ k).trans (if_neg (by dsimp only [commitDesign] at hs; omega))
    · cases e

/-! ### Low-order filters (R233 to R239) -/

theorem lpProc_inv {f : LoId} {k : Nat} {s : State} {L M : LoInst} {r : Results} (h : L.Inv)
    (hf : f = .lp1 ∧ k = 1 ∨ f = .lp2 ∧ k = 2 ∨ f = .lp3 ∧ k = 3) (e : lpProc f k s L = .ok (M, r)) : M.Inv := by
  unfold lpProc at e
  dsimp only at e
  split at e
  · cases e
  · cases e
    rcases hf with ⟨rfl, rfl⟩ | ⟨rfl, rfl⟩ | ⟨rfl, rfl⟩ <;>
      simpa [LoInst.Inv, LoInst.put, LoInst.get, loLp, LoFilter.setSec] using h

theorem hpProc_inv {f : LoId} {k : Nat} {s : State} {L M : LoInst} {r : Results} (h : L.Inv)
    (hf : f = .hp1 ∧ k = 1 ∨ f = .hp2 ∧ k = 2 ∨ f = .hp3 ∧ k = 3) (e : hpProc f k s L = .ok (M, r)) : M.Inv := by
  unfold hpProc at e
  dsimp only at e
  split at e
  · cases e
  · cases e
    rcases hf with ⟨rfl, rfl⟩ | ⟨rfl, rfl⟩ | ⟨rfl, rfl⟩ <;>
      simpa [LoInst.Inv, LoInst.put, LoInst.get, loHp, LoFilter.setSec] using h

theorem loClr_inv {fs : List LoId} {s : State} {L M : LoInst} {r : Results} (h : L.Inv)
    (e : loClr fs s L = .ok (M, r)) : M.Inv := by
  cases e
  induction fs generalizing L with
  | nil => exact h
  | cons f fs ih =>
    refine ih ?_
    cases f <;> simp_all [LoInst.Inv, LoInst.put, LoFilter.reset]

end Sys2Proof.Machine
end

