-- ==== Sys2Proof/Laws/FirDesign.lean ====
section
/-! SUPPORT. What a FIR design can do: which operands pass R301, that an accepted tap does not depend on the NaNs the
command draws, and the two ways a checked design ends (R315, R316). -/

namespace Sys2Proof.Machine

/-! ### The checks (R301) -/

theorem posFinite_iff (f : F32) : posFinite f = true ↔ isFinite f = true ∧ fgt f fZERO = true := by
  simp [posFinite]

/-- A positive value is no zero. -/
theorem isZero_of_posFinite {f : F32} (h : posFinite f = true) : isZero f = false := by
  have hg := ((posFinite_iff f).1 h).2
  simp only [fgt, flt, Bool.and_eq_true, decide_eq_true_eq] at hg
  cases hz : isZero f
  · rfl
  · have h0 : fmag f = 0 := by simpa [isZero] using hz
    have h1 : forder f = 0 := by unfold forder; rw [h0]; simp
    have h2 : forder fZERO = 0 := by decide
    rw [h1, h2] at hg; exact absurd hg.2 (lt_irrefl _)

/-- The operands of a sinc design that pass every check of R301. -/
structure Design.Accepted (c : Params) (D : Design) : Prop where
  order_pos : 1 ≤ D.order
  order_le  : D.order ≤ c.firMax
  odd       : D.order % 2 = 1
  taper     : D.window = .hamm → D.order ≠ 1
  fs        : posFinite D.fs = true
  f1        : posFinite D.f1 = true
  band      : D.kind = .bp ∨ D.kind = .bs → isFinite D.f2 = true ∧ flt D.f1 D.f2 = true

theorem designCheck_sinc {c : Params} {D : Design} (hk : D.kind ≠ .ma) :
    designCheck c D = none ↔ D.Accepted c := by
  constructor
  · intro h
    unfold designCheck at h
    split_ifs at h with h1 h2 h3 h4 h5 h6
    exact ⟨by omega, by omega, by omega, fun e e1 => h3 ⟨e, e1⟩, by simpa using h4, by simpa using h5,
      fun e => by_contra fun hb => h6 ⟨e, by simpa using hb⟩⟩
  · intro h
    have := h.order_pos; have := h.order_le; have := h.odd
    unfold designCheck
    rw [if_neg (by omega), if_neg hk, if_neg (by omega), if_neg (fun e => h.taper e.1 e.2), if_neg (by simp [h.fs]),
      if_neg (by simp [h.f1]), if_neg (fun e => e.2 (h.band e.1))]

/-! ### A tap and the NaNs it draws (R24, R302 to R305) -/

section Tap

variable {c : Params} {ν ν' : NaNs} (hν : ∀ k, isNaN (ν k) = true) (hν' : ∀ k, isNaN (ν' k) = true)

include hν hν'

theorem lpCentre_nanEq (f fs : F32) : NaNEq (lpCentre ν f fs) (lpCentre ν' f fs) :=
  fdiv_nanEq (hν _) (hν' _) (fmul_nanEq (hν _) (hν' _) (.refl _) (.refl _)) (.refl _)

/-- The argument of FSIN is a number, so it is the same for every draw. -/
theorem lpTap_nanEq {f fs : F32} {n : Int} (hf : isFinite f = true) (hs : posFinite fs = true) (hn : n ≠ 0)
    (hn' : n.natAbs ≤ 2 ^ 32) : NaNEq (lpTap c ν f fs (i2f n)) (lpTap c ν' f fs (i2f n)) := by
  have e1 : fmul (ν 0) fTWOPI f = fmul (ν' 0) fTWOPI f :=
    (fmul_nanEq (hν _) (hν' _) (.refl _) (.refl _)).eq (isNaN_fmul_finite (by decide) hf)
  have hq : isNaN (fdiv (ν 1) (fmul (ν 0) fTWOPI f) fs) = false :=
    isNaN_fdiv_nonzero (isNaN_fmul_finite (by decide) hf) ((posFinite_iff fs).1 hs).1 (isZero_of_posFinite hs)
  have e2 : fdiv (ν 1) (fmul (ν 0) fTWOPI f) fs = fdiv (ν' 1) (fmul (ν' 0) fTWOPI f) fs :=
    (fdiv_nanEq (hν _) (hν' _) (.inl e1) (.refl _)).eq hq
  have e3 := (fmul_nanEq (b := i2f n) (hν 2) (hν' 2) (.inl e2) (.refl _)).eq
    (isNaN_fmul_nonzero hq (isFinite_i2f hn') (isZero_i2f hn))
  exact fdiv_nanEq (hν _) (hν' _) (.inl (congrArg c.sin e3)) (fmul_nanEq (hν _) (hν' _) (.refl _) (.refl _))

/-- The argument of FCOS is a number, so it is the same for every draw. -/
theorem windowTap_nanEq {w : Window} {i N : Nat} (hi : i ≤ N) (hN : N ≤ 2 ^ 32) (h1 : w = .hamm → N ≠ 1) :
    NaNEq (windowTap c ν w i N) (windowTap c ν' w i N) := by
  cases w
  · exact .refl _
  · have hn : ((N : Int) - 1).natAbs ≤ 2 ^ 32 := by omega
    have h0 : ((N : Int) - 1) ≠ 0 := by have := h1 rfl; omega
    have hm : ∀ k, isNaN (fmul k fTWOPI (i2f i)) = false := fun _ =>
      isNaN_fmul_finite (by decide) (isFinite_i2f (by omega))
    have e1 := (fmul_nanEq (b := i2f i) (hν 0) (hν' 0) (.refl fTWOPI) (.refl _)).eq (hm _)
    have e2 := (fdiv_nanEq (b := i2f ((N : Int) - 1)) (hν 1) (hν' 1) (.inl e1) (.refl _)).eq
      (isNaN_fdiv_nonzero (hm _) (isFinite_i2f hn) (isZero_i2f h0))
    exact fsub_nanEq (hν _) (hν' _) (.refl _)
      (fmul_nanEq (hν _) (hν' _) (.refl _) (.inl (congrArg c.cos e2)))

variable {D : Design} (hD : D.Accepted c) (h32 : D.order ≤ 2 ^ 32)

include hD h32

theorem idealTap_nanEq {i : Nat} (hi : i < D.order) : NaNEq (idealTap c ν D i) (idealTap c ν' D i) := by
  have h1 := (posFinite_iff _).1 hD.f1
  have low : ∀ {μ μ' : NaNs} {f : F32}, (∀ k, isNaN (μ k) = true) → (∀ k, isNaN (μ' k) = true) → isFinite f = true →
      NaNEq (if i = (D.order - 1) / 2 then lpCentre μ f D.fs else
          lpTap c μ f D.fs (i2f ((i : Int) - ((D.order - 1) / 2 : Nat))))
        (if i = (D.order - 1) / 2 then lpCentre μ' f D.fs else
          lpTap c μ' f D.fs (i2f ((i : Int) - ((D.order - 1) / 2 : Nat)))) := by
    intro μ μ' f hμ hμ' hf
    split
    · exact lpCentre_nanEq hμ hμ' _ _
    · exact lpTap_nanEq hμ hμ' hf hD.fs (by omega) (by omega)
  have l1 := low (μ := ν.lane 4 0) (μ' := ν'.lane 4 0) (fun _ => hν _) (fun _ => hν' _) h1.1
  have l2 := fun hf => low (μ := ν.lane 4 1) (μ' := ν'.lane 4 1) (f := D.f2) (fun _ => hν _) (fun _ => hν' _) hf
  unfold idealTap
  dsimp only
  cases hk : D.kind
  · exact fdiv_nanEq (hν _) (hν' _) (.refl _) (.refl _)
  · exact l1
  · dsimp only
    split
    · rename_i h; simp only [if_pos h] at l1; exact fsub_nanEq (hν _) (hν' _) (.refl _) l1
    · rename_i h; simp only [if_neg h] at l1; exact l1.fneg
  · exact fsub_nanEq (hν _) (hν' _) (l2 (hD.band (.inl hk)).1) l1
  · have l2 := l2 (hD.band (.inr hk)).1
    dsimp only
    split
    · rename_i h; simp only [if_pos h] at l1 l2
      exact fsub_nanEq (hν _) (hν' _) (.refl _) (fsub_nanEq (hν _) (hν' _) l2 l1)
    · rename_i h; simp only [if_neg h] at l1 l2; exact fsub_nanEq (hν _) (hν' _) l1 l2

theorem designWindow_nanEq {i : Nat} (hi : i < D.order) : NaNEq (designWindow c ν D i) (designWindow c ν' D i) := by
  have h := windowTap_nanEq (c := c) hν hν' hi.le h32 hD.taper
  unfold designWindow
  cases D.kind
  · exact .refl _
  all_goals exact h

/-- The float coefficient is the same for every draw, or a NaN for every draw. -/
theorem tapF_nanEq {i : Nat} (hi : i < D.order) : NaNEq (tapF c ν D i) (tapF c ν' D i) :=
  fmul_nanEq (hν _) (hν' _) (idealTap_nanEq (fun _ => hν _) (fun _ => hν' _) hD h32 hi)
    (designWindow_nanEq (fun _ => hν _) (fun _ => hν' _) hD h32 hi)

/-- The scaled coefficient is the same for every draw, or a NaN for every draw. -/
theorem tapW_nanEq {i : Nat} (hi : i < D.order) : NaNEq (tapW c ν D i) (tapW c ν' D i) :=
  fmul_nanEq (hν _) (hν' _)
    (fmul_nanEq (hν _) (hν' _) (idealTap_nanEq (fun _ => hν _) (fun _ => hν' _) hD h32 hi) (.refl _))
    (designWindow_nanEq (fun _ => hν _) (fun _ => hν' _) hD h32 hi)

end Tap

/-! ### The two ways a checked design ends (R315, R316) -/

section Body

variable {kind : FirKind} {w : Window} {s : State} {F : FirInst} (hc : designCheck s.cfg (designOf kind w s) = none)

include hc

theorem firDesign_of_valid
    (hv : ∀ k, k < (designOf kind w s).order → tapValid s.cfg s.nans (designOf kind w s) k = true) :
    firDesign kind w s F = .ok (commitDesign s.cfg s.nans (designOf kind w s) F, .none) := by
  simp only [firDesign, hc]
  rw [if_pos (List.all_eq_true.2 fun k hk => hv k (List.mem_range.1 hk))]

theorem firDesign_of_invalid {k : Nat} (hk : k < (designOf kind w s).order)
    (hv : tapValid s.cfg s.nans (designOf kind w s) k = false) : firDesign kind w s F = .error .param := by
  simp only [firDesign, hc]
  rw [if_neg]
  intro hall
  have := List.all_eq_true.1 hall k (List.mem_range.2 hk)
  rw [hv] at this; cases this

end Body

theorem rd_commitDesign (c : Params) (ν : NaNs) (D : Design) (F : FirInst) (k : Nat) :
    rd (commitDesign c ν D F).hf k = if k < D.order ∧ k < c.firMax then tapF c (ν.tap k) D k else 0 :=
  getD_fillArray _ _ _ _ k

theorem rdInt_commitDesign (c : Params) (ν : NaNs) (D : Design) (F : FirInst) (k : Nat) :
    rdInt (commitDesign c ν D F).hi k =
      if k < D.order ∧ k < c.firMax then f2i c.coefRound (tapW c (ν.tap k) D k) else 0 :=
  getD_fillArray _ _ _ _ k

end Sys2Proof.Machine
end

