-- ==== Sys2Proof/Laws/LowOrder.lean ====
section
/-! SUPPORT. What one low-pass section answers on finite operands: it stays between its output and its input (the case
of R242), and keeps a fixed point (R240). -/

namespace Sys2Proof.Machine

/-- A finite pattern of the nonnegative value with magnitude bits `m` (either zero stands for 0). -/
def IsNonneg (x : F32) (m : Nat) : Prop := fmag x = m ∧ m < infMag ∧ fint x = magUnits m

theorem IsNonneg.finite {x : F32} {m : Nat} (h : IsNonneg x m) : isFinite x = true := by
  rw [isFinite_iff, h.1]; exact h.2.1

theorem IsNonneg.units {x : F32} {m : Nat} (h : IsNonneg x m) : funits x = magUnits m := by rw [funits_eq, h.1]

/-- A negative sign is left to a zero only. -/
theorem IsNonneg.zero_of_sign {x : F32} {m : Nat} (h : IsNonneg x m) (hs : fsign x = true) : m = 0 := by
  have e := h.2.2
  rw [fint, hs, if_pos rfl, h.units] at e
  exact magUnits_eq_zero.1 (by omega)

theorem isNonneg_of_fint {x : F32} (h : isFinite x = true) (h0 : 0 ≤ fint x) : IsNonneg x (fmag x) := by
  refine ⟨rfl, (isFinite_iff x).1 h, ?_⟩
  rw [← funits_eq]
  unfold fint at *
  cases hs : fsign x <;> simp only [hs, if_true, if_false, Bool.false_eq_true] at * <;> omega

theorem isNonneg_fpack {neg : Bool} {m : Nat} (hm : m < infMag) (h : neg = true → m = 0) : IsNonneg (fpack neg m) m := by
  have h31 : m < 2 ^ 31 := lt_trans hm (by unfold infMag; norm_num)
  refine ⟨fmag_fpack _ h31, hm, ?_⟩
  rw [fint, fsign_fpack _ h31, funits_eq, fmag_fpack _ h31]
  cases neg
  · simp
  · rw [h rfl]; simp

/-- The sum of two nonnegative values, and the difference where it is nonnegative. -/
theorem isNonneg_fadd {nan a b : F32} {v : Nat} (ha : isFinite a = true) (hb : isFinite b = true)
    (e : fint a + fint b = v) (hv : roundMag v 1 < infMag) : IsNonneg (fadd nan a b) (roundMag v 1) := by
  rw [fadd_finite ha hb, e]
  by_cases h0 : v = 0
  · rw [if_pos (by omega), h0, roundMag_zero Nat.one_pos]
    exact isNonneg_fpack (by unfold infMag; norm_num) fun _ => rfl
  · rw [if_neg (by omega), Int.natAbs_natCast, decide_eq_false (by omega)]
    exact isNonneg_fpack hv (by simp)

/-- The next value above 1.0, in units of 2^-149. -/
theorem units_of_gt_one {a : F32} (ha : fgt a fONE = true) (hs : fsign a = false) :
    (2 ^ 23 + 1) * 2 ^ 126 ≤ funits a := by
  have h1 : fsign fONE = false := by decide
  have h2 : fmag fONE = 127 * 2 ^ 23 := by decide
  have h : forder fONE < forder a := by
    unfold fgt flt at ha
    simp only [Bool.and_eq_true, decide_eq_true_eq] at ha
    exact ha.2
  unfold forder at h
  rw [h1, hs] at h
  simp only [Bool.false_eq_true, if_false] at h
  have e : magUnits (127 * 2 ^ 23 + 1) = (2 ^ 23 + 1) * 2 ^ 126 :=
    magUnits_pattern 126 (2 ^ 23 + 1) (by norm_num) (.inr (by norm_num))
  rw [funits_eq, ← e]
  exact magUnits_le_magUnits (by omega)

/-- The quotient of a rounded difference by a divisor above 1.0 is not above the exact difference: the rounding of the
difference up and of the quotient up never carry a section past its input. -/
theorem quotient_le {n A : Nat} (hA : (2 ^ 23 + 1) * 2 ^ 126 ≤ A) (hn : roundMag n 1 < infMag) :
    magUnits (roundMag (magUnits (roundMag n 1) * 2 ^ 149) A) ≤ n := by
  have hA0 : 0 < A := lt_of_lt_of_le (by positivity) hA
  have hpat : roundMag n 1 = roundPat n 1 := by
    rw [roundMag_eq_min] at hn ⊢; exact min_eq_left (by omega)
  have hU := magUnits_roundPat n Nat.one_pos
  have hle := roundSig_le n Nat.one_pos
  have hge := roundSig_ge n Nat.one_pos
  obtain ⟨x1, x2⟩ := roundExp_spec n Nat.one_pos
  obtain ⟨r1, r2, -⟩ := roundEven_spec n (d := 1 * 2 ^ roundExp n 1) (by positivity)
  rw [show roundEven n (1 * 2 ^ roundExp n 1) = roundSig n 1 from rfl] at r1 r2
  rw [Nat.one_mul] at x1 x2 r1 r2
  rw [hpat, hU]
  -- a representable bound `m` on the quotient
  have bound : ∀ {r k : Nat}, r ≤ 2 ^ 24 → (k = 0 ∨ 2 ^ 23 ≤ r) →
      roundSig n 1 * 2 ^ roundExp n 1 * 2 ^ 149 ≤ r * 2 ^ k * A →
      magUnits (roundMag (roundSig n 1 * 2 ^ roundExp n 1 * 2 ^ 149) A) ≤ r * 2 ^ k := by
    intro r k h1 h2 h3
    rw [← magUnits_pattern k r h1 h2] at h3 ⊢
    exact magUnits_le_magUnits (roundMag_le hA0 h3)
  have hA' : 2 ^ 149 ≤ A := le_trans (by norm_num) hA
  have self := bound hle hge (Nat.mul_le_mul_left _ hA')
  by_cases hk : roundExp n 1 = 0
  · rw [hk, pow_zero, Nat.mul_one] at r1 r2 self ⊢
    omega
  · by_cases hr : roundSig n 1 = 2 ^ 23
    · refine self.trans ?_
      rw [hr]; exact x2.resolve_left hk
    · have hr' : 2 ^ 23 + 1 ≤ roundSig n 1 := by omega
      obtain ⟨q, hq⟩ : ∃ q, roundSig n 1 = q + 1 := ⟨roundSig n 1 - 1, by omega⟩
      have step := bound (r := q) (k := roundExp n 1) (by omega) (.inr (by omega)) (by
        rw [hq]
        have h1 : (q + 1) * 2 ^ 23 ≤ q * (2 ^ 23 + 1) := by
          have : 2 ^ 23 ≤ q := by omega
          ring_nf; omega
        calc (q + 1) * 2 ^ roundExp n 1 * 2 ^ 149 = (q + 1) * 2 ^ 23 * (2 ^ roundExp n 1 * 2 ^ 126) := by ring
          _ ≤ q * (2 ^ 23 + 1) * (2 ^ roundExp n 1 * 2 ^ 126) := Nat.mul_le_mul_right _ h1
          _ = q * 2 ^ roundExp n 1 * ((2 ^ 23 + 1) * 2 ^ 126) := by ring
          _ ≤ q * 2 ^ roundExp n 1 * A := Nat.mul_le_mul_left _ hA)
      refine step.trans ?_
      rw [hq, Nat.add_mul, Nat.one_mul] at r2
      omega

/-- One low-pass section with a > 1 on a nonnegative input that is not below its output: the new output is between
the two (R242). -/
theorem lpSection_between (ν : NaNs) {a S v : F32} (ha : isFinite a = true) (h1 : fgt a fONE = true)
    (hS : isFinite S = true) (hv : isFinite v = true) (h0 : 0 ≤ fint S) (hle : fint S ≤ fint v) :
    isFinite (lpSection ν a S v) = true ∧ fint S ≤ fint (lpSection ν a S v) ∧ fint (lpSection ν a S v) ≤ fint v := by
  have iS := isNonneg_of_fint hS h0
  have iv := isNonneg_of_fint hv (h0.trans hle)
  have hUle : magUnits (fmag S) ≤ magUnits (fmag v) := by
    have := iS.2.2; have := iv.2.2; omega
  -- a is positive
  have hs : fsign a = false := by
    by_contra hn
    have hn : fsign a = true := by simpa using hn
    unfold fgt flt at h1
    simp only [Bool.and_eq_true, decide_eq_true_eq] at h1
    have h := h1.2
    have e1 : forder fONE = 127 * 2 ^ 23 := by decide
    rw [e1, forder, hn, if_pos rfl] at h
    omega
  have hA := units_of_gt_one h1 hs
  have hA0 : 0 < funits a := lt_of_lt_of_le (by positivity) hA
  -- the difference
  have hd1 : roundMag (magUnits (fmag v) - magUnits (fmag S)) 1 ≤ fmag v := roundMag_le Nat.one_pos (by omega)
  have hd2 := lt_of_le_of_lt hd1 iv.2.1
  have d := isNonneg_fadd (nan := ν 0) (v := magUnits (fmag v) - magUnits (fmag S)) hv (b := fneg S) (by simpa using hS)
    (by rw [fint_fneg, iv.2.2, iS.2.2]; omega) hd2
  -- the quotient
  have hq0 := quotient_le hA hd2
  have hq1 : roundMag (magUnits (roundMag (magUnits (fmag v) - magUnits (fmag S)) 1) * 2 ^ 149) (funits a) < infMag := by
    rw [← magUnits_lt_iff]
    exact lt_of_le_of_lt hq0 (lt_of_le_of_lt (Nat.sub_le _ _) (magUnits_lt_magUnits iv.2.1))
  have q : IsNonneg (fdiv (ν 1) (fsub (ν 0) v S) a)
      (roundMag (magUnits (roundMag (magUnits (fmag v) - magUnits (fmag S)) 1) * 2 ^ 149) (funits a)) := by
    unfold fsub
    rw [fdiv_finite d.finite ha hA0, d.units, hs, Bool.bne_false]
    exact isNonneg_fpack hq1 fun hh => by rw [d.zero_of_sign hh]; simp [roundMag_zero hA0]
  -- the sum
  have hu1 : roundMag (magUnits (fmag S) +
      magUnits (roundMag (magUnits (roundMag (magUnits (fmag v) - magUnits (fmag S)) 1) * 2 ^ 149) (funits a))) 1 ≤
      fmag v := roundMag_le Nat.one_pos (by omega)
  have u := isNonneg_fadd (nan := ν 2) hS q.finite (by rw [iS.2.2, q.2.2, ← Int.natCast_add])
    (lt_of_le_of_lt hu1 iv.2.1)
  unfold lpSection
  refine ⟨u.finite, ?_, ?_⟩
  · rw [u.2.2, iS.2.2]
    have : fmag S ≤ roundMag (magUnits (fmag S) +
        magUnits (roundMag (magUnits (roundMag (magUnits (fmag v) - magUnits (fmag S)) 1) * 2 ^ 149) (funits a))) 1 :=
      le_roundMag Nat.one_pos iS.2.1.le (by omega)
    exact_mod_cast magUnits_le_magUnits this
  · rw [u.2.2, iv.2.2]
    exact_mod_cast magUnits_le_magUnits hu1

/-- Adding +0 or -0 to a finite value that is not -0 answers the value. -/
theorem fadd_zero {nan a z : F32} (ha : isFinite a = true) (hne : a ≠ 0x80000000#32) (hz : fmag z = 0) :
    fadd nan a z = a := by
  have hzf : isFinite z = true := by rw [isFinite_iff, hz]; unfold infMag; norm_num
  have hzi : fint z = 0 := by unfold fint; rw [funits_eq, hz]; simp
  rw [fadd_finite ha hzf, hzi, Int.add_zero]
  have hmag := (isFinite_iff a).1 ha
  by_cases h0 : fint a = 0
  · have hm : fmag a = 0 := by
      apply magUnits_eq_zero.1
      rw [← funits_eq]; unfold fint at h0; split at h0 <;> omega
    have hs : fsign a = false := by
      by_contra hn
      apply hne
      have hn : fsign a = true := by simpa using hn
      exact eq_of_sign_mag (by rw [hn]; decide) (by rw [hm]; decide)
    rw [if_pos h0, hs, Bool.false_and]
    exact eq_of_sign_mag (by rw [hs]; decide) (by rw [hm]; decide)
  · rw [if_neg h0]
    have e : roundMag (fint a).natAbs 1 = fmag a := by
      have : (fint a).natAbs = magUnits (fmag a) * 1 := by
        rw [← funits_eq]; unfold fint; split <;> omega
      rw [this, roundMag_magUnits Nat.one_pos hmag.le]
    have hsgn : decide (fint a < 0) = fsign a := by
      unfold fint at h0 ⊢
      cases hs : fsign a <;> simp only [hs, if_true, if_false, Bool.false_eq_true] at h0 ⊢ <;> simp <;> omega
    rw [e, hsgn, fpack_fsign_fmag]

/-- The fixed point of a low-pass section (R240): with input and output at V, finite and not -0, the new output is V. -/
theorem lpSection_self (ν : NaNs) {a V : F32} (ha : isFinite a = true) (ha0 : 0 < funits a) (hV : isFinite V = true)
    (hne : V ≠ 0x80000000#32) : lpSection ν a V V = V := by
  have hd : fsub (ν 0) V V = fpack false 0 := by
    unfold fsub
    rw [fadd_finite hV (by simpa using hV), fint_fneg, if_pos (by omega), fsign_fneg, Bool.and_not_self]
  have h0 : isFinite (fpack false 0) = true := by decide
  have hu : funits (fpack false 0) = 0 := by decide
  unfold lpSection
  rw [hd, fdiv_finite h0 ha ha0, hu, Nat.zero_mul, roundMag_zero ha0]
  exact fadd_zero hV hne (fmag_fpack _ (by norm_num))

end Sys2Proof.Machine
end

