-- ==== Sys2Proof/Laws/PerInstr.lean ====
section
/-! SUPPORT. The family EncodeShape: what the fields of every command's word are (R131, R132, R133). -/

namespace Sys2Proof

/-! ### Fields of a built word -/

theorem commandWord_toNat {opc inst var mod : Nat} (ho : opc < 256) (hi : inst < 16) (hv : var < 16) (hm : mod < 16) :
    (commandWord opc inst var mod).toNat = mod * 2 ^ 16 + var * 2 ^ 12 + inst * 2 ^ 8 + opc := by
  unfold commandWord
  simp only [Machine.toNat_append_eq, BitVec.toNat_ofNat]
  rw [Nat.mod_eq_of_lt (show mod < 2 ^ 4 by omega), Nat.mod_eq_of_lt (show var < 2 ^ 4 by omega),
    Nat.mod_eq_of_lt (show inst < 2 ^ 4 by omega), Nat.mod_eq_of_lt (show opc < 2 ^ 8 by omega)]
  omega

theorem field_eq (w : Word) (start len : Nat) : (w.extractLsb' start len).toNat = w.toNat / 2 ^ start % 2 ^ len := by
  rw [BitVec.extractLsb'_toNat, Nat.shiftRight_eq_div_pow]

/-- The five fields of a built word are the ones it was built from. -/
theorem commandWord_fields {opc inst var mod : Nat} (ho : opc < 256) (hi : inst < 16) (hv : var < 16) (hm : mod < 16) :
    rsvField (commandWord opc inst var mod) = 0 ∧ modField (commandWord opc inst var mod) = mod ∧
    varField (commandWord opc inst var mod) = var ∧ instField (commandWord opc inst var mod) = inst ∧
    opcField (commandWord opc inst var mod) = opc := by
  unfold rsvField modField varField instField opcField
  simp only [field_eq, commandWord_toNat ho hi hv hm]
  omega

namespace Laws.EncodeShape

/-- A well-formed command's word has RSV = 0, its instance number in INST (0 for a command without instances), an
opcode of R135, and a (VAR, MOD) that R135 lists for it. -/
def Statement (i : Instr) : Prop :=
  i.WellFormed → rsvField (encode i) = 0 ∧ instField (encode i) = i.inst ∧ opcField (encode i) ∈ knownOpcodes ∧
    variantListed (opcField (encode i)) (varField (encode i)) (modField (encode i)) = true

theorem of_commandWord {i : Instr} {opc var mod : Nat} (e : encode i = commandWord opc i.inst var mod)
    (ho : opc ∈ knownOpcodes ∧ opc < 256) (hv : variantListed opc var mod = true ∧ var < 16 ∧ mod < 16) :
    Statement i := by
  intro h
  obtain ⟨h1, h2, h3, h4, h5⟩ := commandWord_fields ho.2 (Nat.lt_succ_of_le h) hv.2.1 hv.2.2
  rw [e, h1, h2, h3, h4, h5]
  exact ⟨rfl, rfl, ho.1, hv.1⟩

theorem nop : Statement .nop := of_commandWord rfl (by decide) (by decide)
theorem sreset : Statement .sreset := of_commandWord rfl (by decide) (by decide)
theorem clrstat : Statement .clrstat := of_commandWord rfl (by decide) (by decide)
theorem avgProc (n : Nat) : Statement (.avgProc n) := of_commandWord rfl (by decide) (by decide)
theorem avgClr (n : Nat) : Statement (.avgClr n) := of_commandWord rfl (by decide) (by decide)
theorem lp1 (n : Nat) : Statement (.lp1 n) := of_commandWord rfl (by decide) (by decide)
theorem lp2 (n : Nat) : Statement (.lp2 n) := of_commandWord rfl (by decide) (by decide)
theorem lp3 (n : Nat) : Statement (.lp3 n) := of_commandWord rfl (by decide) (by decide)
theorem hp1 (n : Nat) : Statement (.hp1 n) := of_commandWord rfl (by decide) (by decide)
theorem hp2 (n : Nat) : Statement (.hp2 n) := of_commandWord rfl (by decide) (by decide)
theorem hp3 (n : Nat) : Statement (.hp3 n) := of_commandWord rfl (by decide) (by decide)
theorem loClrAll (n : Nat) : Statement (.loClrAll n) := of_commandWord rfl (by decide) (by decide)
theorem loClrLp1 (n : Nat) : Statement (.loClrLp1 n) := of_commandWord rfl (by decide) (by decide)
theorem loClrLp2 (n : Nat) : Statement (.loClrLp2 n) := of_commandWord rfl (by decide) (by decide)
theorem loClrLp3 (n : Nat) : Statement (.loClrLp3 n) := of_commandWord rfl (by decide) (by decide)
theorem loClrHp1 (n : Nat) : Statement (.loClrHp1 n) := of_commandWord rfl (by decide) (by decide)
theorem loClrHp2 (n : Nat) : Statement (.loClrHp2 n) := of_commandWord rfl (by decide) (by decide)
theorem loClrHp3 (n : Nat) : Statement (.loClrHp3 n) := of_commandWord rfl (by decide) (by decide)
theorem giirCfg (n : Nat) : Statement (.giirCfg n) := of_commandWord rfl (by decide) (by decide)
theorem giirSetb (n : Nat) : Statement (.giirSetb n) := of_commandWord rfl (by decide) (by decide)
theorem giirSeta (n : Nat) : Statement (.giirSeta n) := of_commandWord rfl (by decide) (by decide)
theorem giirGetb (n : Nat) : Statement (.giirGetb n) := of_commandWord rfl (by decide) (by decide)
theorem giirGeta (n : Nat) : Statement (.giirGeta n) := of_commandWord rfl (by decide) (by decide)
theorem giirProc (n : Nat) : Statement (.giirProc n) := of_commandWord rfl (by decide) (by decide)
theorem giirProc2 (n : Nat) : Statement (.giirProc2 n) := of_commandWord rfl (by decide) (by decide)
theorem giirClr (n : Nat) : Statement (.giirClr n) := of_commandWord rfl (by decide) (by decide)
theorem firMaRect (n : Nat) : Statement (.firMaRect n) := of_commandWord rfl (by decide) (by decide)
theorem firMaHamm (n : Nat) : Statement (.firMaHamm n) := of_commandWord rfl (by decide) (by decide)
theorem firLpRect (n : Nat) : Statement (.firLpRect n) := of_commandWord rfl (by decide) (by decide)
theorem firLpHamm (n : Nat) : Statement (.firLpHamm n) := of_commandWord rfl (by decide) (by decide)
theorem firHpRect (n : Nat) : Statement (.firHpRect n) := of_commandWord rfl (by decide) (by decide)
theorem firHpHamm (n : Nat) : Statement (.firHpHamm n) := of_commandWord rfl (by decide) (by decide)
theorem firBpRect (n : Nat) : Statement (.firBpRect n) := of_commandWord rfl (by decide) (by decide)
theorem firBpHamm (n : Nat) : Statement (.firBpHamm n) := of_commandWord rfl (by decide) (by decide)
theorem firBsRect (n : Nat) : Statement (.firBsRect n) := of_commandWord rfl (by decide) (by decide)
theorem firBsHamm (n : Nat) : Statement (.firBsHamm n) := of_commandWord rfl (by decide) (by decide)
theorem firProcfMod (n : Nat) : Statement (.firProcfMod n) := of_commandWord rfl (by decide) (by decide)
theorem firProcfBranch (n : Nat) : Statement (.firProcfBranch n) := of_commandWord rfl (by decide) (by decide)
theorem firProcfDbl (n : Nat) : Statement (.firProcfDbl n) := of_commandWord rfl (by decide) (by decide)
theorem firProciMod (n : Nat) : Statement (.firProciMod n) := of_commandWord rfl (by decide) (by decide)
theorem firProciBranch (n : Nat) : Statement (.firProciBranch n) := of_commandWord rfl (by decide) (by decide)
theorem firProciDbl (n : Nat) : Statement (.firProciDbl n) := of_commandWord rfl (by decide) (by decide)
theorem firProc2Mod (n : Nat) : Statement (.firProc2Mod n) := of_commandWord rfl (by decide) (by decide)
theorem firProc2Branch (n : Nat) : Statement (.firProc2Branch n) := of_commandWord rfl (by decide) (by decide)
theorem firProc2Dbl (n : Nat) : Statement (.firProc2Dbl n) := of_commandWord rfl (by decide) (by decide)
theorem firGetcf (n : Nat) : Statement (.firGetcf n) := of_commandWord rfl (by decide) (by decide)
theorem firGetci (n : Nat) : Statement (.firGetci n) := of_commandWord rfl (by decide) (by decide)
theorem firSetconv (n : Nat) : Statement (.firSetconv n) := of_commandWord rfl (by decide) (by decide)
theorem firClr (n : Nat) : Statement (.firClr n) := of_commandWord rfl (by decide) (by decide)
theorem scaleF : Statement .scaleF := of_commandWord rfl (by decide) (by decide)
theorem scaleI : Statement .scaleI := of_commandWord rfl (by decide) (by decide)

end Laws.EncodeShape

end Sys2Proof
end

