-- ==== Sys2Proof/Tests/Slice0.lean ====
section
/-! SUPPORT. Tests: decoding of hand-written words, the well-formedness smoke, single steps against the spec's test
vectors (95_test_vectors.md), and a witness for the hypotheses of every statement that has some. -/

namespace Sys2Proof.Tests

open Sys2Proof.Machine Sys2Proof.Claims

/-! ### Helpers -/

/-- The state after an outcome that is a next state; reset for the others, which no test meets. -/
def after (r : Result) : State :=
  match r with
  | .next t    => t
  | .fault _   => State.reset
  | .refused _ => State.reset

/-- Operand registers from the first four. -/
def ops (a b c d : Word) : Vector Word 8 := #v[a, b, c, d, 0, 0, 0, 0]

/-- Reset (T0) with the operands given. -/
def at4 (a b c d : Word) : State := { State.reset with op := ops a b c d }

/-- The next state of the step that runs the command word `w`. -/
def cmd (w : Nat) (s : State) : State := after (step (s.withFetchWord 32 w))

/-- STATUS as the host reads it. -/
def status (s : State) : Word := statusWord s.last s.err

/-- Reset with a pending host action. -/
def pend (a : HostAction) : State := { State.reset with bus := [a] }

/-- 1000.0, 2000.0, 8000.0 -/
def k1 : F32 := 0x447A0000#32
def k2 : F32 := 0x44FA0000#32
def k8 : F32 := 0x45FA0000#32

/-- T0 with the [FS] values of FSIN and FCOS the five-tap designs read at fs = 8000 (95_test_vectors.md section 0). -/
def fsParams : Params :=
  { Params.t0 with
    sinKnown := [(0xBFC90FDB#32, 0xBF800000#32), (0xBF490FDB#32, 0xBF3504F3#32), (0x3F490FDB#32, 0x3F3504F3#32),
      (0x3FC90FDB#32, 0x3F800000#32), (0xC0490FDB#32, 0x33BBBD2E#32), (0x40490FDB#32, 0xB3BBBD2E#32)]
    cosKnown := [(0x00000000#32, 0x3F800000#32), (0x3FC90FDB#32, 0xB33BBD2E#32), (0x40490FDB#32, 0xBF800000#32),
      (0x4096CBE4#32, 0x324CDE2E#32), (0x40C90FDB#32, 0x3F800000#32)] }

/-- Reset under `fsParams` with design operands. -/
def design (f1 f2 n fs : Word) : State := { State.resetOf fsParams with op := ops f1 f2 n fs }

/-- FIR[0] holds the moving average of order 4 (V-FD-1). -/
def ma4 : State := cmd 0x00000040 (at4 0 0 4 0)

/-- GIIR[0] holds b = [0.5], a = [1.0, -0.5] after one sample 1.0 (V-GIIR-2). -/
def giirInst : GiirInst :=
  { GiirInst.reset .t0 with
    nb := 1, na := 2
    b := [0x3F000000#32, 0, 0, 0, 0, 0, 0, 0]
    a := [0x3F800000#32, 0xBF000000#32, 0, 0, 0, 0, 0, 0]
    x := [0x3F800000#32, 0, 0, 0, 0, 0, 0, 0]
    y := [0x3F000000#32, 0, 0, 0, 0, 0, 0, 0]
    x2 := [0xC0000000#32, 0, 0, 0, 0, 0, 0, 0]
    y2 := [0xBF800000#32, 0, 0, 0, 0, 0, 0, 0] }

def giir (a b : Word) : State := { at4 a b 0 0 with giir := [giirInst, .reset .t0] }

/-- A low-order filter after one call with x = 1.0, fc = 1.0, fs = TWO_PI_F. -/
def lo (L : LoInst) (fc fs : F32) : State := { at4 0x3F800000#32 fc fs 0 with lo := [L, .reset] }

def fullFilter : LoFilter := { s1 := 0x3F000000#32, s2 := 0x3E800000#32, s3 := 0x3E000000#32, x1 := 0x3F800000#32 }

def loInst : LoInst :=
  { lp1 := { fullFilter with s2 := 0, s3 := 0, x1 := 0 }
    lp2 := { fullFilter with s3 := 0, x1 := 0 }
    lp3 := { fullFilter with x1 := 0 }
    hp1 := { fullFilter with s2 := 0, s3 := 0 }
    hp2 := { fullFilter with s3 := 0 }
    hp3 := fullFilter }

def loState : State := lo loInst 0x3F800000#32 0x40C90FDB#32

/-- The invariant, decided part by part. -/
def invB (s : State) : Bool :=
  decide s.cfg.Legal && decide (s.avg.length = s.cfg.niAvg) && decide (∀ A ∈ s.avg, A.Inv s.cfg) &&
  decide (s.lo.length = s.cfg.niLo) && decide (∀ L ∈ s.lo, L.Inv) &&
  decide (s.giir.length = s.cfg.niGiir) && decide (∀ G ∈ s.giir, G.Inv s.cfg) &&
  decide (s.fir.length = s.cfg.niFir) && decide (∀ F ∈ s.fir, F.Inv s.cfg)

theorem inv_of {s : State} (h : invB s = true) : s.Inv := by
  simp only [invB, Bool.and_eq_true, decide_eq_true_eq] at h
  obtain ⟨⟨⟨⟨⟨⟨⟨⟨h1, h2⟩, h3⟩, h4⟩, h5⟩, h6⟩, h7⟩, h8⟩, h9⟩ := h
  exact ⟨h1, h2, h3, h4, h5, h6, h7, h8, h9⟩

/-! ### Well-formedness smoke: the one check is INST ≤ 15 (R131) -/

theorem test_wellFormed_refuses_inst_16 : ¬ (Instr.avgProc 16).WellFormed := by decide
theorem test_wellFormed_accepts_inst_15 : (Instr.firClr 15).WellFormed ∧ Instr.nop.WellFormed := by decide

/-! ### Decoding: words written out from R131 and R135, RSV / MOD / VAR / INST / OPC -/

theorem test_decode_control :
    decodeTableWord 32 0b000000000000_0000_0000_0000_00000000 = some .nop ∧
    decodeTableWord 32 0b000000000000_0000_0000_0000_00000001 = some .sreset ∧
    decodeTableWord 32 0b000000000000_0000_0000_0000_00000010 = some .clrstat := by decide +kernel

theorem test_decode_average :
    decodeTableWord 32 0b000000000000_0000_0000_0001_00010000 = some (.avgProc 1) ∧
    decodeTableWord 32 0b000000000000_0000_0000_1111_00010001 = some (.avgClr 15) := by decide +kernel

theorem test_decode_low_order :
    decodeTableWord 32 0b000000000000_0001_0000_0000_00100000 = some (.lp1 0) ∧
    decodeTableWord 32 0b000000000000_0010_0000_0001_00100000 = some (.lp2 1) ∧
    decodeTableWord 32 0b000000000000_0011_0000_0010_00100000 = some (.lp3 2) ∧
    decodeTableWord 32 0b000000000000_0001_0001_0011_00100000 = some (.hp1 3) ∧
    decodeTableWord 32 0b000000000000_0010_0001_0100_00100000 = some (.hp2 4) ∧
    decodeTableWord 32 0b000000000000_0011_0001_0101_00100000 = some (.hp3 5) ∧
    decodeTableWord 32 0b000000000000_0000_0000_0110_00100001 = some (.loClrAll 6) ∧
    decodeTableWord 32 0b000000000000_0001_0000_0111_00100001 = some (.loClrLp1 7) ∧
    decodeTableWord 32 0b000000000000_0010_0000_1000_00100001 = some (.loClrLp2 8) ∧
    decodeTableWord 32 0b000000000000_0011_0000_1001_00100001 = some (.loClrLp3 9) ∧
    decodeTableWord 32 0b000000000000_0001_0001_1010_00100001 = some (.loClrHp1 10) ∧
    decodeTableWord 32 0b000000000000_0010_0001_1011_00100001 = some (.loClrHp2 11) ∧
    decodeTableWord 32 0b000000000000_0011_0001_1100_00100001 = some (.loClrHp3 12) := by decide +kernel

theorem test_decode_general_iir :
    decodeTableWord 32 0b000000000000_0000_0000_0000_00110000 = some (.giirCfg 0) ∧
    decodeTableWord 32 0b000000000000_0000_0000_0001_00110001 = some (.giirSetb 1) ∧
    decodeTableWord 32 0b000000000000_0000_0000_0010_00110010 = some (.giirSeta 2) ∧
    decodeTableWord 32 0b000000000000_0000_0000_0011_00110011 = some (.giirGetb 3) ∧
    decodeTableWord 32 0b000000000000_0000_0000_0100_00110100 = some (.giirGeta 4) ∧
    decodeTableWord 32 0b000000000000_0000_0000_0101_00110101 = some (.giirProc 5) ∧
    decodeTableWord 32 0b000000000000_0000_0000_0110_00110110 = some (.giirProc2 6) ∧
    decodeTableWord 32 0b000000000000_0000_0000_0111_00110111 = some (.giirClr 7) := by decide +kernel

theorem test_decode_fir_design :
    decodeTableWord 32 0b000000000000_0000_0000_0000_01000000 = some (.firMaRect 0) ∧
    decodeTableWord 32 0b000000000000_0001_0000_0001_01000000 = some (.firMaHamm 1) ∧
    decodeTableWord 32 0b000000000000_0000_0001_0010_01000000 = some (.firLpRect 2) ∧
    decodeTableWord 32 0b000000000000_0001_0001_0011_01000000 = some (.firLpHamm 3) ∧
    decodeTableWord 32 0b000000000000_0000_0010_0100_01000000 = some (.firHpRect 4) ∧
    decodeTableWord 32 0b000000000000_0001_0010_0101_01000000 = some (.firHpHamm 5) ∧
    decodeTableWord 32 0b000000000000_0000_0011_0110_01000000 = some (.firBpRect 6) ∧
    decodeTableWord 32 0b000000000000_0001_0011_0111_01000000 = some (.firBpHamm 7) ∧
    decodeTableWord 32 0b000000000000_0000_0100_1000_01000000 = some (.firBsRect 8) ∧
    decodeTableWord 32 0b000000000000_0001_0100_1001_01000000 = some (.firBsHamm 9) := by decide +kernel

theorem test_decode_fir_convolution :
    decodeTableWord 32 0b000000000000_0000_0000_0000_01000001 = some (.firProcfMod 0) ∧
    decodeTableWord 32 0b000000000000_0000_0001_0001_01000001 = some (.firProcfBranch 1) ∧
    decodeTableWord 32 0b000000000000_0000_0010_0010_01000001 = some (.firProcfDbl 2) ∧
    decodeTableWord 32 0b000000000000_0001_0000_0011_01000001 = some (.firProciMod 3) ∧
    decodeTableWord 32 0b000000000000_0001_0001_0100_01000001 = some (.firProciBranch 4) ∧
    decodeTableWord 32 0b000000000000_0001_0010_0101_01000001 = some (.firProciDbl 5) ∧
    decodeTableWord 32 0b000000000000_0000_0000_0110_01000010 = some (.firProc2Mod 6) ∧
    decodeTableWord 32 0b000000000000_0000_0001_0111_01000010 = some (.firProc2Branch 7) ∧
    decodeTableWord 32 0b000000000000_0000_0010_1000_01000010 = some (.firProc2Dbl 8) ∧
    decodeTableWord 32 0b000000000000_0000_0000_1001_01000011 = some (.firGetcf 9) ∧
    decodeTableWord 32 0b000000000000_0000_0001_1010_01000011 = some (.firGetci 10) ∧
    decodeTableWord 32 0b000000000000_0000_0000_1011_01000100 = some (.firSetconv 11) ∧
    decodeTableWord 32 0b000000000000_0000_0000_1100_01000101 = some (.firClr 12) := by decide +kernel

theorem test_decode_scale :
    decodeTableWord 32 0b000000000000_0000_0000_0000_01010000 = some .scaleF ∧
    decodeTableWord 32 0b000000000000_0000_0000_0000_01010001 = some .scaleI := by decide +kernel

/-- The words of V-CT-2, V-AVG-E, V-LO-11, V-FD-E, V-FIR-E: each with its completion code. -/
theorem test_decode_refuses :
    ([0x00000003, 0x00000100, 0x00001000, 0x00100000, 0x000000FF, 0x00000046, 0x00000038, 0x00000022, 0x00000012,
      0x00001010, 0x00100010, 0x00001021, 0x00010037, 0x00005040, 0x00020040, 0x00003041].all
        fun w => status (cmd w State.reset) == 0x00000101#32) = true ∧
    status (cmd 0x00010042 State.reset) = 0x00000106#32 := by decide +kernel

/-! ### The register window (V-CT-1, V-CT-3, V-CT-4) -/

theorem test_constant_registers :
    ([0x08, 0x0C, 0x10, 0x14, 0x18, 0x1C, 0x50].map fun off => (after (step (pend (.read off 4)))).readData) =
      [0x44534D56#32, 0x00000901#32, 0x00080008#32, 0x00000010#32, 0x02020202#32, 0, 0] := by decide +kernel

theorem test_write_of_read_only_register_ignored :
    after (step (pend (.write 0x08 4 7))) = State.reset ∧ after (step (pend (.write 0x40 4 9))) = State.reset := by
  decide +kernel

theorem test_write_op0 : (after (step (pend (.write 0x20 4 5)))).op[0] = 5 := by decide +kernel

/-- An 8-bit or a misaligned access has no step (R105). -/
theorem test_inadmissible_access :
    step (pend (.write 0x00 1 0)) = .fault .inadmissibleAccess ∧ step (pend (.read 0x02 4)) = .fault .inadmissibleAccess ∧
    step (pend (.read 0x100 4)) = .fault .outsideWindow := ⟨rfl, rfl, rfl⟩

theorem test_reset_is_idle : step State.reset = .next State.reset := rfl

/-! ### Arithmetic (R21 to R26): results worked out by hand from IEEE 754 -/

/-- 2^24 + 1 ties to even down, 2^24 + 3 up; half the least subnormal rounds to +0; the sum of the two largest
overflows. -/
theorem test_rounding :
    i2f 16777217 = 0x4B800000#32 ∧ i2f 16777219 = 0x4B800002#32 ∧ i2f (-3) = 0xC0400000#32 ∧
    fmul 0 0x00000001#32 0x3F000000#32 = 0 ∧ fmul 0 0x00000003#32 0x3F000000#32 = 2 ∧
    fadd 0 0x7F7FFFFF#32 0x7F7FFFFF#32 = 0x7F800000#32 ∧ fdiv 0 0x3F800000#32 0x40400000#32 = 0x3EAAAAAB#32 ∧
    fsub 0 0x3F800000#32 0x3F800000#32 = 0 ∧ fadd 0 0x80000000#32 0x80000000#32 = 0x80000000#32 := by decide +kernel

/-- 2.5 and -2.5: TRUNC toward zero, NEAREST with ties away from zero (R26). -/
theorem test_f2i :
    f2i .trunc 0x40200000#32 = 2 ∧ f2i .trunc 0xC0200000#32 = -2 ∧
    f2i .nearest 0x40200000#32 = 3 ∧ f2i .nearest 0xC0200000#32 = -3 := by decide +kernel

/-- inf - inf is the NaN the operation was given (R24); comparisons with it are false (R25). -/
theorem test_nan :
    fsub 0x7FC00001#32 0x7F800000#32 0x7F800000#32 = 0x7FC00001#32 ∧ flt 0x7FC00001#32 0 = false ∧
    fgt 0x7FC00001#32 0 = false ∧ flt 0x80000000#32 0 = false := by decide +kernel

/-! ### Single commands -/

/-- V-CT-3: the sticky bit. -/
theorem test_nop : status (cmd 0x00000000 (cmd 0x00000003 State.reset)) = 0x00000100#32 := by decide +kernel
theorem test_clrstat : status (cmd 0x00000002 (cmd 0x00000003 State.reset)) = 0 := by decide +kernel

/-- V-CT-5. -/
theorem test_sreset :
    cmd 0x00000001 ma4 = { State.reset with cmd := 0x00000001#32, draws := 2 } := by decide +kernel

/-- V-AVG-1, V-AVG-4. -/
theorem test_avgProc :
    let t := cmd 0x00000010 (at4 0x3F800000#32 4 0 0)
    t.res[0] = 0x3E800000#32 ∧ (t.avgAt 0).cur = 1 ∧ rd (t.avgAt 0).buf 0 = 0x3F800000#32 ∧ status t = 0 := by
  decide +kernel
theorem test_avgProc_keeps_sign_of_zero : (cmd 0x00000010 (at4 0x80000000#32 1 0 0)).res[0] = 0x80000000#32 := by
  decide +kernel

/-- V-AVG-7, the clear. -/
theorem test_avgClr : (cmd 0x00000011 (cmd 0x00000010 (at4 0x3F800000#32 4 0 0))).avg = State.reset.avg := by
  decide +kernel

/-- V-LO-1 to V-LO-6, call 2. -/
theorem test_lp1 : (cmd 0x00010020 loState).res[0] = 0x3F400000#32 := by decide +kernel
theorem test_lp2 : (cmd 0x00020020 loState).res[0] = 0x3F000000#32 := by decide +kernel
theorem test_lp3 : (cmd 0x00030020 loState).res[0] = 0x3EA00000#32 := by decide +kernel
theorem test_hp1 : (cmd 0x00011020 loState).res[0] = 0x3E800000#32 := by decide +kernel
theorem test_hp2 : (cmd 0x00021020 loState).res[0] = 0 := by decide +kernel
theorem test_hp3 : (cmd 0x00031020 loState).res[0] = 0xBD800000#32 := by decide +kernel

/-- V-LO-7: fc = 0, and the accepted subnormal factor. -/
theorem test_lp1_param : status (cmd 0x00010020 (lo loInst 0 k8)) = 0x00000103#32 := by decide +kernel
theorem test_lp1_tiny_factor :
    status (cmd 0x00010020 (lo loInst 0x60AD78EC#32 0x1E3CE508#32)) = 0 := by decide +kernel

/-- R239: the selected filter, and V-LO-11. -/
theorem test_loClrAll : (cmd 0x00000021 loState).lo[0]? = some .reset := by decide +kernel
theorem test_loClrLp1 : (cmd 0x00010021 loState).lo[0]? = some { loInst with lp1 := .reset } := by decide +kernel
theorem test_loClrLp2 : (cmd 0x00020021 loState).lo[0]? = some { loInst with lp2 := .reset } := by decide +kernel
theorem test_loClrLp3 : (cmd 0x00030021 loState).lo[0]? = some { loInst with lp3 := .reset } := by decide +kernel
theorem test_loClrHp1 : (cmd 0x00011021 loState).lo[0]? = some { loInst with hp1 := .reset } := by decide +kernel
theorem test_loClrHp2 : (cmd 0x00021021 loState).lo[0]? = some { loInst with hp2 := .reset } := by decide +kernel
theorem test_loClrHp3 : (cmd 0x00031021 loState).lo[0]? = some { loInst with hp3 := .reset } := by decide +kernel

/-- V-GIIR-E and R260. -/
theorem test_giirCfg :
    let t := cmd 0x00000030 (giir 1 8)
    (t.giirAt 0).nb = 1 ∧ (t.giirAt 0).na = 8 ∧ rd (t.giirAt 0).b 0 = 0 ∧ rd (t.giirAt 0).y2 0 = 0 := by decide +kernel
theorem test_giirCfg_range : status (cmd 0x00000030 (giir 1 9)) = 0x00000102#32 := by decide +kernel
theorem test_giirSetb : rd ((cmd 0x00000031 (giir 0 7)).giirAt 0).b 0 = 7 := by decide +kernel
theorem test_giirSeta : rd ((cmd 0x00000032 (giir 1 7)).giirAt 0).a 1 = 7 := by decide +kernel
theorem test_giirGetb : (cmd 0x00000033 (giir 0 0)).res[0] = 0x3F000000#32 := by decide +kernel
theorem test_giirGeta : (cmd 0x00000034 (giir 1 0)).res[0] = 0xBF000000#32 := by decide +kernel
theorem test_giirGeta_range : status (cmd 0x00000034 (giir 2 0)) = 0x00000102#32 := by decide +kernel

/-- V-GIIR-2 and V-GIIR-5, call 2. -/
theorem test_giirProc :
    let t := cmd 0x00000035 (giir 0x3F800000#32 0)
    t.res[0] = 0x3F400000#32 ∧ (t.giirAt 0).y = [0x3F400000#32, 0x3F000000#32, 0, 0, 0, 0, 0, 0] := by decide +kernel
theorem test_giirProc2 :
    let t := cmd 0x00000036 (giir 0x3F800000#32 0xC0000000#32)
    t.res[0] = 0x3F400000#32 ∧ t.res[1] = 0xBFC00000#32 := by decide +kernel

/-- V-GIIR-6, the clear. -/
theorem test_giirClr :
    (cmd 0x00000037 (giir 0 0)).giirAt 0 = { GiirInst.reset .t0 with nb := 1, na := 2, b := giirInst.b, a := giirInst.a } := by
  decide +kernel

/-- V-FD-1, V-FD-1b, V-FD-1e. -/
theorem test_firMaRect :
    (ma4.firAt 0).order = 4 ∧ (ma4.firAt 0).hf.take 5 = List.replicate 4 0x3E800000#32 ++ [0] ∧
    (ma4.firAt 0).hi.take 5 = [128, 128, 128, 128, 0] := by decide +kernel
theorem test_firMaRect_three : ((cmd 0x00000040 (at4 0 0 3 0)).firAt 0).hi.take 4 = [170, 170, 170, 0] := by
  decide +kernel
theorem test_firMaHamm : ((cmd 0x00010040 (at4 0 0 4 0)).firAt 0).hf.take 5 = List.replicate 4 0x3E800000#32 ++ [0] := by
  decide +kernel

/-- V-FD-3, V-FD-4, V-FD-5b, V-FD-6b, V-FD-7b ([FS]). -/
theorem test_firLpRect :
    ((cmd 0x00001040 (design k1 0 5 k8)).firAt 0).hf.take 5 =
      [0x3E22F983#32, 0x3E667B21#32, 0x3E800000#32, 0x3E667B21#32, 0x3E22F983#32] ∧
    ((cmd 0x00001040 (design k1 0 5 k8)).firAt 0).hi.take 5 = [81, 115, 128, 115, 81] := by decide +kernel
theorem test_firLpHamm :
    ((cmd 0x00011040 (design k1 0 5 k8)).firAt 0).hf.take 5 =
      [0x3C509B8B#32, 0x3DF8EB62#32, 0x3E800000#32, 0x3DF8EB62#32, 0x3C509B8B#32] ∧
    ((cmd 0x00011040 (design k1 0 5 k8)).firAt 0).hi.take 5 = [6, 62, 128, 62, 6] := by decide +kernel
theorem test_firHpRect :
    ((cmd 0x00002040 (design k1 0 5 k8)).firAt 0).hf.take 5 =
      [0xBE22F983#32, 0xBE667B21#32, 0x3F400000#32, 0xBE667B21#32, 0xBE22F983#32] ∧
    ((cmd 0x00002040 (design k1 0 5 k8)).firAt 0).hi.take 5 = [-81, -115, 384, -115, -81] := by decide +kernel
theorem test_firBpRect :
    ((cmd 0x00003040 (design k1 k2 5 k8)).firAt 0).hf.take 5 =
      [0xBE22F984#32, 0x3DBEEFCA#32, 0x3E800000#32, 0x3DBEEFCA#32, 0xBE22F984#32] ∧
    ((cmd 0x00003040 (design k1 k2 5 k8)).firAt 0).hi.take 5 = [-81, 47, 128, 47, -81] := by decide +kernel
theorem test_firBsRect :
    ((cmd 0x00004040 (design k1 k2 5 k8)).firAt 0).hf.take 5 =
      [0x3E22F984#32, 0xBDBEEFCA#32, 0x3F400000#32, 0xBDBEEFCA#32, 0x3E22F984#32] ∧
    ((cmd 0x00004040 (design k1 k2 5 k8)).firAt 0).hi.take 5 = [81, -47, 384, -47, 81] := by decide +kernel

/-- V-FD-5, V-FD-6, V-FD-7 with a Hamming window, whose centre value is 1.0 (V-FD-9): the centre tap of three. -/
theorem test_firHpHamm : rdInt ((cmd 0x00012040 (design k1 0 3 k8)).firAt 0).hi 1 = 384 := by decide +kernel
theorem test_firBpHamm : rdInt ((cmd 0x00013040 (design k1 k2 3 k8)).firAt 0).hi 1 = 128 := by decide +kernel
theorem test_firBsHamm : rdInt ((cmd 0x00014040 (design k1 k2 3 k8)).firAt 0).hi 1 = 384 := by decide +kernel

/-- V-FD-E: a coefficient that does not fit, and the one-tap Hamming design. -/
theorem test_firLpRect_param : status (cmd 0x00001040 (at4 0x4A895440#32 0 1 0x3F800000#32)) = 0x00000103#32 := by
  decide +kernel
theorem test_firLpHamm_range : status (cmd 0x00011040 (at4 k1 0 1 k8)) = 0x00000102#32 := by decide +kernel

/-- V-FIR-E, V-FD-1. -/
theorem test_firGetcf : (cmd 0x00000043 { ma4 with op := ops 3 0 0 0 }).res[0] = 0x3E800000#32 := by decide +kernel
theorem test_firGetci : (cmd 0x00001043 { ma4 with op := ops 3 0 0 0 }).res[0] = 0x00000080#32 := by decide +kernel

/-- V-FIR-1, call 1, under each policy; the fifth call wraps. -/
theorem test_firProcfMod : (cmd 0x00000041 { ma4 with op := ops 0x3F800000#32 0 0 0 }).res[0] = 0x3E800000#32 := by
  decide +kernel
theorem test_firProcfBranch : (cmd 0x00001041 { ma4 with op := ops 0x3F800000#32 0 0 0 }).res[0] = 0x3E800000#32 := by
  decide +kernel
theorem test_firProcfDbl :
    let t := cmd 0x00002041 { ma4 with op := ops 0x3F800000#32 7 0 0 }
    t.res[0] = 0x3E800000#32 ∧ (t.firAt 0).cur = 1 ∧ rd (t.firAt 0).bufA 4 = 0x3F800000#32 ∧ rd (t.firAt 0).bufR 4 = 7 := by
  decide +kernel

/-- V-FIR-4, call 1, under each policy, and V-FIR-5, call 1 (the floor of -170/512). -/
theorem test_firProciMod :
    let t := cmd 0x00010041 { cmd 0x00000040 (at4 0 0 3 0) with op := ops 0 0xFFFFFFFF#32 0 0 }
    t.res[0] = 0xBF800000#32 ∧ t.res[1] = 0xFFFFFFFF#32 := by decide +kernel
theorem test_firProciBranch :
    let t := cmd 0x00011041 { ma4 with op := ops 0 1000 0 0 }
    t.res[0] = 0x437A0000#32 ∧ t.res[1] = 250 := by decide +kernel
theorem test_firProciDbl :
    let t := cmd 0x00012041 { ma4 with op := ops 0 1000 0 0 }
    t.res[0] = 0x437A0000#32 ∧ t.res[1] = 250 := by decide +kernel

/-- V-FIR-6, call 1, under each policy. -/
def ma2 : State := { cmd 0x00000040 (at4 0 0 2 0) with op := ops 0x3F800000#32 0xBF800000#32 0 0 }

theorem test_firProc2Mod : (cmd 0x00000042 ma2).res[0] = 0x3F000000#32 ∧ (cmd 0x00000042 ma2).res[1] = 0xBF000000#32 := by
  decide +kernel
theorem test_firProc2Branch :
    (cmd 0x00001042 ma2).res[0] = 0x3F000000#32 ∧ (cmd 0x00001042 ma2).res[1] = 0xBF000000#32 := by decide +kernel
theorem test_firProc2Dbl : (cmd 0x00002042 ma2).res[0] = 0x3F000000#32 ∧ (cmd 0x00002042 ma2).res[1] = 0xBF000000#32 := by
  decide +kernel

/-- V-FIR-7: the conversion registers, and R349. -/
theorem test_firSetconv :
    let t := cmd 0x00000044 (at4 0x3703126F#32 0x3F800000#32 0 0)
    (t.firAt 0).kScale = 0x3703126F#32 ∧ (t.firAt 0).kGain = 0x3F800000#32 ∧ (t.firAt 0).kOff = 0 := by decide +kernel
theorem test_firSetconv_used :
    (cmd 0x00010041 { cmd 0x00000040 { cmd 0x00000044 (at4 0x3703126F#32 0x3F800000#32 0 0) with op := ops 0 0 1 0 } with
      op := ops 0 1000 0 0 }).res[0] = 0x3C000000#32 := by decide +kernel

/-- R350. -/
theorem test_firClr :
    (cmd 0x00000045 (cmd 0x00002041 { ma4 with op := ops 0x3F800000#32 7 0 0 })).firAt 0 = ma4.firAt 0 := by decide +kernel

/-- V-SC-1. -/
theorem test_scaleF : (cmd 0x00000050 (at4 0x40400000#32 0x3F000000#32 0 0)).res[0] = 0x3FC00000#32 := by decide +kernel
theorem test_scaleF_overflow : (cmd 0x00000050 (at4 0x7F61B1E6#32 0x40800000#32 0 0)).res[0] = 0x7F800000#32 := by
  decide +kernel

/-- V-SC-2: -7 times 0.5, and -2^31 times -2^31. -/
theorem test_scaleI :
    let t := cmd 0x00000051 (at4 0xFFFFFFF9#32 0x80000000#32 0 0)
    t.res[0] = 0xFFFFFFFC#32 ∧ t.res[1] = 0xFFFFFFFF#32 := by decide +kernel
theorem test_scaleI_wide :
    let t := cmd 0x00000051 (at4 0x80000000#32 0 0x80000000#32 0)
    t.res[0] = 0 ∧ t.res[1] = 0x40000000#32 := by decide +kernel

/-! ### Host programs: the first line of program P4 (R141 to R144) -/

theorem test_readLine :
    readLine "LP2 #0, 1.0, _, 6.2831855 ; fs = TWO_PI_F".toList =
      some [.command (.lp2 0) [some 0x3F800000#32, none, some 0x40C90FDB#32]] := by decide +kernel

/-- The first line of program P2 (95_test_vectors.md section 3), and tap lists that are none (log 11). -/
theorem test_readLine_giirLoad :
    readLine "GIIR.LOAD #1, [0.5], [1.0, -0.5]   ; y(n) = 0.5 x(n) + 0.5 y(n-1)".toList =
      some [.giirLoad 1 [0x3F000000#32] [0x3F800000#32, 0xBF000000#32]] ∧
    readLine "GIIR.LOAD #1, [0.5], [1.0, -0.5".toList = none ∧
    readLine "GIIR.LOAD #1, [0.5]x, [1.0, -0.5]".toList = none ∧
    readLine "GIIR.LOAD #1, [0.5]], [1.0]".toList = none := by decide +kernel

/-! ### Witnesses: the hypotheses of each statement, met together

`wit_<statement>_<clause>`; the clauses are taken at the ends of their ranges. -/

theorem wit_DecodeOfEncodeIsIdentity : (Instr.avgProc 0).WellFormed ∧ (Instr.firProc2Dbl 15).WellFormed := by decide

theorem wit_EncodeOfDecodeIsIdentity : decode 0x00000F10#32 = .ok (.avgProc 15) := rfl

/-- A legal word at the end of each range of R137. -/
theorem wit_LegalWordSelectsExactlyOneRow_legal :
    ∀ w ∈ [0x00000002, 0x00000F11, 0x00031F20, 0x00031F21, 0x00000F37, 0x00014F40, 0x00012F41, 0x00002F42, 0x00001F43,
      0x00000F45, 0x00000051], ¬ IllegalWord (BitVec.ofNat 32 w) ∧ ¬ UnsupportedWord (BitVec.ofNat 32 w) := by
  unfold IllegalWord UnsupportedWord ListedOpcode ListedVariant; decide +kernel

/-- A word for each condition of R137, and the exception at both ends of its VAR range. -/
theorem wit_LegalWordSelectsExactlyOneRow_illegal :
    (∀ w ∈ [0x00100000, 0x00000003, 0x00005040, 0x00000100, 0x00000151], IllegalWord (BitVec.ofNat 32 w)) ∧
    UnsupportedWord 0x00010042#32 ∧ UnsupportedWord 0x00012F42#32 := by
  unfold IllegalWord UnsupportedWord ListedOpcode ListedVariant; decide +kernel

theorem wit_IllegalWordsEndWithTheirCode :
    (∀ w, (pend (.write 0 4 w)).bus = .write (pend (.write 0 4 w)).cfg.fcBase 4 w :: []) ∧
    IllegalWord 0x00100000#32 ∧ UnsupportedWord 0x00010042#32 ∧
    (¬ IllegalWord 0x00000F11#32 ∧ ¬ UnsupportedWord 0x00000F11#32) :=
  ⟨fun _ => rfl, wit_LegalWordSelectsExactlyOneRow_illegal.1 0x00100000 (by decide),
    wit_LegalWordSelectsExactlyOneRow_illegal.2.1, wit_LegalWordSelectsExactlyOneRow_legal 0x00000F11 (by decide)⟩

theorem wit_StepRunsTheDecodedCommand :
    (pend (.write 0 4 0x00000110#32)).bus = .write (pend (.write 0 4 0x00000110#32)).cfg.fcBase 4 0x00000110#32 :: [] ∧
    decode 0x00000110#32 = .ok (.avgProc 1) := ⟨rfl, rfl⟩

theorem wit_IdleEngineKeepsAllState : State.reset.bus = [] := rfl

/-- Both sides of the equivalence: an access that is not admitted, and one that is. -/
theorem wit_StepStopsExactlyOnInadmissibleAccess :
    ((pend (.read 255 4)).bus = .read 255 4 :: [] ∧ ¬ admitted Params.t0 (.read 255 4) ∧
      ¬ admitted Params.t0 (.read 256 4)) ∧
    admitted Params.t0 (.read 252 4) ∧ admitted Params.t0 (.write 0 4 7) := by
  simp [pend, admitted, Params.t0]

theorem wit_MisalignedOrNarrowAccessIsStuck :
    (∀ q ∈ [(0, 2), (252, 1), (252, 8), (1, 4), (255, 4)], q.1 < 256 ∧ (q.2 ≠ 4 ∨ q.1 % 4 ≠ 0) ∧
      (pend (.read q.1 q.2)).bus = .read ((pend (.read q.1 q.2)).cfg.fcBase + q.1) q.2 :: [] ∧
      (pend (.write q.1 q.2 7)).bus = .write ((pend (.write q.1 q.2 7)).cfg.fcBase + q.1) q.2 7 :: []) := by
  decide +kernel

/-- The offset of every clause, at both ends of the OP and RES ranges and of the unmapped range. -/
theorem wit_HostReadReturnsTheMappedRegister :
    ∀ off ∈ [0x00, 0x04, 0x08, 0x0C, 0x10, 0x14, 0x18, 0x20 + 4 * ((0 : Fin 8) : Nat), 0x20 + 4 * ((7 : Fin 8) : Nat),
        0x40 + 4 * ((0 : Fin 4) : Nat), 0x40 + 4 * ((3 : Fin 4) : Nat), 0x1C, 0x50, 0xFC],
      off < 256 ∧ off % 4 = 0 ∧ (pend (.read off 4)).bus = .read ((pend (.read off 4)).cfg.fcBase + off) 4 :: [] := by
  decide +kernel

theorem wit_HostWriteStoresOperandOrIsIgnored :
    (∀ off ∈ [0x20 + 4 * ((0 : Fin 8) : Nat), 0x20 + 4 * ((7 : Fin 8) : Nat), 0x04, 0x1C, 0x40, 0xFC],
      off < 256 ∧ off % 4 = 0 ∧
      (pend (.write off 4 5)).bus = .write ((pend (.write off 4 5)).cfg.fcBase + off) 4 5 :: []) ∧
    ∀ off ∈ [0x04, 0x1C, 0x40, 0xFC], off ≠ 0 ∧ (off < 0x20 ∨ 0x40 ≤ off) := by decide +kernel

/-- The least and the greatest legal parameters (R11). -/
def least : Params :=
  { Params.t0 with avgCap := 1, giirCap := 1, firMax := 1, niAvg := 1, niLo := 1, niGiir := 1, niFir := 1, p := 0 }
def greatest : Params :=
  { Params.t0 with
    avgCap := 65535, giirCap := 65535, firMax := 32767, niAvg := 16, niLo := 16, niGiir := 16, niFir := 16, p := 30
    coefRound := .nearest, fcBase := 0x100 }

theorem wit_ConstantRegisterFields : Params.t0.Legal ∧ least.Legal ∧ greatest.Legal := by decide
theorem wit_ResetMeetsTheInvariant : Params.t0.Legal ∧ least.Legal ∧ greatest.Legal := by decide

theorem wit_SoftAndPlatformReset : (pend .reset).bus = .reset :: [] := rfl

theorem wit_ErrorChangesOnlyStatus :
    exec (.avgProc 0) State.reset = .next (State.reset.raise .range) ∧ (State.reset.raise .range).last ≠ .ok :=
  ⟨rfl, by decide⟩

/-- A command that keeps ERR, and the two that clear it. -/
theorem wit_SuccessKeepsTheErrorBit :
    (∃ t, exec .nop (State.reset.raise .range) = .next t ∧ t.last = .ok) ∧
    (∃ t, exec .clrstat (State.reset.raise .range) = .next t ∧ t.last = .ok) ∧
    (∃ t, exec .sreset (State.reset.raise .range) = .next t ∧ t.last = .ok) := ⟨⟨_, rfl, rfl⟩, ⟨_, rfl, rfl⟩, _, rfl, rfl⟩

theorem wit_CommandsNeverWriteOperands : Instr.scaleI ≠ .sreset ∧ ∃ t, exec .scaleI State.reset = .next t :=
  ⟨by decide, _, rfl⟩

/-- The register clause at its first register, and the error clause. -/
theorem wit_OnlyNamedResultRegistersChange :
    (Instr.scaleF ≠ .sreset ∧ (∃ t, exec .scaleF State.reset = .next t) ∧ resultCount .scaleF ≤ ((1 : Fin 4) : Nat)) ∧
    (∃ t, exec (.avgProc 0) State.reset = .next t ∧ t.last ≠ .ok) :=
  ⟨⟨by decide, ⟨_, rfl⟩, by decide⟩, _, rfl, by decide⟩

/-- A command of each unit, and one of none. -/
theorem wit_OtherInstancesAreUnchanged :
    ([Instr.avgClr 1, .loClrAll 1, .giirClr 1, .firClr 1, .nop].map unitOf =
      [some .avg, some .lo, some .giir, some .fir, none]) ∧
    (∀ i ∈ [Instr.avgClr 1, .loClrAll 1, .giirClr 1, .firClr 1, .nop], i.WellFormed ∧ i ≠ .sreset) ∧
    (∃ t, exec (.avgClr 1) State.reset = .next t) ∧ (∃ t, exec (.loClrAll 1) State.reset = .next t) ∧
    (∃ t, exec (.giirClr 1) State.reset = .next t) ∧ (∃ t, exec (.firClr 1) State.reset = .next t) ∧
    (∃ t, exec .nop State.reset = .next t) :=
  ⟨by decide +kernel, by decide, ⟨_, rfl⟩, ⟨_, rfl⟩, ⟨_, rfl⟩, ⟨_, rfl⟩, _, rfl⟩

/-- The first instance number past the count, and the last INST value, of each unit. -/
theorem wit_InstanceOutOfRangeEndsWithRange :
    ∀ n ∈ [2, 15], (unitOf (.avgProc n) = some .avg ∧ unitOf (.lp1 n) = some .lo ∧ unitOf (.giirProc n) = some .giir ∧
      unitOf (.firClr n) = some .fir) ∧ (Instr.avgProc n).WellFormed ∧
      (unitCount State.reset.cfg .avg ≤ n ∧ unitCount State.reset.cfg .lo ≤ n ∧ unitCount State.reset.cfg .giir ≤ n ∧
        unitCount State.reset.cfg .fir ≤ n) := by decide +kernel

theorem wit_StepKeepsTheInvariant :
    (pend (.write 0 4 0x00000001#32)).Inv ∧ ∃ t, step (pend (.write 0 4 0x00000001#32)) = .next t :=
  ⟨inv_of (by decide +kernel), _, rfl⟩

/-- The invariant in states that hold history: a designed FIR instance, a configured general IIR, a low-order
instance. -/
theorem wit_StepKeepsTheInvariant_history : ma4.Inv ∧ (giir 0 0).Inv ∧ loState.Inv :=
  ⟨inv_of (by decide +kernel), inv_of (by decide +kernel), inv_of (by decide +kernel)⟩

/-! Average -/

/-- The instance clause, the two ends of the bad and of the good window lengths. -/
theorem wit_AvgProcMeansTheWindow :
    (∀ k, (at4 0 k 0 0).Inv) ∧ State.reset.cfg.niAvg ≤ 2 ∧
    ((at4 0 0 0 0).op[1].toNat < 1 ∧ (at4 0 0 0 0).cfg.avgCap < (at4 0 9 0 0).op[1].toNat) ∧
    (∀ k ∈ [1, 8], let m := BitVec.ofNat 32 k
      (at4 0 m 0 0).avg[1]? = some (.reset .t0) ∧
      1 ≤ (at4 0 m 0 0).op[1].toNat ∧ (at4 0 m 0 0).op[1].toNat ≤ (at4 0 m 0 0).cfg.avgCap) :=
  have h : State.reset.Inv := inv_of (by decide +kernel)
  ⟨fun _ => h, by decide +kernel⟩

theorem wit_AvgRingHoldsTheLastSamples :
    ∃ t A B, (at4 7 8 0 0).Inv ∧ exec (.avgProc 0) (at4 7 8 0 0) = .next t ∧ t.last = .ok ∧
      (at4 7 8 0 0).avg[0]? = some A ∧ t.avg[0]? = some B ∧ 1 ≤ 7 ∧ 7 < (at4 7 8 0 0).cfg.avgCap :=
  ⟨_, _, _, inv_of (by decide +kernel), rfl, rfl, rfl, rfl, by decide, by decide⟩

theorem wit_AvgClrZeroesTheRing : State.reset.cfg.niAvg ≤ 2 ∧ 1 < State.reset.cfg.niAvg := by decide

/-- Three samples 1.0 written, the fourth in OP0: 1.0, 2.0, 3.0 and 4.0 are representable. -/
def steady : State :=
  { at4 0x3F800000#32 4 0 0 with
    avg := [{ buf := [0x3F800000#32, 0x3F800000#32, 0x3F800000#32, 0, 0, 0, 0, 0], cur := 3 }, .reset .t0] }

theorem wit_AvgSteadyStateIsExact :
    (steady.Inv ∧ 0 < steady.cfg.niAvg ∧ steady.avg[0]? = some (steady.avgAt 0) ∧ 1 ≤ steady.op[1].toNat ∧
      steady.op[1].toNat ≤ steady.cfg.avgCap ∧ isFinite steady.op[0] = true ∧
      ∀ i, i < steady.op[1].toNat → 1 ≤ i →
        rd (steady.avgAt 0).buf (((steady.avgAt 0).cur + steady.cfg.avgCap - i) % steady.cfg.avgCap) = steady.op[0]) ∧
    (∀ k, 1 ≤ k → k ≤ steady.op[1].toNat → ∃ p, isFinite p = true ∧ fint p = k * fint steady.op[0]) := by
  refine ⟨⟨inv_of (by decide +kernel), by decide +kernel⟩, fun k h1 h4 => ?_⟩
  have h4 : k ≤ 4 := h4
  obtain rfl | rfl | rfl | rfl : k = 1 ∨ k = 2 ∨ k = 3 ∨ k = 4 := by omega
  · exact ⟨0x3F800000#32, by decide +kernel, by decide +kernel⟩
  · exact ⟨0x40000000#32, by decide +kernel, by decide +kernel⟩
  · exact ⟨0x40400000#32, by decide +kernel, by decide +kernel⟩
  · exact ⟨0x40800000#32, by decide +kernel, by decide +kernel⟩

/-! Low-order filters: fc = 1.0 and fs = TWO_PI_F, so w = 1.0 and a = 2.0; and fc = 0.0, which is refused -/

theorem wit_LoAccepted : LoAccepted loState ∧ ¬ LoAccepted (lo loInst 0 k8) := by unfold LoAccepted; decide +kernel

theorem wit_LoFactorIsChecked :
    IsLoFilter (.lp1 1) 1 ∧ IsLoFilter (.hp3 1) 1 ∧ 1 < loState.cfg.niLo ∧ 1 < (lo loInst 0 k8).cfg.niLo ∧
    LoAccepted loState ∧ ¬ LoAccepted (lo loInst 0 k8) := by unfold IsLoFilter LoAccepted; decide +kernel

theorem wit_LowPassCascades :
    loState.cfg.niLo ≤ 2 ∧ (1 < (lo loInst 0 k8).cfg.niLo ∧ ¬ LoAccepted (lo loInst 0 k8)) ∧
    (0 < loState.cfg.niLo ∧ loState.lo[0]? = some loInst ∧ LoAccepted loState) := by unfold LoAccepted; decide +kernel

theorem wit_HighPassCascades :
    loState.cfg.niLo ≤ 2 ∧ (1 < (lo loInst 0 k8).cfg.niLo ∧ ¬ LoAccepted (lo loInst 0 k8)) ∧
    (0 < loState.cfg.niLo ∧ loState.lo[0]? = some loInst ∧ LoAccepted loState) := by unfold LoAccepted; decide +kernel

theorem wit_LoClrClearsTheSelectedFilters :
    loState.cfg.niLo ≤ 2 ∧ 0 < loState.cfg.niLo ∧ loState.lo[0]? = some loInst := by decide +kernel

/-- Each filter's sections lie between 0 and V = 1.0: the low-pass state of `loState`, and at the lower end the reset
state. -/
theorem wit_LowPassStepResponseIsMonotone :
    (0 < loState.cfg.niLo ∧ loState.lo[0]? = some loInst ∧ loState.lo[1]? = some .reset ∧ LoAccepted loState ∧
      fgt (loA loState) 0x3F800000#32 = true ∧ isFinite loState.op[0] = true) ∧
    (∀ F ∈ [loInst.lp1, loInst.lp2, loInst.lp3, LoFilter.reset],
      isFinite F.s1 = true ∧ isFinite F.s2 = true ∧ isFinite F.s3 = true ∧
      0 ≤ fval F.s3 ∧ fval F.s3 ≤ fval F.s2 ∧ fval F.s2 ≤ fval F.s1 ∧ fval F.s1 ≤ fval loState.op[0]) := by
  unfold LoAccepted; decide +kernel

/-- V in every low-pass section and in OP0. -/
def fixedInst (V : F32) : LoInst :=
  { loInst with
    lp1 := { s1 := V, s2 := 0, s3 := 0, x1 := 0 }
    lp2 := { s1 := V, s2 := V, s3 := 0, x1 := 0 }
    lp3 := { s1 := V, s2 := V, s3 := V, x1 := 0 } }

def atFixed (V : F32) : State :=
  { loState with lo := [fixedInst V, .reset], op := ops V 0x3F800000#32 0x40C90FDB#32 0 }

/-- V = 1.0, and at the edge V = +0.0. -/
theorem wit_LowPassFixedPointIsExact :
    ∀ k ∈ [0x3F800000, 0x00000000], let V := BitVec.ofNat 32 k
      0 < (atFixed V).cfg.niLo ∧ (atFixed V).lo[0]? = some ((atFixed V).loAt 0) ∧ LoAccepted (atFixed V) ∧
      isFinite (atFixed V).op[0] = true ∧ (atFixed V).op[0] ≠ 0x80000000#32 ∧
      ((atFixed V).loAt 0).lp1.s1 = (atFixed V).op[0] ∧
      ((atFixed V).loAt 0).lp2.s1 = (atFixed V).op[0] ∧ ((atFixed V).loAt 0).lp2.s2 = (atFixed V).op[0] ∧
      ((atFixed V).loAt 0).lp3.s1 = (atFixed V).op[0] ∧ ((atFixed V).loAt 0).lp3.s2 = (atFixed V).op[0] ∧
      ((atFixed V).loAt 0).lp3.s3 = (atFixed V).op[0] := by unfold LoAccepted; decide +kernel

/-! General IIR -/

/-- The instance clause, each bad count, and both ends of the good counts. -/
theorem wit_GiirCfgSetsCountsAndClears :
    State.reset.cfg.niGiir ≤ 2 ∧
    ((giir 0 1).op[0].toNat < 1 ∧ (giir 9 1).cfg.giirCap < (giir 9 1).op[0].toNat ∧ (giir 1 0).op[1].toNat < 1 ∧
      (giir 1 9).cfg.giirCap < (giir 1 9).op[1].toNat) ∧
    (∀ k ∈ [1, 8], let m := BitVec.ofNat 32 k
      1 < (giir m m).cfg.niGiir ∧ 1 ≤ (giir m m).op[0].toNat ∧
      (giir m m).op[0].toNat ≤ (giir m m).cfg.giirCap ∧ 1 ≤ (giir m m).op[1].toNat ∧
      (giir m m).op[1].toNat ≤ (giir m m).cfg.giirCap) := by decide +kernel

/-- Unconfigured (instance 1); and for instance 0 with NB = 1, NA = 2 the first bad and the last good index. -/
theorem wit_GiirTapWrites :
    State.reset.cfg.niGiir ≤ 2 ∧ 1 < State.reset.cfg.niGiir ∧ (giir 0 0).giir[0]? = some giirInst ∧
    (giir 0 0).giir[1]? = some (.reset .t0) ∧ ((GiirInst.reset .t0).nb = 0 ∧ (GiirInst.reset .t0).na = 0) ∧
    (giirInst.nb ≠ 0 ∧ giirInst.nb ≤ (giir 1 0).op[0].toNat ∧ (giir 0 0).op[0].toNat < giirInst.nb) ∧
    (giirInst.na ≠ 0 ∧ giirInst.na ≤ (giir 2 0).op[0].toNat ∧ (giir 1 0).op[0].toNat < giirInst.na) := by
  decide +kernel

theorem wit_GiirTapReads :
    State.reset.cfg.niGiir ≤ 2 ∧ 1 < State.reset.cfg.niGiir ∧ (giir 0 0).giir[0]? = some giirInst ∧
    (giir 0 0).giir[1]? = some (.reset .t0) ∧ ((GiirInst.reset .t0).nb = 0 ∧ (GiirInst.reset .t0).na = 0) ∧
    (giirInst.nb ≠ 0 ∧ giirInst.nb ≤ (giir 1 0).op[0].toNat ∧ (giir 0 0).op[0].toNat < giirInst.nb) ∧
    (giirInst.na ≠ 0 ∧ giirInst.na ≤ (giir 2 0).op[0].toNat ∧ (giir 1 0).op[0].toNat < giirInst.na) := by
  decide +kernel

theorem wit_GiirProcFiltersOneSample :
    (giir 7 0).Inv ∧ (giir 7 0).cfg.niGiir ≤ 2 ∧
    ((giir 7 0).giir[1]? = some (.reset .t0) ∧ (GiirInst.reset .t0).nb = 0) ∧
    ((giir 7 0).giir[0]? = some giirInst ∧ giirInst.nb ≠ 0) :=
  ⟨inv_of (by decide +kernel), by decide +kernel⟩

theorem wit_GiirChannelsNeverMix :
    (giir 7 8).Inv ∧ (giir 7 8).cfg.niGiir ≤ 2 ∧
    ((giir 7 8).giir[1]? = some (.reset .t0) ∧ (GiirInst.reset .t0).nb = 0) ∧
    ((giir 7 8).giir[0]? = some giirInst ∧ giirInst.nb ≠ 0) :=
  ⟨inv_of (by decide +kernel), by decide +kernel⟩

theorem wit_GiirClrKeepsCoefficients :
    State.reset.cfg.niGiir ≤ 2 ∧ 0 < (giir 0 0).cfg.niGiir ∧ (giir 0 0).giir[0]? = some giirInst := by decide +kernel

/-- The identity filter on -inf. -/
def identity : State :=
  { at4 0xFF800000#32 0 0 0 with
    giir := [{ GiirInst.reset .t0 with nb := 1, na := 1, b := [0x3F800000#32, 0, 0, 0, 0, 0, 0, 0] }, .reset .t0] }

theorem wit_GiirIdentityFilter :
    identity.Inv ∧ identity.giir[0]? = some (identity.giirAt 0) ∧ (identity.giirAt 0).nb = 1 ∧
    (identity.giirAt 0).na = 1 ∧ rd (identity.giirAt 0).b 0 = 0x3F800000#32 ∧ isNaN identity.op[0] = false :=
  ⟨inv_of (by decide +kernel), by decide +kernel⟩

/-! FIR design -/

/-- Every failing check of R301: N = 0 and 17, N even, a one-tap Hamming window, fs, f1, f2 and f1 = f2. -/
theorem wit_DesignChecksInOrder :
    1 < State.reset.cfg.niFir ∧
    ((at4 0 0 0 0).op[2].toNat < 1 ∧ (at4 0 0 17 0).cfg.firMax < (at4 0 0 17 0).op[2].toNat) ∧
    (FirKind.bp ≠ .ma ∧ 1 ≤ (at4 0 0 16 0).op[2].toNat ∧ (at4 0 0 16 0).op[2].toNat ≤ (at4 0 0 16 0).cfg.firMax ∧
      (at4 0 0 16 0).op[2].toNat % 2 = 0) ∧
    ((at4 0 0 1 0).op[2].toNat = 1 ∧ (at4 0 0 15 0).op[2].toNat % 2 = 1 ∧ (at4 0 0 15 0).op[2].toNat ≠ 1) ∧
    BadFrequency 0#32 ∧ BadFrequency 0x7F800000#32 ∧ BadBand .bs k1 k1 := by
  unfold BadFrequency BadBand; decide +kernel

/-- Both ends of the good orders, and the bad ones. -/
theorem wit_MovingAverageDesign :
    State.reset.cfg.niFir ≤ 2 ∧
    ((at4 0 0 0 0).op[2].toNat < 1 ∧ (at4 0 0 17 0).cfg.firMax < (at4 0 0 17 0).op[2].toNat) ∧
    (∀ k ∈ [1, 16], let N := BitVec.ofNat 32 k
      (at4 0 0 N 0).cfg.Legal ∧ 1 < (at4 0 0 N 0).cfg.niFir ∧
      (at4 0 0 N 0).fir[1]? = some (.reset .t0) ∧ 1 ≤ (at4 0 0 N 0).op[2].toNat ∧
      (at4 0 0 N 0).op[2].toNat ≤ (at4 0 0 N 0).cfg.firMax) := by decide +kernel

/-- A design that commits (five Hamming taps), and one whose only tap does not fit (V-FD-E). -/
theorem wit_SincDesignCommitsEveryTap_accepted :
    (0 < (design k1 k2 5 k8).cfg.niFir ∧ (design k1 k2 5 k8).fir[0]? = some (.reset fsParams)) ∧
    ∀ kind ∈ [FirKind.lp, .hp, .bp, .bs], ∀ w ∈ [Window.rect, .hamm],
      kind ≠ .ma ∧ SincOperands (design k1 k2 5 k8) kind w ∧
      ∀ k, k < (design k1 k2 5 k8).op[2].toNat → TapAccepted (design k1 k2 5 k8) kind w k := by
  unfold SincOperands BadFrequency BadBand TapAccepted; decide +kernel

/-- A one-tap design whose coefficient does not fit 32 bits (P = 9). -/
theorem wit_SincDesignCommitsEveryTap_rejected :
    let s := at4 0x4A895440#32 0 1 0x3F800000#32
    SincOperands s .lp .rect ∧ 0 < s.op[2].toNat ∧ ¬ TapAccepted s .lp .rect 0 := by
  unfold SincOperands BadFrequency BadBand TapAccepted; decide +kernel

theorem wit_LowPassCentreTapIsClosedForm :
    ∃ t, exec (.firLpRect 0) (design k1 0 5 k8) = .next t ∧ t.last = .ok ∧ 0 < (design k1 0 5 k8).cfg.niFir ∧
      t.fir[0]? = some (t.firAt 0) := ⟨after (exec (.firLpRect 0) (design k1 0 5 k8)), rfl, by decide +kernel⟩

theorem wit_RectangularDesignsAreSymmetric :
    (∃ t, exec (designInstr .bp .rect 0) (design k1 k2 5 k8) = .next t ∧ t.last = .ok ∧
      0 < (design k1 k2 5 k8).cfg.niFir ∧ t.fir[0]? = some (t.firAt 0)) ∧
    FirKind.bp ≠ .ma ∧ SinOddFor fsParams k1 k8 5 ∧ SinOddFor fsParams k2 k8 5 ∧
    (0 < (design k1 k2 5 k8).op[2].toNat ∧ 4 < (design k1 k2 5 k8).op[2].toNat) :=
  ⟨⟨after (exec (.firBpRect 0) (design k1 k2 5 k8)), rfl, by decide +kernel⟩, by decide,
    by unfold SinOddFor; decide +kernel, by unfold SinOddFor; decide +kernel, by decide⟩

/-- Not designed (instance 1), the first bad and the last good index of order 4. -/
theorem wit_FirCoefficientReadback :
    ma4.cfg.niFir ≤ 2 ∧ (1 < ma4.cfg.niFir ∧ ma4.fir[1]? = some (.reset .t0) ∧ (FirInst.reset .t0).order = 0) ∧
    (ma4.fir[0]? = some (ma4.firAt 0) ∧ (ma4.firAt 0).order ≠ 0 ∧
      (ma4.firAt 0).order ≤ ({ ma4 with op := ops 4 0 0 0 } : State).op[0].toNat ∧
      ({ ma4 with op := ops 3 0 0 0 } : State).op[0].toNat < (ma4.firAt 0).order) := by decide +kernel

/-! FIR convolution -/

theorem wit_FirProcfConvolves :
    ma4.Inv ∧ ma4.cfg.niFir ≤ 2 ∧ (ma4.fir[1]? = some (.reset .t0) ∧ (FirInst.reset .t0).order = 0) ∧
    (ma4.fir[0]? = some (ma4.firAt 0) ∧ (ma4.firAt 0).order ≠ 0) :=
  ⟨inv_of (by decide +kernel), by decide +kernel⟩

theorem wit_FirProc2ConvolvesTwoChannels :
    ma4.Inv ∧ ma4.cfg.niFir ≤ 2 ∧ (ma4.fir[1]? = some (.reset .t0) ∧ (FirInst.reset .t0).order = 0) ∧
    (ma4.fir[0]? = some (ma4.firAt 0) ∧ (ma4.firAt 0).order ≠ 0) :=
  ⟨inv_of (by decide +kernel), by decide +kernel⟩

/-- An order-4 instance with the fixed-point taps given and every raw sample -2^31. -/
def bigTaps (l : List Int) : State :=
  { ma4 with
    op := ops 0 0x80000000#32 0 0
    fir := [{ ma4.firAt 0 with
      hi := l ++ List.replicate 12 0
      bufR := List.replicate 8 0x80000000#32 ++ List.replicate 24 0 }, .reset .t0] }

/-- The exact sum of the statement. -/
def rawSum (s : State) : Int :=
  let F := s.firAt 0
  let N := F.order
  let c := (F.cur + 1) % N
  let bufR := (F.bufR.set F.cur s.op[1]).set (F.cur + N) s.op[1]
  ((List.range N).map fun k => rdInt F.hi k * (rd bufR ((c + k) % N)).toInt).sum

/-- Overflow in both directions, and the least sum that fits, -2^63. -/
theorem wit_FirProciConvolvesExactly :
    ma4.Inv ∧ (ma4.cfg.niFir ≤ 2 ∧ ma4.fir[1]? = some (.reset .t0) ∧ (FirInst.reset .t0).order = 0) ∧
    (let s := bigTaps [2147483647, 2147483647, 2147483647, 0]
     s.Inv ∧ (s.fir[0]? = some (s.firAt 0) ∧ (s.firAt 0).order ≠ 0) ∧ rawSum s < -2 ^ 63) ∧
    (let s := bigTaps [-2147483648, -2147483648, 0, 0]
     s.Inv ∧ (s.fir[0]? = some (s.firAt 0) ∧ (s.firAt 0).order ≠ 0) ∧ 2 ^ 63 - 1 < rawSum s) ∧
    (let s := bigTaps [2147483647, 2147483647, 2, 0]
     s.Inv ∧ (s.fir[0]? = some (s.firAt 0) ∧ (s.firAt 0).order ≠ 0) ∧ rawSum s = -2 ^ 63) :=
  ⟨inv_of (by decide +kernel), by decide +kernel, ⟨inv_of (by decide +kernel), by decide +kernel⟩,
    ⟨inv_of (by decide +kernel), by decide +kernel⟩, ⟨inv_of (by decide +kernel), by decide +kernel⟩⟩

theorem wit_IndexingPoliciesAgree : ma4.Inv ∧ (bigTaps [2147483647, 2147483647, 2, 0]).Inv :=
  ⟨inv_of (by decide +kernel), inv_of (by decide +kernel)⟩

theorem wit_FirWindowHoldsTheLastSamples :
    ∃ t, ma4.Inv ∧ exec (procfInstr .dbl 0) ma4 = .next t ∧ t.last = .ok ∧ ma4.fir[0]? = some (ma4.firAt 0) ∧
      t.fir[0]? = some (t.firAt 0) ∧ 2 + 1 < (ma4.firAt 0).order :=
  ⟨after (exec (.firProcfDbl 0) ma4), inv_of (by decide +kernel), rfl, by decide +kernel⟩

theorem wit_FirSetconvAndClr :
    ma4.cfg.niFir ≤ 2 ∧ 1 < ma4.cfg.niFir ∧ ma4.fir[1]? = some (.reset .t0) := by decide +kernel

/-! Arithmetic: the greatest finite pattern, the least subnormal, and the other kinds -/

/-- The largest finite value, the least subnormal, both zeros, both infinities. -/
theorem wit_ArithmeticIsCorrectlyRounded :
    (isFinite 0x7F7FFFFF#32 = true ∧ isFinite 0x00000001#32 = true ∧ fval 0x00000001#32 ≠ 0) ∧
    (isFinite 0x80000000#32 = true ∧ fval 0x80000000#32 + fval 0x00000000#32 = 0 ∧
      fval 0x80000000#32 - fval 0x00000000#32 = 0 ∧ fval 0x80000000#32 = 0) ∧
    (isInf 0x7F800000#32 = true ∧ isInf 0xFF800000#32 = true ∧ fsign 0x7F800000#32 ≠ fsign 0xFF800000#32) := by
  decide +kernel

theorem wit_NanResultsAreDrawnQuietNans :
    isNaN 0x7F800001#32 = true ∧ isNaN (fadd 0x7FC00000#32 0x7F800000#32 0xFF800000#32) = true ∧
    isNaN (fsub 0x7FC00000#32 0x7F800000#32 0x7F800000#32) = true ∧
    isNaN (fmul 0x7FC00000#32 0x7F800000#32 0) = true ∧ isNaN (fmul 0x7FC00000#32 0 0xFF800000#32) = true ∧
    isNaN (fdiv 0x7FC00000#32 0 0) = true ∧ isNaN (fdiv 0x7FC00000#32 0x7F800000#32 0xFF800000#32) = true := by
  decide +kernel

theorem wit_ComparisonsAreOrdered :
    isNaN 0x7F800001#32 = true ∧ isFinite 0xFF7FFFFF#32 = true ∧ isFinite 0x7F7FFFFF#32 = true ∧
    isInf 0xFF800000#32 = true ∧ isInf 0x7F800000#32 = true := by decide +kernel

theorem wit_ConversionsRoundAsStated : |(-16777216 : Int)| ≤ 2 ^ 24 ∧ isFinite 0x7F7FFFFF#32 = true := by
  decide +kernel

end Sys2Proof.Tests
end

section
/-! SUPPORT. All a command can do, said once for the whole opcode table: it raises an error code other than OK, or it
commits what the body of its unit answers. -/

namespace Sys2Proof.Machine

/-! ### Through what a command reaches the state -/

/-- How a command reaches the state: whole, through one record of a unit, or through its results alone. -/
inductive Meaning where
  | whole (commit : State → State)
  | avg (n : Nat) (body : State → AvgInst → Except Code (AvgInst × Results))
  | lo (n : Nat) (body : State → LoInst → Except Code (LoInst × Results))
  | giir (n : Nat) (body : State → GiirInst → Except Code (GiirInst × Results))
  | fir (n : Nat) (body : State → FirInst → Except Code (FirInst × Results))
  | plain (body : State → Results)

/-- Running a meaning. -/
def Meaning.run : Meaning → State → Result
  | .whole commit, s => finish s (.ok (commit s))
  | .avg n body, s   => runAvg n body s
  | .lo n body, s    => runLo n body s
  | .giir n body, s  => runGiir n body s
  | .fir n body, s   => runFir n body s
  | .plain body, s   => runPlain body s

/-- The meaning of each command (R135). -/
def meaningOf : Instr → Meaning
  | .nop => .whole id
  | .sreset => .whole fun s => { s.resetEngine with cmd := 0x00000001#32 }
  | .clrstat => .whole fun s => { s with err := false }
  | .avgProc n => .avg n avgProc
  | .avgClr n => .avg n avgClr
  | .lp1 n => .lo n (lpProc .lp1 1)
  | .lp2 n => .lo n (lpProc .lp2 2)
  | .lp3 n => .lo n (lpProc .lp3 3)
  | .hp1 n => .lo n (hpProc .hp1 1)
  | .hp2 n => .lo n (hpProc .hp2 2)
  | .hp3 n => .lo n (hpProc .hp3 3)
  | .loClrAll n => .lo n (loClr [.lp1, .lp2, .lp3, .hp1, .hp2, .hp3])
  | .loClrLp1 n => .lo n (loClr [.lp1])
  | .loClrLp2 n => .lo n (loClr [.lp2])
  | .loClrLp3 n => .lo n (loClr [.lp3])
  | .loClrHp1 n => .lo n (loClr [.hp1])
  | .loClrHp2 n => .lo n (loClr [.hp2])
  | .loClrHp3 n => .lo n (loClr [.hp3])
  | .giirCfg n => .giir n giirCfg
  | .giirSetb n => .giir n giirSetb
  | .giirSeta n => .giir n giirSeta
  | .giirGetb n => .giir n giirGetb
  | .giirGeta n => .giir n giirGeta
  | .giirProc n => .giir n giirProc
  | .giirProc2 n => .giir n giirProc2
  | .giirClr n => .giir n giirClr
  | .firMaRect n => .fir n (firDesign .ma .rect)
  | .firMaHamm n => .fir n (firDesign .ma .hamm)
  | .firLpRect n => .fir n (firDesign .lp .rect)
  | .firLpHamm n => .fir n (firDesign .lp .hamm)
  | .firHpRect n => .fir n (firDesign .hp .rect)
  | .firHpHamm n => .fir n (firDesign .hp .hamm)
  | .firBpRect n => .fir n (firDesign .bp .rect)
  | .firBpHamm n => .fir n (firDesign .bp .hamm)
  | .firBsRect n => .fir n (firDesign .bs .rect)
  | .firBsHamm n => .fir n (firDesign .bs .hamm)
  | .firProcfMod n => .fir n (firProcf .mod)
  | .firProcfBranch n => .fir n (firProcf .branch)
  | .firProcfDbl n => .fir n (firProcf .dbl)
  | .firProciMod n => .fir n (firProci .mod)
  | .firProciBranch n => .fir n (firProci .branch)
  | .firProciDbl n => .fir n (firProci .dbl)
  | .firProc2Mod n => .fir n (firProc2 .mod)
  | .firProc2Branch n => .fir n (firProc2 .branch)
  | .firProc2Dbl n => .fir n (firProc2 .dbl)
  | .firGetcf n => .fir n firGetcf
  | .firGetci n => .fir n firGetci
  | .firSetconv n => .fir n firSetconv
  | .firClr n => .fir n firClr
  | .scaleF => .plain fun s => .one (fmul (s.nans 0) (asF32 s.op[0]) (asF32 s.op[1]))
  | .scaleI => .plain fun s =>
      let r := scaleInt s.op[0] s.op[1] s.op[2]
      .two (low32 r) (high32 r)

/-- The meaning is the command's arm of `exec`. -/
theorem exec_eq_run (i : Instr) (s : State) : exec i s = (meaningOf i).run s := by
  cases i <;> rfl

/-! ### What the bodies answer (R400, R135) -/

/-- Every answer of a meaning's body is an error that is not OK, or `k` results. -/
def Meaning.Answers (k : Nat) : Meaning → Prop
  | .whole _     => k = 0
  | .avg _ body  => ∀ s A, Machine.Answers k (body s A)
  | .lo _ body   => ∀ s L, Machine.Answers k (body s L)
  | .giir _ body => ∀ s G, Machine.Answers k (body s G)
  | .fir _ body  => ∀ s F, Machine.Answers k (body s F)
  | .plain body  => ∀ s, (body s).count = k

theorem meaningOf_answers (i : Instr) : (meaningOf i).Answers (Claims.resultCount i) := by
  cases i with
  | nop | sreset | clrstat => rfl
  | avgProc => exact avgProc_answers
  | avgClr => exact avgClr_answers
  | lp1 | lp2 | lp3 => exact lpProc_answers _ _
  | hp1 | hp2 | hp3 => exact hpProc_answers _ _
  | loClrAll | loClrLp1 | loClrLp2 | loClrLp3 | loClrHp1 | loClrHp2 | loClrHp3 => exact loClr_answers _
  | giirCfg => exact giirCfg_answers
  | giirSetb => exact giirSetb_answers
  | giirSeta => exact giirSeta_answers
  | giirGetb => exact giirGetb_answers
  | giirGeta => exact giirGeta_answers
  | giirProc => exact giirProc_answers
  | giirProc2 => exact giirProc2_answers
  | giirClr => exact giirClr_answers
  | firMaRect | firMaHamm | firLpRect | firLpHamm | firHpRect | firHpHamm | firBpRect | firBpHamm | firBsRect
  | firBsHamm => exact firDesign_answers _ _
  | firProcfMod | firProcfBranch | firProcfDbl => exact firProcf_answers _
  | firProciMod | firProciBranch | firProciDbl => exact firProci_answers _
  | firProc2Mod | firProc2Branch | firProc2Dbl => exact firProc2_answers _
  | firGetcf => exact firGetcf_answers
  | firGetci => exact firGetci_answers
  | firSetconv => exact firSetconv_answers
  | firClr => exact firClr_answers
  | scaleF | scaleI => exact fun _ => rfl

/-! ### All a command can do -/

/-- `u` is what the meaning commits from `s`, before STATUS.LAST is set. -/
def Meaning.Commits (s u : State) : Meaning → Prop
  | .whole commit => u = commit s
  | .avg n body   => n < s.cfg.niAvg ∧ ∃ A r, body s (s.avgAt n) = .ok (A, r) ∧ u = s.setAvg n A r
  | .lo n body    => n < s.cfg.niLo ∧ ∃ L r, body s (s.loAt n) = .ok (L, r) ∧ u = s.setLo n L r
  | .giir n body  => n < s.cfg.niGiir ∧ ∃ G r, body s (s.giirAt n) = .ok (G, r) ∧ u = s.setGiir n G r
  | .fir n body   => n < s.cfg.niFir ∧ ∃ F r, body s (s.firAt n) = .ok (F, r) ∧ u = s.setFir n F r
  | .plain body   => u = { s with res := (body s).write s.res }

theorem Meaning.run_eq_next {m : Meaning} {k : Nat} {s t : State} (hm : m.Answers k) (h : m.run s = .next t) :
    (∃ c, c ≠ .ok ∧ t = s.raise c) ∨ ∃ u, m.Commits s u ∧ t = u.complete := by
  have hrange : Code.range ≠ .ok := by decide
  cases m with
  | whole commit => exact .inr ⟨_, rfl, by simpa [run] using h.symm⟩
  | plain body => exact .inr ⟨_, rfl, by simpa [run, runPlain] using h.symm⟩
  | avg n body =>
    obtain ⟨-, e⟩ | ⟨-, c, hc, e⟩ | ⟨hn, A, r, ho, e⟩ := runAvg_eq_next h
    · exact .inl ⟨_, hrange, e⟩
    · exact .inl ⟨c, (hm _ _).error hc, e⟩
    · exact .inr ⟨_, ⟨hn, A, r, ho, rfl⟩, e⟩
  | lo n body =>
    obtain ⟨-, e⟩ | ⟨-, c, hc, e⟩ | ⟨hn, L, r, ho, e⟩ := runLo_eq_next h
    · exact .inl ⟨_, hrange, e⟩
    · exact .inl ⟨c, (hm _ _).error hc, e⟩
    · exact .inr ⟨_, ⟨hn, L, r, ho, rfl⟩, e⟩
  | giir n body =>
    obtain ⟨-, e⟩ | ⟨-, c, hc, e⟩ | ⟨hn, G, r, ho, e⟩ := runGiir_eq_next h
    · exact .inl ⟨_, hrange, e⟩
    · exact .inl ⟨c, (hm _ _).error hc, e⟩
    · exact .inr ⟨_, ⟨hn, G, r, ho, rfl⟩, e⟩
  | fir n body =>
    obtain ⟨-, e⟩ | ⟨-, c, hc, e⟩ | ⟨hn, F, r, ho, e⟩ := runFir_eq_next h
    · exact .inl ⟨_, hrange, e⟩
    · exact .inl ⟨c, (hm _ _).error hc, e⟩
    · exact .inr ⟨_, ⟨hn, F, r, ho, rfl⟩, e⟩

/-- All a command can do: raise an error code, or commit what its meaning answers (R17, R18). -/
theorem exec_eq_next {i : Instr} {s t : State} (h : exec i s = .next t) :
    (∃ c, c ≠ .ok ∧ t = s.raise c) ∨ ∃ u, (meaningOf i).Commits s u ∧ t = u.complete :=
  Meaning.run_eq_next (meaningOf_answers i) (exec_eq_run i s ▸ h)

/-- What a command commits has STATUS.ERR as it was, but for the two commands that clear it (R18, R381, R382). -/
theorem err_of_commits {i : Instr} {s u : State} (hu : (meaningOf i).Commits s u) :
    u.err = if i = .clrstat ∨ i = .sreset then false else s.err := by
  cases i with
  | nop | sreset | clrstat | scaleF | scaleI => obtain rfl := hu; rfl
  | _ => obtain ⟨-, _, _, -, rfl⟩ := hu; rfl

end Sys2Proof.Machine
end

section
/-! SUPPORT. Every step keeps the invariant of the state: the bodies keep the unit records (`Laws/Invariants.lean`), and
a host access changes none but through a command. -/

namespace Sys2Proof.Machine

/-! ### The invariant speaks of the parameters and the unit records only -/

@[simp] theorem State.inv_raise (s : State) (c : Code) : (s.raise c).Inv ↔ s.Inv := Iff.rfl
@[simp] theorem State.inv_complete (s : State) : s.complete.Inv ↔ s.Inv := Iff.rfl
@[simp] theorem State.inv_nextDraw (s : State) : s.nextDraw.Inv ↔ s.Inv := Iff.rfl

/-- Every copy of a well-formed reset record is well formed. -/
theorem forall_mem_replicate_of {α : Type} {P : α → Prop} {a : α} (n : Nat) (h : P a) : ∀ x ∈ List.replicate n a, P x :=
  fun _ hx => List.eq_of_mem_replicate hx ▸ h

/-- The reset state is well formed for every legal choice of the parameters. -/
theorem State.resetOf_inv {c : Params} (h : c.Legal) : (State.resetOf c).Inv :=
  ⟨h, List.length_replicate, forall_mem_replicate_of _ (AvgInst.reset_inv h.1.1),
    List.length_replicate, forall_mem_replicate_of _ LoInst.reset_inv,
    List.length_replicate, forall_mem_replicate_of _ (GiirInst.reset_inv c),
    List.length_replicate, forall_mem_replicate_of _ (FirInst.reset_inv c)⟩

theorem State.resetEngine_inv {s : State} (h : s.Inv) : s.resetEngine.Inv := State.resetOf_inv h.1

/-! ### One unit record read and written -/

/-- The record a command selects satisfies what all of them do. -/
theorem getD_of_forall_mem {α : Type} {P : α → Prop} {l : List α} {n : Nat} (hn : n < l.length) (h : ∀ x ∈ l, P x)
    (d : α) : P (l.getD n d) := by
  rw [List.getD_eq_getElem _ _ hn]; exact h _ (List.getElem_mem hn)

/-- A well-formed new value of one record leaves all of them well formed. -/
theorem forall_mem_set {α : Type} {P : α → Prop} {l : List α} (n : Nat) {a : α} (ha : P a) (h : ∀ x ∈ l, P x) :
    ∀ x ∈ l.set n a, P x :=
  fun x hx => (List.mem_or_eq_of_mem_set hx).elim (h x) fun e => e ▸ ha

/-- A body keeps its record well formed, in every state with legal parameters. -/
def Meaning.KeepsInv : Meaning → Prop
  | .whole commit => ∀ s : State, s.Inv → (commit s).Inv
  | .avg _ body   => ∀ (s : State) A B r, 1 ≤ s.cfg.avgCap → A.Inv s.cfg → body s A = .ok (B, r) → B.Inv s.cfg
  | .lo _ body    => ∀ s L M r, L.Inv → body s L = .ok (M, r) → M.Inv
  | .giir _ body  => ∀ (s : State) G H r, G.Inv s.cfg → body s G = .ok (H, r) → H.Inv s.cfg
  | .fir _ body   => ∀ (s : State) F G r, F.Inv s.cfg → body s F = .ok (G, r) → G.Inv s.cfg
  | .plain _      => True

theorem meaningOf_keepsInv (i : Instr) : (meaningOf i).KeepsInv := by
  cases i with
  | nop | clrstat => exact fun _ h => h
  | sreset => exact fun s h => State.resetOf_inv (c := s.cfg) h.1
  | avgProc => exact fun _ _ _ _ _ h e => avgProc_inv h e
  | avgClr => exact fun _ _ _ _ hc _ e => avgClr_inv hc e
  | lp1 | lp2 | lp3 => exact fun _ _ _ _ h e => lpProc_inv h (by simp) e
  | hp1 | hp2 | hp3 => exact fun _ _ _ _ h e => hpProc_inv h (by simp) e
  | loClrAll | loClrLp1 | loClrLp2 | loClrLp3 | loClrHp1 | loClrHp2 | loClrHp3 =>
    exact fun _ _ _ _ h e => loClr_inv h e
  | giirCfg => exact fun _ _ _ _ _ e => giirCfg_inv e
  | giirSetb => exact fun _ _ _ _ h e => giirSetb_inv h e
  | giirSeta => exact fun _ _ _ _ h e => giirSeta_inv h e
  | giirGetb => exact fun _ _ _ _ h e => giirGetb_ok e ▸ h
  | giirGeta => exact fun _ _ _ _ h e => giirGeta_ok e ▸ h
  | giirProc => exact fun _ _ _ _ h e => giirProc_inv h e
  | giirProc2 => exact fun _ _ _ _ h e => giirProc2_inv h e
  | giirClr => exact fun _ _ _ _ h e => giirClr_inv h e
  | firMaRect | firMaHamm | firLpRect | firLpHamm | firHpRect | firHpHamm | firBpRect | firBpHamm | firBsRect
  | firBsHamm => exact fun _ _ _ _ _ e => firDesign_inv e
  | firProcfMod | firProcfBranch | firProcfDbl => exact fun _ _ _ _ h e => firProcf_inv h e
  | firProciMod | firProciBranch | firProciDbl => exact fun _ _ _ _ h e => firProci_inv h e
  | firProc2Mod | firProc2Branch | firProc2Dbl => exact fun _ _ _ _ h e => firProc2_inv h e
  | firGetcf => exact fun _ _ _ _ h e => firGetcf_ok e ▸ h
  | firGetci => exact fun _ _ _ _ h e => firGetci_ok e ▸ h
  | firSetconv => exact fun _ _ _ _ h e => firSetconv_inv h e
  | firClr => exact fun _ _ _ _ h e => firClr_inv h e
  | scaleF | scaleI => trivial

theorem Meaning.Commits.inv {m : Meaning} {s u : State} (hm : m.KeepsInv) (h : s.Inv) (hu : m.Commits s u) :
    u.Inv := by
  obtain ⟨hc, a1, a2, l1, l2, g1, g2, f1, f2⟩ := h
  cases m with
  | whole commit => obtain rfl := hu; exact hm s ⟨hc, a1, a2, l1, l2, g1, g2, f1, f2⟩
  | plain body => obtain rfl := hu; exact ⟨hc, a1, a2, l1, l2, g1, g2, f1, f2⟩
  | avg n body =>
    obtain ⟨hn, A, r, ho, rfl⟩ := hu
    have hA : A.Inv s.cfg := hm s _ A r hc.1.1 (getD_of_forall_mem (a1 ▸ hn) a2 _) ho
    exact ⟨hc, (List.length_set ..).trans a1, forall_mem_set n hA a2, l1, l2, g1, g2, f1, f2⟩
  | lo n body =>
    obtain ⟨hn, L, r, ho, rfl⟩ := hu
    have hL : L.Inv := hm s _ L r (getD_of_forall_mem (l1 ▸ hn) l2 _) ho
    exact ⟨hc, a1, a2, (List.length_set ..).trans l1, forall_mem_set n hL l2, g1, g2, f1, f2⟩
  | giir n body =>
    obtain ⟨hn, G, r, ho, rfl⟩ := hu
    have hG : G.Inv s.cfg := hm s _ G r (getD_of_forall_mem (g1 ▸ hn) g2 _) ho
    exact ⟨hc, a1, a2, l1, l2, (List.length_set ..).trans g1, forall_mem_set n hG g2, f1, f2⟩
  | fir n body =>
    obtain ⟨hn, F, r, ho, rfl⟩ := hu
    have hF : F.Inv s.cfg := hm s _ F r (getD_of_forall_mem (f1 ▸ hn) f2 _) ho
    exact ⟨hc, a1, a2, l1, l2, g1, g2, (List.length_set ..).trans f1, forall_mem_set n hF f2⟩

/-! ### Commands, host accesses, steps -/

theorem exec_inv {i : Instr} {s t : State} (h : s.Inv) (e : exec i s = .next t) : t.Inv := by
  obtain ⟨c, -, rfl⟩ | ⟨u, hu, rfl⟩ := exec_eq_next e
  · exact (s.inv_raise c).2 h
  · exact u.inv_complete.2 (hu.inv (meaningOf_keepsInv i) h)

theorem runCommand_inv {w : Word} {s t : State} (h : s.Inv) (e : runCommand w s = .next t) : t.Inv := by
  match hd : decode w with
  | .error c =>
    rw [runCommand_of_error hd] at e
    cases e
    exact h
  | .ok i =>
    rw [runCommand_of_ok hd] at e
    match hx : exec i { s with cmd := w } with
    | .next u =>
      rw [hx] at e
      cases e
      exact u.inv_nextDraw.2 (exec_inv (s := { s with cmd := w }) h hx)
    | .fault _ => rw [hx] at e; cases e
    | .refused _ => rw [hx] at e; cases e

theorem writeReg_inv {r : Reg} {v : Word} {s t : State} (h : s.Inv) (e : s.writeReg r v = .next t) : t.Inv := by
  cases r with
  | cmd => exact runCommand_inv h e
  | op | status | id | rev | cap0 | cap1 | cap2 | res | unmapped => cases e; exact h

/-- All the service of a host action can do (R108, R450). -/
theorem serve_eq_next {a : HostAction} {s t : State} (e : serve a s = .next t) :
    (∃ w, t = { s with readData := w }) ∨ (∃ r v, s.writeReg r v = .next t) ∨ t = s.resetEngine := by
  cases a with
  | reset => cases e; exact .inr (.inr rfl)
  | read addr width =>
    simp only [serve] at e
    split at e <;> cases e
    exact .inl ⟨_, rfl⟩
  | write addr width v =>
    simp only [serve] at e
    split at e
    · cases e
    · exact .inr (.inl ⟨_, v, e⟩)

theorem serve_inv {a : HostAction} {s t : State} (h : s.Inv) (e : serve a s = .next t) : t.Inv := by
  obtain ⟨w, rfl⟩ | ⟨r, v, hw⟩ | rfl := serve_eq_next e
  · exact h
  · exact writeReg_inv h hw
  · exact State.resetEngine_inv h

end Sys2Proof.Machine

namespace Sys2Proof.Proofs

open Machine

/-- Settles O24: a step is idle or serves one host action, and only a command or a reset reaches a unit record. -/
theorem stepKeepsTheInvariant : Obligations.StepKeepsTheInvariant := by
  intro s t h e
  match hb : s.bus with
  | [] => rw [step_nil hb] at e; cases e; exact h
  | a :: rest => rw [step_cons hb] at e; exact serve_inv (s := { s with bus := rest }) h e

/-- Settles O18: `raise` is the only way to a code that is not OK, and it changes STATUS only. -/
theorem errorChangesOnlyStatus : Obligations.ErrorChangesOnlyStatus := by
  intro i s t h hlast
  obtain ⟨c, -, rfl⟩ | ⟨u, -, rfl⟩ := exec_eq_next h
  · rfl
  · exact absurd u.complete_last hlast

/-- Settles O19: a code that is OK was not raised, and what a command commits has the ERR bit as stated. -/
theorem successKeepsTheErrorBit : Obligations.SuccessKeepsTheErrorBit := by
  intro i s t h hlast
  obtain ⟨c, hc, rfl⟩ | ⟨u, hu, rfl⟩ := exec_eq_next h
  · exact absurd hlast hc
  · exact u.complete_err.trans (err_of_commits hu)

end Sys2Proof.Proofs
end

section
/-! SUPPORT. The real values of the patterns: signed magnitudes, the order, and the rounding of a quotient as the
nearest real value. -/

namespace Sys2Proof.Machine

/-! ### Values as signed magnitudes (R20) -/

/-- A value from its sign and its magnitude. -/
def signedVal (neg : Bool) (q : ℚ) : ℚ := if neg then -q else q

@[simp] theorem signedVal_true (q : ℚ) : signedVal true q = -q := rfl
@[simp] theorem signedVal_false (q : ℚ) : signedVal false q = q := rfl

theorem abs_signedVal (neg : Bool) {q : ℚ} (h : 0 ≤ q) : |signedVal neg q| = q := by
  cases neg <;> simp [abs_of_nonneg h]

theorem abs_signedVal_sub (neg : Bool) (p q : ℚ) : |signedVal neg p - signedVal neg q| = |p - q| := by
  cases neg
  · rfl
  · rw [signedVal_true, signedVal_true, ← neg_add', abs_neg, sub_eq_add_neg]

/-- Values of opposite signs are as far apart as their magnitudes together. -/
theorem abs_signedVal_sub_not (neg : Bool) {p q : ℚ} (hp : 0 ≤ p) (hq : 0 ≤ q) :
    |signedVal (!neg) p - signedVal neg q| = p + q := by
  cases neg
  · rw [Bool.not_false, signedVal_true, signedVal_false, ← neg_add', abs_neg, abs_of_nonneg (by positivity)]
  · rw [Bool.not_true, signedVal_false, signedVal_true, sub_neg_eq_add, abs_of_nonneg (by positivity)]

theorem signedVal_mul (x y : Bool) (p q : ℚ) : signedVal x p * signedVal y q = signedVal (x != y) (p * q) := by
  cases x <;> cases y <;> simp

theorem signedVal_div (x y : Bool) (p q : ℚ) : signedVal x p / signedVal y q = signedVal (x != y) (p / q) := by
  cases x <;> cases y <;> simp [neg_div, div_neg]

theorem signedVal_div_right (neg : Bool) (p q : ℚ) : signedVal neg p / q = signedVal neg (p / q) := by
  cases neg <;> simp [neg_div]

theorem signedVal_lt_zero (neg : Bool) {q : ℚ} (h : 0 < q) : signedVal neg q < 0 ↔ neg = true := by
  cases neg <;> simp [h, h.le]

/-- The real magnitude with bits `m`. -/
def magVal (m : Nat) : ℚ := (magUnits m : ℚ) / 2 ^ 149

theorem magVal_nonneg (m : Nat) : 0 ≤ magVal m := by unfold magVal; positivity

@[simp] theorem magVal_zero : magVal 0 = 0 := by simp [magVal]

theorem fval_eq (a : F32) : fval a = signedVal (fsign a) (magVal (fmag a)) := by
  unfold fval fint signedVal magVal
  rw [funits_eq]
  split
  · push_cast; rw [neg_div]
  · push_cast; rfl

theorem fval_fpack (neg : Bool) {m : Nat} (h : m < 2 ^ 31) : fval (fpack neg m) = signedVal neg (magVal m) := by
  rw [fval_eq, fsign_fpack _ h, fmag_fpack _ h]

@[simp] theorem fval_fneg (a : F32) : fval (fneg a) = -fval a := by
  unfold fval; rw [fint_fneg]; push_cast; rw [neg_div]

theorem fval_add (a b : F32) : fval a + fval b = ((fint a + fint b : Int) : ℚ) / 2 ^ 149 := by
  unfold fval; push_cast; rw [add_div]

/-- A pattern stands for 0 exactly when it is a zero. -/
theorem fval_eq_zero {a : F32} : fval a = 0 ↔ isZero a = true := by
  have h : fval a = 0 ↔ fint a = 0 := by simp [fval]
  rw [h, isZero_iff, fint]
  split <;> omega

/-! ### The order (R25) -/

/-- `forder` orders the patterns as their values. -/
theorem forder_lt_forder (a b : F32) : forder a < forder b ↔ fval a < fval b := by
  have hlt : fmag a < fmag b ↔ magUnits (fmag a) < magUnits (fmag b) := magUnits_lt_iff.symm
  have hgt : fmag b < fmag a ↔ magUnits (fmag b) < magUnits (fmag a) := magUnits_lt_iff.symm
  have ha : fmag a = 0 ↔ magUnits (fmag a) = 0 := magUnits_eq_zero.symm
  have hb : fmag b = 0 ↔ magUnits (fmag b) = 0 := magUnits_eq_zero.symm
  have hv : fval a < fval b ↔ fint a < fint b := by
    unfold fval
    rw [div_lt_div_iff_of_pos_right (by positivity), Int.cast_lt]
  rw [hv]
  unfold forder fint
  rw [funits_eq, funits_eq]
  split <;> split <;> omega

theorem flt_of_isNaN {a b : F32} (h : isNaN a = true ∨ isNaN b = true) : flt a b = false := by
  unfold flt; rcases h with h | h <;> simp [h]

theorem flt_eq {a b : F32} (ha : isNaN a = false) (hb : isNaN b = false) : flt a b = decide (forder a < forder b) := by
  simp [flt, ha, hb]

theorem isInf_iff (a : F32) : isInf a = true ↔ fmag a = infMag := by simp [isInf]

theorem isNaN_of_isInf {a : F32} (h : isInf a = true) : isNaN a = false := by
  rw [isInf_iff] at h; simp [isNaN, h]

theorem forder_of_isInf {a : F32} (h : isInf a = true) : forder a = if fsign a then -(infMag : Int) else infMag := by
  rw [forder, (isInf_iff a).1 h]

/-- Every finite value stands between the two infinities. -/
theorem abs_forder_lt {a : F32} (h : isFinite a = true) : -(infMag : Int) < forder a ∧ forder a < infMag := by
  rw [isFinite_iff] at h
  unfold forder
  split <;> omega

/-- A finite value is below the infinity of positive sign only, and above the one of negative sign only. -/
theorem flt_inf {a b : F32} (ha : isFinite a = true) (hb : isInf b = true) :
    flt a b = !fsign b ∧ flt b a = fsign b := by
  obtain ⟨h1, h2⟩ := abs_forder_lt ha
  rw [flt_eq (isNaN_of_isFinite ha) (isNaN_of_isInf hb), flt_eq (isNaN_of_isInf hb) (isNaN_of_isFinite ha),
    forder_of_isInf hb]
  cases fsign b
  · simp [h2, h2.le]
  · simp [h1, h1.le]

theorem flt_inf_inf {a b : F32} (ha : isInf a = true) (hb : isInf b = true) : flt a b = (fsign a && !fsign b) := by
  rw [flt_eq (isNaN_of_isInf ha) (isNaN_of_isInf hb), forder_of_isInf ha, forder_of_isInf hb]
  cases fsign a <;> cases fsign b <;> decide

/-! ### Rounding to the nearest value (R21, R22) -/

/-- `n / d` units of 2^-149 as a real number. -/
def unitsVal (n d : Nat) : ℚ := (n : ℚ) / d / 2 ^ 149

theorem unitsVal_nonneg (n d : Nat) : 0 ≤ unitsVal n d := by unfold unitsVal; positivity

theorem magVal_sub_unitsVal (m n : Nat) {d : Nat} (hd : 0 < d) :
    |magVal m - unitsVal n d| = (|(magUnits m * d : Int) - n| : Int) / (d * 2 ^ 149 : ℚ) := by
  have hd' : (0 : ℚ) < d := by exact_mod_cast hd
  have e : magVal m - unitsVal n d = ((magUnits m * d : Int) - n : Int) / (d * 2 ^ 149 : ℚ) := by
    unfold magVal unitsVal
    push_cast
    field_simp
  rw [e, abs_div, abs_of_pos (by positivity : (0 : ℚ) < d * 2 ^ 149), Int.cast_abs]

/-- No magnitude is nearer to the exact one than the rounded one; one as near makes the last bit 0. -/
theorem magVal_roundPat_nearest (n : Nat) {d : Nat} (hd : 0 < d) (m : Nat) :
    |magVal (roundPat n d) - unitsVal n d| ≤ |magVal m - unitsVal n d| ∧
    (|magVal m - unitsVal n d| = |magVal (roundPat n d) - unitsVal n d| → m ≠ roundPat n d →
      roundPat n d % 2 = 0) := by
  obtain ⟨hle, htie⟩ := roundPat_nearest n hd m
  have hpos : (0 : ℚ) < d * 2 ^ 149 := by positivity
  rw [magVal_sub_unitsVal _ _ hd, magVal_sub_unitsVal _ _ hd]
  constructor
  · rw [div_le_div_iff_of_pos_right hpos, Int.cast_le]; exact hle
  · rw [div_left_inj' hpos.ne', Int.cast_inj]; exact htie

/-- The magnitudes that round to an infinity (R22). -/
theorem infMag_le_roundPat_iff_unitsVal (n : Nat) {d : Nat} (hd : 0 < d) :
    infMag ≤ roundPat n d ↔ 2 ^ 128 - 2 ^ 103 ≤ unitsVal n d := by
  have hd' : (0 : ℚ) < d := by exact_mod_cast hd
  rw [infMag_le_roundPat_iff n hd, unitsVal, le_div_iff₀ (by positivity), le_div_iff₀ hd', ← Nat.cast_le (α := ℚ)]
  push_cast
  norm_num
  ring_nf

theorem toNat_fpack_mod_two (neg : Bool) {m : Nat} (h : m < 2 ^ 31) : (fpack neg m).toNat % 2 = m % 2 := by
  rw [toNat_eq, fmag_fpack _ h, fsign_fpack _ h]
  split <;> omega

/-- A finite rounding is a nearest finite value, with the last bit 0 in a tie. -/
theorem fval_fpack_roundPat_nearest (neg : Bool) (n : Nat) {d : Nat} (hd : 0 < d) (hfin : roundPat n d < infMag)
    (b : F32) :
    |fval (fpack neg (roundPat n d)) - signedVal neg (unitsVal n d)| ≤ |fval b - signedVal neg (unitsVal n d)| ∧
    (|fval b - signedVal neg (unitsVal n d)| = |fval (fpack neg (roundPat n d)) - signedVal neg (unitsVal n d)| →
      fval b ≠ fval (fpack neg (roundPat n d)) → (fpack neg (roundPat n d)).toNat % 2 = 0) := by
  have h31 : roundPat n d < 2 ^ 31 := hfin.trans (by unfold infMag; norm_num)
  have hq := unitsVal_nonneg n d
  have hb := magVal_nonneg (fmag b)
  rw [toNat_fpack_mod_two _ h31, fval_fpack _ h31, abs_signedVal_sub, fval_eq b]
  by_cases hs : fsign b = neg
  · obtain ⟨hle, htie⟩ := magVal_roundPat_nearest n hd (fmag b)
    rw [hs, abs_signedVal_sub]
    exact ⟨hle, fun he hne => htie he fun hm => hne (by rw [hm])⟩
  · -- a value of the other sign is no nearer than 0 is
    obtain ⟨hle, htie⟩ := magVal_roundPat_nearest n hd 0
    have hs' : fsign b = !neg := by cases hb' : fsign b <;> cases neg <;> simp_all
    rw [hs', abs_signedVal_sub_not neg hb hq]
    rw [magVal_zero, zero_sub, abs_neg, abs_of_nonneg hq] at hle htie
    refine ⟨by linarith, fun he _ => ?_⟩
    by_cases h0 : roundPat n d = 0
    · rw [h0]
    · exact htie (by linarith) (Ne.symm h0)

/-- The one rounding function rounds correctly (R21, R22). -/
theorem roundedTo_fpack (neg : Bool) (n : Nat) {d : Nat} (hd : 0 < d) :
    Claims.RoundedTo (signedVal neg (unitsVal n d)) (fpack neg (roundMag n d)) := by
  unfold Claims.RoundedTo
  rw [abs_signedVal neg (unitsVal_nonneg n d), roundMag_eq_min]
  by_cases hov : infMag ≤ roundPat n d
  · have hlarge := (infMag_le_roundPat_iff_unitsVal n hd).1 hov
    have h31 : infMag < 2 ^ 31 := by decide
    rw [if_pos hlarge, min_eq_right hov, isInf_iff, fmag_fpack _ h31, fsign_fpack _ h31]
    exact ⟨rfl, (signedVal_lt_zero neg (lt_of_lt_of_le (by norm_num) hlarge)).symm⟩
  · have hfin := Nat.lt_of_not_le hov
    rw [if_neg fun h => hov ((infMag_le_roundPat_iff_unitsVal n hd).2 h), min_eq_left hfin.le, isFinite_iff,
      fmag_fpack _ (hfin.trans (by decide))]
    exact ⟨hfin, fun b _ => fval_fpack_roundPat_nearest neg n hd hfin b⟩

end Sys2Proof.Machine
end

section
/-! SUPPORT. What the four operations, the comparisons and the conversions answer on each kind of operand. -/

namespace Sys2Proof.Machine

/-! ### Infinities and zeros as results -/

theorem isInf_fpack_infMag (neg : Bool) : isInf (fpack neg infMag) = true := by
  rw [isInf_iff, fmag_fpack _ (by decide)]

theorem fsign_fpack_infMag (neg : Bool) : fsign (fpack neg infMag) = neg := fsign_fpack _ (by decide)

theorem isZero_fpack_zero (neg : Bool) : isZero (fpack neg 0) = true := by
  rw [isZero, fmag_fpack _ (by norm_num), beq_self_eq_true]

theorem isZero_of_isInf {a : F32} (h : isInf a = true) : isZero a = false := by
  rw [isInf_iff] at h; rw [isZero, h]; decide

theorem isFinite_of_isZero {a : F32} (h : isZero a = true) : isFinite a = true := by
  rw [isFinite_iff, beq_iff_eq.1 h]; decide

/-! ### Finite operands (R21, R22) -/

theorem int_eq_signedVal (v : Int) : (v : ℚ) = signedVal (decide (v < 0)) v.natAbs := by
  rw [Nat.cast_natAbs, Int.cast_abs]
  by_cases h : v < 0
  · rw [decide_eq_true h, signedVal_true, abs_of_neg (Int.cast_lt_zero.2 h), neg_neg]
  · rw [decide_eq_false h, signedVal_false, abs_of_nonneg (Int.cast_nonneg (Int.not_lt.1 h))]

/-- An integer number of units as a signed rational one. -/
theorem int_div_eq_signedVal (v : Int) :
    (v : ℚ) / 2 ^ 149 = signedVal (decide (v < 0)) (unitsVal v.natAbs 1) := by
  conv_lhs => rw [int_eq_signedVal]
  rw [signedVal_div_right, unitsVal, Nat.cast_one, div_one]

/-- Either zero is 0 rounded. -/
theorem roundedTo_zero (neg : Bool) : Claims.RoundedTo 0 (fpack neg 0) := by
  have h := roundedTo_fpack neg 0 Nat.one_pos
  have h0 : signedVal neg (unitsVal 0 1) = 0 := by cases neg <;> simp [unitsVal]
  rwa [h0, roundMag_zero Nat.one_pos] at h

section Finite

variable {nan a b : F32} (ha : isFinite a = true) (hb : isFinite b = true)

include ha hb

theorem fadd_rounded : Claims.RoundedTo (fval a + fval b) (fadd nan a b) := by
  rw [fval_add, fadd_finite ha hb]
  split
  · rename_i h0; rw [h0, Int.cast_zero, zero_div]; exact roundedTo_zero _
  · rw [int_div_eq_signedVal]; exact roundedTo_fpack _ _ Nat.one_pos

theorem fsub_rounded : Claims.RoundedTo (fval a - fval b) (fsub nan a b) := by
  rw [sub_eq_add_neg, ← fval_fneg]
  exact fadd_rounded ha (by rwa [isFinite_fneg])

theorem fmul_rounded : Claims.RoundedTo (fval a * fval b) (fmul nan a b) := by
  have e : magVal (fmag a) * magVal (fmag b) = unitsVal (funits a * funits b) (2 ^ 149) := by
    unfold magVal unitsVal
    rw [funits_eq, funits_eq]
    push_cast
    ring
  rw [fval_eq, fval_eq, signedVal_mul, e, fmul_finite ha hb]
  exact roundedTo_fpack _ _ (by positivity)

theorem fdiv_rounded (h0 : fval b ≠ 0) : Claims.RoundedTo (fval a / fval b) (fdiv nan a b) := by
  have hu : 0 < funits b := Nat.pos_of_ne_zero fun h => h0 (fval_eq_zero.2 ((isZero_iff b).2 h))
  have e : magVal (fmag a) / magVal (fmag b) = unitsVal (funits a * 2 ^ 149) (funits b) := by
    unfold magVal unitsVal
    rw [funits_eq, funits_eq]
    push_cast
    ring
  rw [fval_eq, fval_eq, signedVal_div, e, fdiv_finite ha hb hu]
  exact roundedTo_fpack _ _ hu

/-- A zero sum is negative only if both operands are. -/
theorem fsign_fadd_of_sum_zero (h : fval a + fval b = 0) : fsign (fadd nan a b) = (fsign a && fsign b) := by
  have h0 : fint a + fint b = 0 := by
    rw [fval_add, div_eq_zero_iff] at h
    exact_mod_cast h.resolve_right (by positivity)
  rw [fadd_finite ha hb, if_pos h0, fsign_fpack _ (by norm_num)]

theorem fsign_fsub_of_difference_zero (h : fval a - fval b = 0) : fsign (fsub nan a b) = (fsign a && !fsign b) := by
  rw [sub_eq_add_neg, ← fval_fneg] at h
  rw [fsub, fsign_fadd_of_sum_zero ha (by rwa [isFinite_fneg]) h, fsign_fneg]

theorem fsign_fmul_finite : fsign (fmul nan a b) = (fsign a != fsign b) := by
  rw [fmul_finite ha hb, fsign_fpack _ (roundMag_lt _ _)]

theorem fsign_fdiv_finite (h0 : fval b ≠ 0) : fsign (fdiv nan a b) = (fsign a != fsign b) := by
  have hu : 0 < funits b := Nat.pos_of_ne_zero fun h => h0 (fval_eq_zero.2 ((isZero_iff b).2 h))
  rw [fdiv_finite ha hb hu, fsign_fpack _ (roundMag_lt _ _)]

/-- A nonzero finite value over a zero is an infinity. -/
theorem fdiv_by_zero (ha0 : fval a ≠ 0) (hb0 : fval b = 0) : fdiv nan a b = fpack (fsign a != fsign b) infMag := by
  have hz : isZero a = false := by rw [← Bool.not_eq_true]; exact fun h => ha0 (fval_eq_zero.2 h)
  simp [fdiv, isNaN_of_isFinite ha, isNaN_of_isFinite hb, isInf_of_isFinite ha, isInf_of_isFinite hb, hz,
    fval_eq_zero.1 hb0]

end Finite

/-! ### Infinite operands (R21, R22) -/

section Infinite

variable {nan a b : F32} (ha : isInf a = true)

include ha

theorem fadd_inf_finite (hb : isFinite b = true) : fadd nan a b = a := by
  simp [fadd, isNaN_of_isInf ha, isNaN_of_isFinite hb, ha, isInf_of_isFinite hb]

theorem fadd_finite_inf (hb : isFinite b = true) : fadd nan b a = a := by
  simp [fadd, isNaN_of_isInf ha, isNaN_of_isFinite hb, ha, isInf_of_isFinite hb]

theorem fadd_inf_inf (hb : isInf b = true) (hs : fsign a = fsign b) : fadd nan a b = a := by
  simp [fadd, isNaN_of_isInf ha, isNaN_of_isInf hb, ha, hs]

theorem fmul_inf (hb : isNaN b = false) (h0 : isZero b = false) :
    fmul nan a b = fpack (fsign a != fsign b) infMag := by
  simp [fmul, isNaN_of_isInf ha, hb, ha, isZero_of_isInf ha, h0]

theorem fdiv_inf_finite (hb : isFinite b = true) : fdiv nan a b = fpack (fsign a != fsign b) infMag := by
  simp [fdiv, isNaN_of_isInf ha, isNaN_of_isFinite hb, ha, isInf_of_isFinite hb]

theorem fdiv_finite_inf (hb : isFinite b = true) : fdiv nan b a = fpack (fsign b != fsign a) 0 := by
  simp [fdiv, isNaN_of_isInf ha, isNaN_of_isFinite hb, ha, isInf_of_isFinite hb]

end Infinite

/-! ### NaN results (R24) -/

section NaNResults

variable {nan a b : F32}

theorem fadd_eq_nan
    (h : isNaN a = true ∨ isNaN b = true ∨ (isInf a = true ∧ isInf b = true ∧ fsign a ≠ fsign b)) :
    fadd nan a b = nan := by
  rcases h with h | h | ⟨h1, h2, h3⟩
  · simp [fadd, h]
  · simp [fadd, h]
  · simp [fadd, h1, h2, h3]

theorem isNaN_fadd (h : isNaN (fadd nan a b) = true) :
    isNaN a = true ∨ isNaN b = true ∨ (isInf a = true ∧ isInf b = true ∧ fsign a ≠ fsign b) := by
  unfold fadd at h
  dsimp only at h
  split_ifs at h with hn hi hj hj hv
  · exact or_assoc.1 (.inl (Bool.or_eq_true _ _ ▸ hn))
  · exact .inr (.inr ⟨hi, by simpa using hj⟩)
  · exact .inl h
  · exact .inr (.inl h)
  · rw [isNaN_fpack _ (Nat.zero_le _)] at h; cases h
  · rw [isNaN_fpack _ (roundMag_le_infMag _ _)] at h; cases h

theorem fmul_eq_nan
    (h : isNaN a = true ∨ isNaN b = true ∨
      ((isZero a = true ∧ isInf b = true) ∨ (isInf a = true ∧ isZero b = true))) : fmul nan a b = nan := by
  rcases h with h | h | ⟨h1, h2⟩ | ⟨h1, h2⟩
  · simp [fmul, h]
  · simp [fmul, h]
  · simp [fmul, h1, h2]
  · simp [fmul, h1, h2]

theorem isNaN_fmul (h : isNaN (fmul nan a b) = true) :
    isNaN a = true ∨ isNaN b = true ∨
      ((isZero a = true ∧ isInf b = true) ∨ (isInf a = true ∧ isZero b = true)) := by
  unfold fmul at h
  split_ifs at h with hn hi hz
  · exact or_assoc.1 (.inl (Bool.or_eq_true _ _ ▸ hn))
  · -- an infinity is no zero, so the zero is the other operand
    refine .inr (.inr ?_)
    have hab : ¬ (isInf a = true ∧ isZero a = true) := fun h => by rw [isZero_of_isInf h.1] at h; cases h.2
    have hba : ¬ (isInf b = true ∧ isZero b = true) := fun h => by rw [isZero_of_isInf h.1] at h; cases h.2
    rw [Bool.or_eq_true] at hi hz
    tauto
  · rw [isNaN_fpack _ le_rfl] at h; cases h
  · rw [isNaN_fpack _ (roundMag_le_infMag _ _)] at h; cases h

theorem fdiv_eq_nan
    (h : isNaN a = true ∨ isNaN b = true ∨
      ((isZero a = true ∧ isZero b = true) ∨ (isInf a = true ∧ isInf b = true))) : fdiv nan a b = nan := by
  rcases h with h | h | ⟨h1, h2⟩ | ⟨h1, h2⟩
  · simp [fdiv, h]
  · simp [fdiv, h]
  · simp [fdiv, h1, h2, isInf_of_isFinite (isFinite_of_isZero h1), isInf_of_isFinite (isFinite_of_isZero h2)]
  · simp [fdiv, h1, h2]

theorem isNaN_fdiv (h : isNaN (fdiv nan a b) = true) :
    isNaN a = true ∨ isNaN b = true ∨
      ((isZero a = true ∧ isZero b = true) ∨ (isInf a = true ∧ isInf b = true)) := by
  unfold fdiv at h
  split_ifs at h with hn hi hj hj hb hz
  · exact or_assoc.1 (.inl (Bool.or_eq_true _ _ ▸ hn))
  · exact .inr (.inr (.inr ⟨hi, hj⟩))
  · rw [isNaN_fpack _ le_rfl] at h; cases h
  · rw [isNaN_fpack _ (Nat.zero_le _)] at h; cases h
  · exact .inr (.inr (.inl ⟨hz, hb⟩))
  · rw [isNaN_fpack _ le_rfl] at h; cases h
  · rw [isNaN_fpack _ (roundMag_le_infMag _ _)] at h; cases h

end NaNResults

/-- Every drawn NaN is a quiet one: exponent all ones, quiet bit set (log 3). -/
theorem isQuietNaN_quietNaN (d : BitVec 23) : isQuietNaN (quietNaN d) = true := by
  have hp := (d.extractLsb' 0 22).isLt
  have hexp : fexp (quietNaN d) = 255 := by
    rw [fexp, fmag_quietNaN]; unfold infMag; omega
  have hbit : (quietNaN d).getLsbD 22 = true := by
    rw [quietNaN, BitVec.getLsbD_append, BitVec.getLsbD_append]; rfl
  rw [isQuietNaN, hexp, hbit]; rfl

theorem freeNaNs_quiet (draw : Nat) : (freeNaNs draw).Quiet := fun k => isQuietNaN_quietNaN (Config.freeNaN draw k)

/-! ### Conversions (R26) -/

/-- A whole number of times 2^149 units is that number. -/
theorem natCast_units_div (k : Nat) : ((k * 2 ^ 149 : Nat) : ℚ) / 2 ^ 149 = k := by
  rw [Nat.cast_mul, Nat.cast_pow, Nat.cast_ofNat, mul_div_cancel_right₀ _ (by positivity)]

theorem i2f_rounded (n : Int) : Claims.RoundedTo n (i2f n) := by
  have e : unitsVal (n.natAbs * 2 ^ 149) 1 = n.natAbs := by
    rw [unitsVal, Nat.cast_one, div_one, natCast_units_div]
  rw [int_eq_signedVal, ← e]
  exact roundedTo_fpack _ _ Nat.one_pos

/-- `i2f` is exact up to 2^24. -/
theorem fval_i2f {n : Int} (h : |n| ≤ 2 ^ 24) : fval (i2f n) = n := by
  have hn : n.natAbs ≤ 2 ^ 24 := by rw [Int.abs_eq_natAbs] at h; omega
  rw [i2f, fval_fpack _ (roundMag_lt _ _), magVal, magUnits_roundMag_nat hn, natCast_units_div, ← int_eq_signedVal]

/-- The value of `f2i` with its sign and magnitude. -/
theorem f2i_cast (r : CoefRound) (a : F32) : ((f2i r a : Int) : ℚ) = signedVal (fsign a) (truncMag r a) := by
  unfold f2i signedVal
  split <;> push_cast <;> rfl

/-- A conversion never changes the sign. -/
theorem f2i_mul_fval_nonneg (r : CoefRound) (a : F32) : 0 ≤ ((f2i r a : Int) : ℚ) * fval a := by
  rw [f2i_cast, fval_eq, signedVal_mul, bne_self_eq_false, signedVal_false]
  exact mul_nonneg (Nat.cast_nonneg _) (magVal_nonneg _)

theorem abs_f2i (r : CoefRound) (a : F32) : |((f2i r a : Int) : ℚ)| = truncMag r a := by
  rw [f2i_cast, abs_signedVal _ (Nat.cast_nonneg _)]

theorem abs_fval (a : F32) : |fval a| = magVal (fmag a) := by rw [fval_eq, abs_signedVal _ (magVal_nonneg _)]

/-- TRUNC: the greatest integer magnitude not above the exact one. -/
theorem truncMag_trunc (a : F32) :
    (truncMag .trunc a : ℚ) ≤ magVal (fmag a) ∧ magVal (fmag a) < truncMag .trunc a + 1 := by
  have h1 : truncMag .trunc a * 2 ^ 149 ≤ funits a := Nat.div_mul_le_self _ _
  have h2 : funits a < (truncMag .trunc a + 1) * 2 ^ 149 := Nat.lt_mul_of_div_lt (Nat.lt_succ_self _) (by positivity)
  rw [funits_eq] at h1 h2
  unfold magVal
  rw [le_div_iff₀ (by positivity), div_lt_iff₀ (by positivity)]
  exact ⟨by exact_mod_cast h1, by exact_mod_cast h2⟩

/-- NEAREST: the greatest integer magnitude not above the exact one plus a half. -/
theorem truncMag_nearest (a : F32) :
    (truncMag .nearest a : ℚ) ≤ magVal (fmag a) + 1 / 2 ∧ magVal (fmag a) + 1 / 2 < truncMag .nearest a + 1 := by
  have h1 : truncMag .nearest a * 2 ^ 150 ≤ 2 * funits a + 2 ^ 149 := Nat.div_mul_le_self _ _
  have h2 : 2 * funits a + 2 ^ 149 < (truncMag .nearest a + 1) * 2 ^ 150 :=
    Nat.lt_mul_of_div_lt (Nat.lt_succ_self _) (by positivity)
  have e : magVal (fmag a) + 1 / 2 = ((2 * funits a + 2 ^ 149 : Nat) : ℚ) / 2 ^ 150 := by
    unfold magVal
    rw [funits_eq]
    push_cast
    ring
  rw [e, le_div_iff₀ (by positivity), div_lt_iff₀ (by positivity)]
  exact ⟨by exact_mod_cast h1, by exact_mod_cast h2⟩

end Sys2Proof.Machine

namespace Sys2Proof.Proofs

open Machine

/-- Settles O56: each finite result is `roundMag` of the exact quotient, and `roundMag` rounds correctly; the infinite
operands are read off the definitions. -/
theorem arithmeticIsCorrectlyRounded : Obligations.ArithmeticIsCorrectlyRounded := by
  intro nan a b
  refine ⟨fun ha hb => ?_, fun ha hb => ?_, fun ha hb => ?_⟩
  · have hz : fval a ≠ 0 → fval b = 0 →
        isInf (fdiv nan a b) = true ∧ fsign (fdiv nan a b) = (fsign a != fsign b) := fun ha0 hb0 => by
      rw [fdiv_by_zero ha hb ha0 hb0]
      exact ⟨isInf_fpack_infMag _, fsign_fpack_infMag _⟩
    exact ⟨fadd_rounded ha hb, fsub_rounded ha hb, fmul_rounded ha hb, fdiv_rounded ha hb,
      fun h => by rw [fsign_fadd_of_sum_zero ha hb h, Bool.and_eq_true],
      fun h => by rw [fsign_fsub_of_difference_zero ha hb h, Bool.and_eq_true, Bool.not_eq_true'],
      fsign_fmul_finite ha hb, fsign_fdiv_finite ha hb, hz⟩
  · have hb' : isFinite (fneg b) = true := by rwa [isFinite_fneg]
    have ha' : isInf (fneg a) = true := by rwa [isInf_fneg]
    refine ⟨fadd_inf_finite ha hb, fadd_finite_inf ha hb, fadd_inf_finite ha hb', fadd_finite_inf ha' hb,
      fun h0 => ?_, ?_⟩
    · have hz : isZero b = false := by rw [← Bool.not_eq_true]; exact fun h => h0 (fval_eq_zero.2 h)
      rw [fmul_comm nan b a, fmul_inf ha (isNaN_of_isFinite hb) hz]
      exact ⟨isInf_fpack_infMag _, fsign_fpack_infMag _, isInf_fpack_infMag _, fsign_fpack_infMag _⟩
    · rw [fdiv_inf_finite ha hb, fdiv_finite_inf ha hb, bne_comm (a := fsign b)]
      exact ⟨isInf_fpack_infMag _, fsign_fpack_infMag _, isZero_fpack_zero _, fsign_fpack _ (by norm_num)⟩
  · have hb' : isInf (fneg b) = true := by rwa [isInf_fneg]
    rw [fmul_inf ha (isNaN_of_isInf hb) (isZero_of_isInf hb)]
    exact ⟨fadd_inf_inf ha hb, fun hs => fadd_inf_inf ha hb' (by rw [fsign_fneg]; exact Bool.eq_not_of_ne hs),
      isInf_fpack_infMag _, fsign_fpack_infMag _⟩

/-- Settles O57: each operation's branches, NaN and invalid ones first, then the patterns that are no NaN. -/
theorem nanResultsAreDrawnQuietNans : Obligations.NanResultsAreDrawnQuietNans := by
  refine ⟨freeNaNs_quiet, fun nan a b => ⟨⟨fadd_eq_nan, isNaN_fadd⟩, ?_, ⟨fmul_eq_nan, isNaN_fmul⟩,
    ⟨fdiv_eq_nan, isNaN_fdiv⟩⟩⟩
  -- a difference is the sum with the other sign
  have hsub : (isNaN a = true ∨ isNaN b = true ∨ (isInf a = true ∧ isInf b = true ∧ fsign a = fsign b)) ↔
      isNaN a = true ∨ isNaN (fneg b) = true ∨ (isInf a = true ∧ isInf (fneg b) = true ∧ fsign a ≠ fsign (fneg b)) := by
    rw [isNaN_fneg, isInf_fneg, fsign_fneg, ne_eq, Bool.eq_not, not_not]
  exact ⟨fun h => fadd_eq_nan (hsub.1 h), fun h => hsub.2 (isNaN_fadd h)⟩

/-- Settles O58: `forder` orders the patterns as their values, with every finite value between the infinities. -/
theorem comparisonsAreOrdered : Obligations.ComparisonsAreOrdered := by
  intro a b
  refine ⟨fun h => ⟨flt_of_isNaN h, flt_of_isNaN h.symm⟩, fun ha hb => ?_, flt_inf, fun ha hb => (flt_inf hb ha).symm,
    fun ha hb => ⟨flt_inf_inf ha hb, flt_inf_inf hb ha⟩⟩
  have hna := isNaN_of_isFinite ha
  have hnb := isNaN_of_isFinite hb
  rw [fgt, flt_eq hna hnb, flt_eq hnb hna, decide_eq_true_iff, decide_eq_true_iff]
  exact ⟨forder_lt_forder a b, forder_lt_forder b a⟩

/-- Settles O59: `i2f` is `roundMag` of the integer, and `f2i` the floor of the magnitude, or of the magnitude plus a
half, with the sign. -/
theorem conversionsRoundAsStated : Obligations.ConversionsRoundAsStated := by
  refine ⟨fun n => ⟨i2f_rounded n, fval_i2f⟩, fun a _ => ⟨?_, ?_⟩⟩
  · obtain ⟨hle, hlt⟩ := truncMag_trunc a
    dsimp only
    rw [abs_f2i, abs_fval]
    exact ⟨hle, hlt, f2i_mul_fval_nonneg _ a⟩
  · obtain ⟨hle, hlt⟩ := truncMag_nearest a
    dsimp only
    rw [abs_f2i, abs_fval, f2i_cast]
    have hd : |signedVal (fsign a) (truncMag .nearest a) - fval a| = |(truncMag .nearest a : ℚ) - magVal (fmag a)| := by
      rw [fval_eq, abs_signedVal_sub]
    rw [hd]
    refine ⟨abs_le.2 ⟨by linarith, by linarith⟩, f2i_cast .nearest a ▸ f2i_mul_fval_nonneg _ a, fun he => ?_⟩
    by_contra hn
    rw [abs_of_neg (by linarith)] at he
    linarith

end Sys2Proof.Proofs
end

section
/-! SUPPORT. The frame of the commands (R51, R56, R57, R72): what every command but SRESET leaves as it was. -/

namespace Sys2Proof.Machine

open Claims

/-! ### Registers -/

/-- A meaning that commits the state as a whole changes no field but STATUS.ERR. SRESET is the one that does. -/
def Meaning.ErrOnly : Meaning → Prop
  | .whole commit => ∀ s : State, ∃ e, commit s = { s with err := e }
  | _ => True

theorem meaningOf_errOnly {i : Instr} (hi : i ≠ .sreset) : (meaningOf i).ErrOnly := by
  cases i with
  | sreset => exact absurd rfl hi
  | nop => exact fun s => ⟨s.err, rfl⟩
  | clrstat => exact fun _ => ⟨false, rfl⟩
  | _ => trivial

/-- All that a meaning other than SRESET's can change before STATUS.LAST is set: STATUS.ERR, the unit records, and as
many result registers as it answers. -/
theorem Meaning.Commits.frame {m : Meaning} {k : Nat} {s u : State} (hm : m.Answers k) (he : m.ErrOnly)
    (hu : m.Commits s u) : ∃ r : Results, r.count = k ∧
      u = { s with err := u.err, res := r.write s.res, avg := u.avg, lo := u.lo, giir := u.giir, fir := u.fir } := by
  cases m with
  | whole commit =>
    obtain rfl := hu
    obtain ⟨e, h⟩ := he s
    exact ⟨.none, hm.symm, by rw [h]; rfl⟩
  | plain body => obtain rfl := hu; exact ⟨body s, hm s, rfl⟩
  | avg n body | lo n body | giir n body | fir n body =>
    obtain ⟨-, _, r, ho, rfl⟩ := hu
    exact ⟨r, (hm _ _).ok ho, rfl⟩

/-- All a command other than SRESET can do: raise an error code, or end with OK and a change of STATUS.ERR, the unit
records and as many result registers as R135 lists for it. -/
theorem exec_frame {i : Instr} {s t : State} (hi : i ≠ .sreset) (h : exec i s = .next t) :
    (∃ c, t = s.raise c) ∨ ∃ r : Results, r.count = resultCount i ∧
      t = { s with last := .ok, err := t.err, res := r.write s.res, avg := t.avg, lo := t.lo, giir := t.giir,
                   fir := t.fir } := by
  obtain ⟨c, -, e⟩ | ⟨u, hu, rfl⟩ := exec_eq_next h
  · exact .inl ⟨c, e⟩
  · obtain ⟨r, hr, e⟩ := hu.frame (meaningOf_answers i) (meaningOf_errOnly hi)
    exact .inr ⟨r, hr, congrArg State.complete e⟩

/-! ### Unit records (R72, R133) -/

/-- The unit whose record a meaning reaches. -/
def Meaning.unit : Meaning → Option FcUnit
  | .whole _ | .plain _ => none
  | .avg _ _  => some .avg
  | .lo _ _   => some .lo
  | .giir _ _ => some .giir
  | .fir _ _  => some .fir

/-- The number of the record a meaning reaches, 0 where it reaches none. -/
def Meaning.inst : Meaning → Nat
  | .whole _ | .plain _ => 0
  | .avg n _ | .lo n _ | .giir n _ | .fir n _ => n

theorem inst_meaningOf (i : Instr) : (meaningOf i).inst = i.inst := by
  cases i <;> rfl

/-- The low byte of a built word is its opcode, whatever the other fields. -/
theorem commandWord_mod {opc : Nat} (ho : opc < 2 ^ 8) (inst var mod : Nat) :
    (commandWord opc inst var mod).toNat % 2 ^ 8 = opc := by
  unfold commandWord
  rw [toNat_append_eq, BitVec.toNat_ofNat, Nat.mod_eq_of_lt ho, Nat.mul_add_mod_of_lt ho]

theorem unitOf_of_commandWord {i : Instr} {opc inst var mod : Nat} (e : encode i = commandWord opc inst var mod)
    (ho : opc < 2 ^ 8) : unitOf i = unitOfOpc opc := by
  rw [unitOf, e, commandWord_mod ho]

/-- A command reaches records of the unit of its opcode only. -/
theorem unitOf_eq (i : Instr) : unitOf i = (meaningOf i).unit := by
  cases i <;> exact (unitOf_of_commandWord rfl (by decide)).trans rfl

theorem sameExcept_refl {α : Type} (n : Nat) (l : List α) : SameExcept n l l := fun _ _ => rfl

theorem sameExcept_set {α : Type} (n : Nat) (l : List α) (a : α) : SameExcept n l (l.set n a) :=
  fun _ hk => List.getElem?_set_ne hk.symm

/-- Of the unit `o`, where a unit is given, every record but number `n` is the same in both states, and so is every
record of the other units. -/
def OtherInstancesSame (o : Option FcUnit) (n : Nat) (s t : State) : Prop :=
  (if o = some .avg then SameExcept n s.avg t.avg else t.avg = s.avg) ∧
  (if o = some .lo then SameExcept n s.lo t.lo else t.lo = s.lo) ∧
  (if o = some .giir then SameExcept n s.giir t.giir else t.giir = s.giir) ∧
  (if o = some .fir then SameExcept n s.fir t.fir else t.fir = s.fir)

theorem OtherInstancesSame.raise (o : Option FcUnit) (n : Nat) (s : State) (c : Code) :
    OtherInstancesSame o n s (s.raise c) := by
  have same : ∀ {α : Type} (u : FcUnit) (l : List α), if o = some u then SameExcept n l l else l = l := by
    intro α u l
    split
    exacts [sameExcept_refl n l, rfl]
  exact ⟨same _ _, same _ _, same _ _, same _ _⟩

theorem Meaning.Commits.otherInstancesSame {m : Meaning} {s u : State} (he : m.ErrOnly) (hu : m.Commits s u) :
    OtherInstancesSame m.unit m.inst s u := by
  cases m with
  | whole commit =>
    obtain rfl := hu
    obtain ⟨e, h⟩ := he s
    rw [h]
    exact ⟨rfl, rfl, rfl, rfl⟩
  | plain body => obtain rfl := hu; exact ⟨rfl, rfl, rfl, rfl⟩
  | avg n body => obtain ⟨-, A, _, -, rfl⟩ := hu; exact ⟨sameExcept_set n s.avg A, rfl, rfl, rfl⟩
  | lo n body => obtain ⟨-, L, _, -, rfl⟩ := hu; exact ⟨rfl, sameExcept_set n s.lo L, rfl, rfl⟩
  | giir n body => obtain ⟨-, G, _, -, rfl⟩ := hu; exact ⟨rfl, rfl, sameExcept_set n s.giir G, rfl⟩
  | fir n body => obtain ⟨-, F, _, -, rfl⟩ := hu; exact ⟨rfl, rfl, rfl, sameExcept_set n s.fir F⟩

end Sys2Proof.Machine

namespace Sys2Proof.Proofs

open Machine Claims

/-- Settles O20: neither an error nor what a command commits changes a field but STATUS, the results and the unit
records. -/
theorem commandsNeverWriteOperands : Obligations.CommandsNeverWriteOperands := by
  intro i s t hi h
  obtain ⟨c, rfl⟩ | ⟨r, -, e⟩ := exec_frame hi h
  · exact ⟨rfl, rfl, rfl, rfl, rfl, rfl⟩
  · rw [e]
    exact ⟨rfl, rfl, rfl, rfl, rfl, rfl⟩

/-- Settles O21: an error writes no result, and a command that ends with OK writes as many as R135 lists, from RES0
upward. -/
theorem onlyNamedResultRegistersChange : Obligations.OnlyNamedResultRegistersChange := by
  intro i s t hi h
  obtain ⟨c, rfl⟩ | ⟨r, hr, e⟩ := exec_frame hi h
  · exact ⟨fun _ _ => rfl, fun _ => rfl⟩
  · have hres : t.res = r.write s.res := congrArg State.res e
    refine ⟨fun j hj => ?_, fun hl => absurd (congrArg State.last e) hl⟩
    rw [hres]
    exact r.write_of_count_le s.res j (hr.trans_le hj)

/-- Settles O22: a command reaches one record, of the unit of its opcode and with the number in its INST field. -/
theorem otherInstancesAreUnchanged : Obligations.OtherInstancesAreUnchanged := by
  intro i s t _ hi h
  obtain ⟨c, -, rfl⟩ | ⟨u, hu, rfl⟩ := exec_eq_next h
  · exact OtherInstancesSame.raise _ _ s c
  · rw [unitOf_eq, ← inst_meaningOf]
    have same := hu.otherInstancesSame (meaningOf_errOnly hi)
    exact same

end Sys2Proof.Proofs
end

section
/-! SUPPORT. The register window (R101 to R108): the offsets of the registers, and what an access of each does. -/

namespace Sys2Proof.Machine

/-! ### The register map (R103) -/

/-- Each register stands at its offset. -/
theorem regAt_of_offset {r : Reg} {off : Nat} (h : r.offset = some off) : regAt off = r := by
  cases r with
  | op i => cases h; fin_cases i <;> rfl
  | res i => cases h; fin_cases i <;> rfl
  | unmapped => cases h
  | cmd | status | id | rev | cap0 | cap1 | cap2 => cases h; rfl

/-- A register stands at no other aligned offset. -/
theorem offset_regAt {off : Nat} (ha : off % 4 = 0) : regAt off = .unmapped ∨ (regAt off).offset = some off := by
  unfold regAt
  split <;> simp only [Reg.offset, Option.some.injEq, reduceCtorEq, false_or, true_or]
  all_goals omega

theorem regAt_eq_unmapped {off : Nat} (ha : off % 4 = 0) (h : off = 0x1C ∨ 0x50 ≤ off) : regAt off = .unmapped := by
  obtain e | e := offset_regAt ha
  · exact e
  · cases hr : regAt off with
    | unmapped => rfl
    | _ =>
      rw [hr] at e
      cases e
      omega

/-- A host write changes no register but CMD and the operands (R104). -/
theorem writeReg_of_ne {s : State} {r : Reg} (hc : r ≠ .cmd) (ho : ∀ i, r ≠ .op i) (v : Word) :
    s.writeReg r v = .next s := by
  cases r with
  | cmd => exact absurd rfl hc
  | op i => exact absurd rfl (ho i)
  | status | id | rev | cap0 | cap1 | cap2 | res | unmapped => rfl

/-! ### Register words (R52, R54, R55) -/

theorem statusWord_eq (c : Code) (e : Bool) :
    statusWord c e = BitVec.ofNat 32 (c.number + if e then 2 ^ 8 else 0) := by
  cases e <;> cases c <;> rfl

theorem CoefRound.bit_lt (r : CoefRound) : CoefRound.bit r < 2 ^ 1 := by
  cases r <;> decide

theorem revWord_toNat {c : Params} (h : c.p < 2 ^ 8) :
    (revWord c).toNat = CoefRound.bit c.coefRound * 2 ^ 16 + c.p * 2 ^ 8 + 1 := by
  unfold revWord
  simp only [toNat_append_eq, BitVec.toNat_ofNat, Nat.mod_eq_of_lt h, Nat.mod_eq_of_lt (CoefRound.bit_lt c.coefRound)]
  omega

theorem cap0Word_toNat {c : Params} (ha : c.avgCap < 2 ^ 16) (hg : c.giirCap < 2 ^ 16) :
    (cap0Word c).toNat = c.giirCap * 2 ^ 16 + c.avgCap := by
  rw [cap0Word, toNat_append_eq, BitVec.toNat_ofNat, BitVec.toNat_ofNat, Nat.mod_eq_of_lt ha, Nat.mod_eq_of_lt hg]

theorem cap1Word_toNat {c : Params} (hf : c.firMax < 2 ^ 16) : (cap1Word c).toNat = c.firMax := by
  rw [cap1Word, toNat_append_eq, BitVec.toNat_ofNat, BitVec.toNat_ofNat, Nat.mod_eq_of_lt hf]
  omega

theorem cap2Word_toNat {c : Params} (ha : c.niAvg < 2 ^ 5) (hl : c.niLo < 2 ^ 5) (hg : c.niGiir < 2 ^ 5)
    (hf : c.niFir < 2 ^ 5) :
    (cap2Word c).toNat = c.niAvg + c.niLo * 2 ^ 8 + c.niGiir * 2 ^ 16 + c.niFir * 2 ^ 24 := by
  unfold cap2Word
  simp only [toNat_append_eq, BitVec.toNat_ofNat, Nat.mod_eq_of_lt ha, Nat.mod_eq_of_lt hl, Nat.mod_eq_of_lt hg,
    Nat.mod_eq_of_lt hf]
  omega

/-- Bit 16 of REV is COEF_ROUND (R54). -/
theorem revWord_getLsbD {c : Params} (h : c.p < 2 ^ 8) :
    (revWord c).getLsbD 16 = true ↔ c.coefRound = .nearest := by
  rw [← BitVec.testBit_toNat, revWord_toNat h, Nat.testBit_eq_decide_div_mod_eq, decide_eq_true_iff]
  cases c.coefRound <;> simp only [CoefRound.bit, reduceCtorEq, iff_false, iff_true] <;> omega

/-! ### Reset records (R61, R63, R66, R69) -/

/-- A reset array has the length of the capacity, and every entry is 0. -/
theorem replicate_zero_entries {α : Type} [Zero α] (n : Nat) :
    (List.replicate n (0 : α)).length = n ∧ ∀ v ∈ List.replicate n (0 : α), v = 0 :=
  ⟨List.length_replicate, fun _ => List.eq_of_mem_replicate⟩

theorem AvgInst.reset_entries (c : Params) :
    (AvgInst.reset c).cur = 0 ∧ (AvgInst.reset c).buf.length = c.avgCap ∧ ∀ v ∈ (AvgInst.reset c).buf, v = 0 :=
  ⟨rfl, replicate_zero_entries _⟩

theorem LoInst.get_reset (f : LoId) : LoInst.reset.get f = .reset := by
  cases f <;> rfl

end Sys2Proof.Machine

namespace Sys2Proof.Proofs

open Machine Claims

/-- Settles O10: the read answers the register at the offset, and each register has one offset. -/
theorem hostReadReturnsTheMappedRegister : Obligations.HostReadReturnsTheMappedRegister := by
  intro s rest off hoff ha hbus
  have hat : ∀ {r : Reg}, r.offset = some off → s.readReg (regAt off) = s.readReg r := fun h => by
    rw [regAt_of_offset h]
  refine ⟨s.readReg (regAt off), (step_cons hbus).trans (serve_read { s with bus := rest } hoff ha),
    ?cmd, ?status, ?id, ?rev, ?cap0, ?cap1, ?cap2, ?op, ?res, ?unmapped⟩
  case cmd => rintro rfl; exact hat (r := .cmd) rfl
  case status => rintro rfl; exact (hat (r := .status) rfl).trans (statusWord_eq ..)
  case id => rintro rfl; exact hat (r := .id) rfl
  case rev => rintro rfl; exact hat (r := .rev) rfl
  case cap0 => rintro rfl; exact hat (r := .cap0) rfl
  case cap1 => rintro rfl; exact hat (r := .cap1) rfl
  case cap2 => rintro rfl; exact hat (r := .cap2) rfl
  case op => rintro i rfl; exact hat (r := .op i) rfl
  case res => rintro i rfl; exact hat (r := .res i) rfl
  case unmapped => intro h; rw [regAt_eq_unmapped ha h]; rfl

/-- Settles O11: the offsets outside the operands' and CMD's hold a register a write has no effect on, or none. -/
theorem hostWriteStoresOperandOrIsIgnored : Obligations.HostWriteStoresOperandOrIsIgnored := by
  intro s rest off v hoff ha hbus
  have hstep : step s = State.writeReg { s with bus := rest } (regAt off) v :=
    (step_cons hbus).trans (serve_write { s with bus := rest } hoff ha v)
  refine ⟨fun i hi => ?_, fun h0 hout => ?_⟩
  · rw [hstep, regAt_of_offset (r := .op i) (congrArg some hi.symm)]
    rfl
  · have hreg := offset_regAt ha
    rw [hstep]
    refine writeReg_of_ne (fun hr => ?cmd) (fun i hr => ?op) v
    all_goals
      simp only [hr, Reg.offset, reduceCtorEq, false_or, Option.some.injEq] at hreg
      omega

/-- Settles O6: a write at offset 0 is the write of CMD, and the next draw index is all that follows the command. -/
theorem stepRunsTheDecodedCommand : Obligations.StepRunsTheDecodedCommand := by
  intro s rest w i hbus hdec
  rw [step_cons hbus]
  refine (serve_commandWrite { s with bus := rest } w).trans ((runCommand_of_ok hdec _).trans ?_)
  cases exec i { s with bus := rest, cmd := w } <;> rfl

/-- Settles O12: within the ranges of R11 no field of the four words is cut off. -/
theorem constantRegisterFields : Obligations.ConstantRegisterFields := by
  intro c ⟨havg, hgiir, hfir, hna, hnl, hng, hnf, hp, _⟩
  have hp8 : c.p < 2 ^ 8 := by omega
  have hb := CoefRound.bit_lt c.coefRound
  refine ⟨?_, ?_, cap1Word_toNat (by omega), cap2Word_toNat (by omega) (by omega) (by omega) (by omega)⟩
  · rw [revWord_getLsbD hp8, revWord_toNat hp8]
    exact ⟨by omega, by omega, Iff.rfl, by omega⟩
  · rw [cap0Word_toNat (by omega) (by omega)]
    omega

/-- Settles O13: every unit holds copies of its reset record, and every array of one is all zero. -/
theorem resetGivesTheSpecValues : Obligations.ResetGivesTheSpecValues := by
  intro c
  refine ⟨⟨rfl, rfl, rfl, fun i => Vector.getElem_replicate i.isLt, fun i => Vector.getElem_replicate i.isLt⟩,
    ⟨List.length_replicate, forall_mem_replicate_of _ (AvgInst.reset_entries c)⟩,
    ⟨List.length_replicate, forall_mem_replicate_of _ fun f => ?lo⟩,
    ⟨List.length_replicate, forall_mem_replicate_of _ ⟨rfl, rfl, ?giir⟩⟩,
    ⟨List.length_replicate, forall_mem_replicate_of _ ⟨rfl, rfl, replicate_zero_entries _, replicate_zero_entries _,
      ?fir, rfl, rfl, rfl⟩⟩⟩
  case lo => rw [LoInst.get_reset]; exact ⟨rfl, rfl, rfl, rfl⟩
  case giir => exact forall_mem_replicate_of 6 (replicate_zero_entries c.giirCap)
  case fir => exact forall_mem_replicate_of 3 (replicate_zero_entries (2 * c.firMax))

/-- Settles O14: each reset record is well formed when the capacities are legal. -/
theorem resetMeetsTheInvariant : Obligations.ResetMeetsTheInvariant := fun _ => State.resetOf_inv

end Sys2Proof.Proofs
end

section
/-! SUPPORT. Where a step stops (R101, R105, R400): no command does, and a host access does exactly when it is not
admitted. -/

namespace Sys2Proof.Machine

/-! ### Commands and register writes (R104, R400) -/

theorem exists_finish_eq_next (s : State) (body : Except Code State) : ∃ t, finish s body = .next t := by
  cases body with
  | error c => exact ⟨_, finish_error s c⟩
  | ok u => exact ⟨_, finish_ok s u⟩

/-- No command faults or is refused, from any state. -/
theorem exists_exec_eq_next (i : Instr) (s : State) : ∃ t, exec i s = .next t := by
  rw [exec_eq_run]
  cases meaningOf i with
  | whole commit => exact exists_finish_eq_next s (.ok (commit s))
  | plain body => exact exists_finish_eq_next s (.ok { s with res := (body s).write s.res })
  | avg | lo | giir | fir => exact exists_finish_eq_next s _

theorem exists_runCommand_eq_next (w : Word) (s : State) : ∃ t, runCommand w s = .next t := by
  match hd : decode w with
  | .error e => exact ⟨_, runCommand_of_error hd s⟩
  | .ok i =>
    obtain ⟨t, ht⟩ := exists_exec_eq_next i { s with cmd := w }
    exact ⟨t.nextDraw, by rw [runCommand_of_ok hd, ht, Result.onNext_next]⟩

theorem exists_writeReg_eq_next (s : State) (r : Reg) (v : Word) : ∃ t, s.writeReg r v = .next t := by
  cases r with
  | cmd => exact exists_runCommand_eq_next v s
  | op | status | id | rev | cap0 | cap1 | cap2 | res | unmapped => exact ⟨_, rfl⟩

/-! ### Host accesses (R101, R105) -/

/-- A read and a write of one address and width are admitted together: exactly when the access has an offset. -/
theorem exists_accessOffset_eq_ok {c : Params} {addr width : Nat} :
    (∃ off, accessOffset c addr width = .ok off) ↔ admitted c (.read addr width) := by
  constructor
  · rintro ⟨off, h⟩
    obtain ⟨rfl, hoff, ha, rfl⟩ := accessOffset_eq_ok h
    exact ⟨by omega, by omega, rfl, by rwa [Nat.add_sub_cancel_left]⟩
  · rintro ⟨hlo, hhi, rfl, ha⟩
    obtain ⟨off, rfl⟩ := Nat.exists_eq_add_of_le hlo
    exact ⟨off, accessOffset_of_offset c (by omega) (by omega)⟩

/-- An access that is not admitted has a fault for its offset. -/
theorem exists_accessOffset_eq_error {c : Params} {addr width : Nat} (h : ¬ admitted c (.read addr width)) :
    ∃ e, accessOffset c addr width = .error e := by
  match ho : accessOffset c addr width with
  | .error e => exact ⟨e, rfl⟩
  | .ok off => exact absurd (exists_accessOffset_eq_ok.1 ⟨off, ho⟩) h

theorem serve_read_of_error {s : State} {addr width : Nat} {e : Fault} (h : accessOffset s.cfg addr width = .error e) :
    serve (.read addr width) s = .fault e := by
  simp only [serve, h]

theorem serve_write_of_error {s : State} {addr width : Nat} {e : Fault} (h : accessOffset s.cfg addr width = .error e)
    (v : Word) : serve (.write addr width v) s = .fault e := by
  simp only [serve, h]

theorem serve_of_admitted {a : HostAction} {s : State} (h : admitted s.cfg a) : ∃ t, serve a s = .next t := by
  cases a with
  | reset => exact ⟨_, rfl⟩
  | read addr width =>
    obtain ⟨off, ho⟩ := exists_accessOffset_eq_ok.2 h
    exact ⟨{ s with readData := s.readReg (regAt off) }, by simp only [serve, ho]⟩
  | write addr width v =>
    obtain ⟨off, ho⟩ := exists_accessOffset_eq_ok.2 h
    obtain ⟨t, ht⟩ := exists_writeReg_eq_next s (regAt off) v
    exact ⟨t, by simp only [serve, ho, ht]⟩

theorem serve_of_not_admitted {a : HostAction} {s : State} (h : ¬ admitted s.cfg a) : ∃ e, serve a s = .fault e := by
  cases a with
  | reset => exact absurd trivial h
  | read addr width =>
    obtain ⟨e, he⟩ := exists_accessOffset_eq_error h
    exact ⟨e, serve_read_of_error he⟩
  | write addr width v =>
    obtain ⟨e, he⟩ := exists_accessOffset_eq_error h
    exact ⟨e, serve_write_of_error he v⟩

end Sys2Proof.Machine

namespace Sys2Proof.Proofs

open Machine

/-- Settles O8: an idle step and the service of an admitted access end in a next state, and the service of any other
access in a fault. -/
theorem stepStopsExactlyOnInadmissibleAccess : Obligations.StepStopsExactlyOnInadmissibleAccess := by
  intro s
  match hb : s.bus with
  | [] => simp [step_nil hb]
  | a :: rest =>
    rw [step_cons hb]
    by_cases ha : admitted s.cfg a
    · obtain ⟨t, ht⟩ := serve_of_admitted (s := { s with bus := rest }) ha
      simp [ht, ha]
    · obtain ⟨e, he⟩ := serve_of_not_admitted (s := { s with bus := rest }) ha
      simp [he, ha]

/-- Settles O7: an idle engine stays as it is. -/
theorem idleEngineKeepsAllState : Obligations.IdleEngineKeepsAllState := fun _ => step_nil

/-- Settles O9: the offset of such an access is the fault, for a read and for a write. -/
theorem misalignedOrNarrowAccessIsStuck : Obligations.MisalignedOrNarrowAccessIsStuck := by
  intro s rest off width v hoff hbad
  have hstuck := accessOffset_of_bad s.cfg hoff hbad
  exact ⟨fun hb => (step_cons hb).trans (serve_read_of_error (s := { s with bus := rest }) hstuck),
    fun hb => (step_cons hb).trans (serve_write_of_error (s := { s with bus := rest }) hstuck v)⟩

end Sys2Proof.Proofs
end

section
/-! SUPPORT. The sample buffers of the average and FIR units (R115, R116): what a successful command commits to its
record, and where the samples of before stand after a write. -/

namespace Sys2Proof.Machine

/-! ### The record a successful command commits -/

theorem eq_of_getElem?_set {α : Type} {l : List α} {n : Nat} {a b : α} (hn : n < l.length)
    (h : (l.set n a)[n]? = some b) : a = b := by
  rwa [List.getElem?_set_self hn, Option.some.injEq] at h

/-- A command that ends with OK raised nothing: it committed what its meaning answers. -/
theorem exec_commits_of_ok {i : Instr} {s t : State} (h : exec i s = .next t) (hok : t.last = .ok) :
    ∃ u, (meaningOf i).Commits s u ∧ t = u.complete := by
  obtain ⟨c, hc, rfl⟩ | hu := exec_eq_next h
  · exact absurd hok hc
  · exact hu

/-- A command of the average unit that ends with OK leaves in its record what its body answered. -/
theorem exec_avg_of_ok {i : Instr} {n : Nat} {body : State → AvgInst → Except Code (AvgInst × Results)} {s t : State}
    {A B : AvgInst} (hi : meaningOf i = .avg n body) (h : exec i s = .next t) (hok : t.last = .ok)
    (hA : s.avg[n]? = some A) (hB : t.avg[n]? = some B) : ∃ r, body s A = .ok (B, r) := by
  obtain ⟨u, hu, rfl⟩ := exec_commits_of_ok h hok
  rw [hi] at hu
  obtain ⟨-, B', r, hbody, rfl⟩ := hu
  obtain rfl := eq_of_getElem?_set (List.getElem?_eq_some_iff.1 hA).1 hB
  exact ⟨r, State.avgAt_of_get hA ▸ hbody⟩

/-- A command of the FIR unit that ends with OK leaves in its record what its body answered. -/
theorem exec_fir_of_ok {i : Instr} {n : Nat} {body : State → FirInst → Except Code (FirInst × Results)} {s t : State}
    {F G : FirInst} (hi : meaningOf i = .fir n body) (h : exec i s = .next t) (hok : t.last = .ok)
    (hF : s.fir[n]? = some F) (hG : t.fir[n]? = some G) : ∃ r, body s F = .ok (G, r) := by
  obtain ⟨u, hu, rfl⟩ := exec_commits_of_ok h hok
  rw [hi] at hu
  obtain ⟨-, G', r, hbody, rfl⟩ := hu
  obtain rfl := eq_of_getElem?_set (List.getElem?_eq_some_iff.1 hF).1 hG
  exact ⟨r, State.firAt_of_get hF ▸ hbody⟩

theorem meaningOf_procfInstr (p : Policy) (n : Nat) : meaningOf (Claims.procfInstr p n) = .fir n (firProcf p) := by
  cases p <;> rfl

/-! ### The single ring (R115) -/

/-- AVG.PROC writes the sample at the cursor and advances the cursor. -/
theorem avgProc_eq_ok {s : State} {A B : AvgInst} {r : Results} (h : avgProc s A = .ok (B, r)) :
    B = { buf := A.buf.set A.cur s.op[0], cur := (A.cur + 1) % s.cfg.avgCap } := by
  unfold avgProc at h
  dsimp only at h
  split at h
  · cases h
  · cases h; rfl

/-- Going back `m` places from the advanced cursor is going back `m - 1` places from the cursor. -/
theorem succ_mod_add_sub_mod {C c m : Nat} (d : Nat) (hm : m ≤ d) (h1 : 1 ≤ m) :
    ((c + 1) % C + d - m) % C = (c + d - (m - 1)) % C := by
  rw [Nat.add_sub_assoc hm, Nat.mod_add_mod]
  congr 1
  omega

/-- Going back from a cursor of the ring by less than its length, but by one place at least, leads elsewhere. -/
theorem add_two_mul_sub_mod_ne_self {C c i : Nat} (hc : c < C) (h1 : 1 ≤ i) (hi : i < C) : c ≠ (c + 2 * C - i) % C := by
  intro h
  rw [Nat.add_sub_assoc (by omega)] at h
  have hdvd : C ∣ 2 * C - i := Nat.add_modEq_left_iff.1 (h.symm.trans (Nat.mod_eq_of_lt hc).symm)
  exact Nat.not_dvd_of_pos_of_lt h1 hi ((Nat.dvd_sub_iff_right (by omega) (Nat.dvd_mul_left C 2)).1 hdvd)

/-! ### The doubled ring (R116) -/

/-- FIR.PROCF needs a design, and pushes its sample. -/
theorem firProcf_eq_ok {p : Policy} {s : State} {F G : FirInst} {r : Results} (h : firProcf p s F = .ok (G, r)) :
    F.order ≠ 0 ∧ G = firPush F s.op[0] s.op[1] := by
  unfold firProcf at h
  split at h
  · cases h
  · cases h; exact ⟨‹_›, rfl⟩

/-- The window of the advanced cursor: the written sample at the newest position. -/
theorem rd_writeBoth_newest {l : List Word} {N c : Nat} (hc : c < N) (hl : 2 * N ≤ l.length) (v : Word) :
    rd (writeBoth N c v l) ((c + 1) % N + (N - 1)) = v := by
  rw [rd_writeBoth hc hl]
  obtain hlt | rfl : c + 1 < N ∨ N = c + 1 := by omega
  · rw [Nat.mod_eq_of_lt hlt, if_pos (by omega)]
  · rw [Nat.mod_self, if_pos (by omega)]

/-- The window of the advanced cursor: at every older position the sample that stood one place nearer the newest end.
Where the cursor wraps around, it is the first copy of that sample that stands there. -/
theorem rd_writeBoth_older {l : List Word} {N c k : Nat} (hc : c < N) (hl : 2 * N ≤ l.length) (hd : Doubled l N)
    (hk : k + 1 < N) (v : Word) : rd (writeBoth N c v l) ((c + 1) % N + k) = rd l (c + (k + 1)) := by
  rw [rd_writeBoth hc hl]
  obtain hlt | rfl : c + 1 < N ∨ N = c + 1 := by omega
  · rw [Nat.mod_eq_of_lt hlt, if_neg (by omega), Nat.add_right_comm, Nat.add_assoc]
  · rw [Nat.mod_self, Nat.zero_add, if_neg (by omega), hd k (by omega)]
    congr 1
    omega

end Sys2Proof.Machine

namespace Sys2Proof.Proofs

open Machine Claims

/-- Settles O26: one write at the cursor and one advance, so places are counted back from one place further on; the
place written is the newest, and no place counted back by less than the ring's length. -/
theorem avgRingHoldsTheLastSamples : Obligations.AvgRingHoldsTheLastSamples := by
  rintro s t n A B ⟨-, -, havg, -⟩ h hok hA hB
  obtain ⟨hlen, hcur⟩ : A.Inv s.cfg := havg A (List.mem_of_getElem? hA)
  obtain ⟨r, hbody⟩ := exec_avg_of_ok rfl h hok hA hB
  obtain rfl := avgProc_eq_ok hbody
  dsimp only
  refine ⟨?newest, fun i h1 hC => ?older⟩
  case newest =>
    rw [succ_mod_add_sub_mod _ (by omega) le_rfl, Nat.sub_self, Nat.sub_zero, Nat.add_mod_right, Nat.mod_eq_of_lt hcur]
    exact rd_set_self (hlen ▸ hcur) _
  case older =>
    have hplace : A.cur + 2 * s.cfg.avgCap - 1 - (i - 1) = A.cur + 2 * s.cfg.avgCap - i := by omega
    rw [Nat.sub_sub, succ_mod_add_sub_mod _ (by omega) (by omega), Nat.add_sub_cancel_left, hplace]
    exact rd_set_ne _ (add_two_mul_sub_mod_ne_self hcur h1 hC) _

/-- Settles O52: one push at the cursor and one advance. -/
theorem firWindowHoldsTheLastSamples : Obligations.FirWindowHoldsTheLastSamples := by
  rintro s t n p F G ⟨-, -, -, -, -, -, -, -, hfir⟩ h hok hF hG
  obtain ⟨hmax, hcur, -, -, hlen, -, -, -, hdoubled, -⟩ : F.Inv s.cfg := hfir F (List.mem_of_getElem? hF)
  obtain ⟨r, hbody⟩ := exec_fir_of_ok (meaningOf_procfInstr p n) h hok hF hG
  obtain ⟨horder, rfl⟩ := firProcf_eq_ok hbody
  have hc : F.cur < F.order := by omega
  have hl : 2 * F.order ≤ F.bufA.length := by omega
  exact ⟨rfl, rd_writeBoth_newest hc hl _, fun k hk => rd_writeBoth_older hc hl hdoubled hk _⟩

end Sys2Proof.Proofs
end

section
/-! SUPPORT. The decoder and the encoder (R131 to R138): a word around its INST field, the row of a word, the words
without a row, and that encoding and decoding undo each other. -/

namespace Sys2Proof

open Machine Claims

/-! ### A word around its INST field (R131, R132) -/

theorem exists_eq_append (w : Word) : ∃ (hi : BitVec 20) (n : BitVec 4) (lo : BitVec 8), w = hi ++ n ++ lo := by
  refine ⟨w.extractLsb' 12 20, w.extractLsb' 8 4, w.extractLsb' 0 8, BitVec.eq_of_toNat_eq ?_⟩
  simp only [toNat_append_eq, field_eq]
  omega

theorem instField_append (hi : BitVec 20) (n : BitVec 4) (lo : BitVec 8) : instField (hi ++ n ++ lo) = n.toNat := by
  rw [instField, field_eq, toNat_append_eq, toNat_append_eq]
  omega

/-- The mask of an opcode with instances clears INST (R136). -/
theorem append_and_instMask (hi : BitVec 20) (n : BitVec 4) (lo : BitVec 8) :
    (hi ++ n ++ lo) &&& instMask = hi ++ 0#4 ++ lo := by
  have hmask : instMask = BitVec.allOnes 20 ++ 0#4 ++ BitVec.allOnes 8 := rfl
  rw [hmask, BitVec.and_append, BitVec.and_append, BitVec.and_allOnes, BitVec.and_allOnes, BitVec.and_zero]

/-- What the mask clears of a word is its INST field. -/
theorem toNat_eq_and_instMask (w : Word) : w.toNat = (w &&& instMask).toNat + instField w * 2 ^ 8 := by
  obtain ⟨hi, n, lo, rfl⟩ := exists_eq_append w
  rw [append_and_instMask, instField_append]
  simp only [toNat_append_eq, BitVec.toNat_ofNat]
  omega

theorem instField_le (w : Word) : instField w ≤ 15 := Nat.le_of_lt_succ (BitVec.isLt _)

theorem instField_commandWord (opc var mod : Nat) {inst : Nat} (hi : inst ≤ 15) :
    instField (commandWord opc inst var mod) = inst :=
  (instField_append ..).trans (Nat.mod_eq_of_lt (Nat.lt_succ_of_le hi))

theorem commandWord_and_instMask (opc inst var mod : Nat) :
    commandWord opc inst var mod &&& instMask = commandWord opc 0 var mod :=
  append_and_instMask ..

/-- The words the mask takes to a word with INST = 0 are those that differ from it in INST only. -/
theorem and_instMask_eq_commandWord_iff {w : Word} {opc var mod : Nat} :
    w &&& instMask = commandWord opc 0 var mod ↔ w = commandWord opc (instField w) var mod := by
  constructor
  · intro h
    refine BitVec.eq_of_toNat_eq ?_
    rw [toNat_eq_and_instMask w, h, toNat_eq_and_instMask (commandWord opc (instField w) var mod),
      commandWord_and_instMask, instField_commandWord _ _ _ (instField_le w)]
  · intro h
    rw [h, commandWord_and_instMask]

/-- A word with RSV = 0 is built from its other fields. -/
theorem eq_commandWord_of_rsvField {w : Word} (h : rsvField w = 0) :
    w = commandWord (opcField w) (instField w) (varField w) (modField w) := by
  refine BitVec.eq_of_toNat_eq ?_
  rw [commandWord_toNat (BitVec.isLt _) (BitVec.isLt _) (BitVec.isLt _) (BitVec.isLt _)]
  have hlt := w.isLt
  simp only [rsvField, opcField, instField, varField, modField, field_eq] at h ⊢
  omega

/-! ### Listed opcodes and variants (R133, R135, R137) -/

theorem listedOpcode_iff {opc : Nat} : ListedOpcode opc ↔ opc ∈ knownOpcodes := by
  simp only [ListedOpcode, knownOpcodes, List.mem_cons, List.not_mem_nil, or_false]
  omega

theorem listedVariant_iff {opc var mod : Nat} : ListedVariant opc var mod ↔ variantListed opc var mod = true := by
  unfold variantListed
  split <;> simp_all [ListedVariant, and_assoc]

/-- The opcodes without instances are the first three and the last two (R133). -/
theorem mem_plainOpcodes_iff {opc : Nat} (h : opc ∈ knownOpcodes) : opc ∈ plainOpcodes ↔ opc ≤ 0x02 ∨ 0x50 ≤ opc := by
  simp only [knownOpcodes, plainOpcodes, List.mem_cons, List.not_mem_nil, or_false] at h ⊢
  omega

theorem lt_of_mem_knownOpcodes {opc : Nat} (h : opc ∈ knownOpcodes) : opc < 256 := by
  have hbound : ∀ opc ∈ knownOpcodes, opc < 256 := by decide
  exact hbound opc h

theorem lt_of_variantListed {opc var mod : Nat} (h : variantListed opc var mod = true) : var < 5 ∧ mod < 4 := by
  rw [← listedVariant_iff, ListedVariant] at h
  split_ifs at h <;> omega

/-! ### The rows of the mask and match table (R135, R136) -/

/-- A word selects a row. -/
abbrev Row.Selects (r : Row) (w : Word) : Prop := w &&& r.mask = r.pattern

/-- A row has the mask and the pattern R136 gives for OPC, VAR and MOD. -/
abbrev Row.Fits (r : Row) (opc var mod : Nat) : Prop :=
  r.pattern = commandWord opc 0 var mod ∧ r.mask = if opc ∈ plainOpcodes then fullMask else instMask

/-- The fields (OPC, VAR, MOD) R135 lists a command for: those R137 allows, but for the dual-channel integer FIR. -/
abbrev ListedCommand (opc var mod : Nat) : Prop :=
  opc ∈ knownOpcodes ∧ variantListed opc var mod = true ∧ ¬ (opc = 0x42 ∧ mod = 1)

/-- A row is the one of OPC, VAR and MOD, and the commands it builds have the words it matches. -/
structure Row.Describes (r : Row) (opc var mod : Nat) : Prop where
  encode_build : ∀ n, encode (r.build n) = commandWord opc (r.build n).inst var mod
  inst_build : ∀ n, (r.build n).inst = if opc ∈ plainOpcodes then 0 else n
  fits : r.Fits opc var mod
  listed : ListedCommand opc var mod

/-- Every row of the table is one of R135. -/
theorem exists_describes : ∀ r ∈ opcodeRows, ∃ opc var mod, r.Describes opc var mod := by
  simp only [opcodeRows, controlRows, averageRows, lowOrderRows, generalIirRows, firDesignRows, firConvRows, scaleRows,
    List.forall_mem_append, List.forall_mem_cons, List.not_mem_nil, false_implies, implies_true, and_true]
  and_intros
  all_goals exact ⟨_, _, _, fun _ => rfl, fun _ => rfl, ⟨rfl, rfl⟩, by decide⟩

/-- Every command of R135 has a row. -/
theorem exists_fits_of_listedCommand {opc var mod : Nat} (h : ListedCommand opc var mod) :
    ∃ r ∈ opcodeRows, r.Fits opc var mod := by
  have table : ∀ opc ∈ knownOpcodes, ∀ var < 5, ∀ mod < 4, variantListed opc var mod = true ∧
      ¬ (opc = 0x42 ∧ mod = 1) → ∃ r ∈ opcodeRows, r.Fits opc var mod := by decide +kernel
  obtain ⟨hopc, hlisted⟩ := h
  obtain ⟨hvar, hmod⟩ := lt_of_variantListed hlisted.1
  exact table opc hopc var hvar mod hmod hlisted

/-- Every command is built by a row from its INST value: by the row with the pattern of its word. -/
theorem exists_row_build (i : Instr) : ∃ r ∈ opcodeRows, r.build i.inst = i := by
  have of_find : ∀ {opc var mod : Nat} {r : Row}, encode i = commandWord opc i.inst var mod →
      opcodeRows.find? (fun r => r.pattern == commandWord opc 0 var mod) = some r → r.build i.inst = i →
      ∃ r ∈ opcodeRows, r.build i.inst = i := fun _ hr hb => ⟨_, List.mem_of_find?_eq_some hr, hb⟩
  cases i <;> exact of_find rfl rfl rfl

theorem nodup_patterns : (opcodeRows.map Row.pattern).Nodup := by decide

/-- The words that select a row have its OPC, VAR and MOD, and INST = 0 for an opcode without instances (R133). -/
theorem Row.Fits.selects_iff {r : Row} {opc var mod : Nat} (h : r.Fits opc var mod) {w : Word} :
    r.Selects w ↔ w = commandWord opc (instField w) var mod ∧ (opc ∈ plainOpcodes → instField w = 0) := by
  obtain ⟨hp, hm⟩ := h
  rw [Row.Selects, hp, hm]
  by_cases hplain : opc ∈ plainOpcodes
  · have hfull : w &&& fullMask = w := BitVec.and_allOnes
    rw [if_pos hplain, hfull]
    constructor
    · rintro rfl
      simp [instField_commandWord]
    · rintro ⟨hw, h0⟩
      rwa [h0 hplain] at hw
  · rw [if_neg hplain, and_instMask_eq_commandWord_iff]
    exact ⟨fun hw => ⟨hw, fun h => absurd h hplain⟩, And.left⟩

/-- A row's pattern is every word it matches, with INST = 0. -/
theorem pattern_of_selects {r : Row} {w : Word} (hr : r ∈ opcodeRows) (h : r.Selects w) :
    r.pattern = w &&& instMask := by
  obtain ⟨opc, var, mod, hd⟩ := exists_describes r hr
  rw [hd.fits.1, and_instMask_eq_commandWord_iff.2 (hd.fits.selects_iff.1 h).1]

/-- No word selects two rows. -/
theorem row_unique {r q : Row} {w : Word} (hr : r ∈ opcodeRows) (hq : q ∈ opcodeRows) (hrw : r.Selects w)
    (hqw : q.Selects w) : r = q :=
  List.inj_on_of_nodup_map nodup_patterns hr hq ((pattern_of_selects hr hrw).trans (pattern_of_selects hq hqw).symm)

theorem countP_selects_le_one (w : Word) : opcodeRows.countP (fun r => w &&& r.mask == r.pattern) ≤ 1 :=
  calc opcodeRows.countP (fun r => w &&& r.mask == r.pattern)
    _ ≤ opcodeRows.countP ((· == w &&& instMask) ∘ Row.pattern) :=
      List.countP_mono_left fun _ hr hw => beq_iff_eq.2 (pattern_of_selects hr (beq_iff_eq.1 hw))
    _ = (opcodeRows.map Row.pattern).count (w &&& instMask) := List.countP_map.symm
    _ ≤ 1 := List.nodup_iff_count_le_one.1 nodup_patterns _

/-- The command of a selected row has the word. -/
theorem encode_of_selects {r : Row} {w : Word} (hr : r ∈ opcodeRows) (h : r.Selects w) :
    (r.build (instField w)).inst = instField w ∧ encode (r.build (instField w)) = w := by
  obtain ⟨opc, var, mod, hd⟩ := exists_describes r hr
  obtain ⟨hw, h0⟩ := hd.fits.selects_iff.1 h
  have hi : (r.build (instField w)).inst = instField w := by
    rw [hd.inst_build]
    split
    · exact (h0 ‹_›).symm
    · rfl
  exact ⟨hi, by rw [hd.encode_build, hi, ← hw]⟩

/-- The word of a well-formed command selects the row that builds the command. -/
theorem selects_encode {r : Row} {i : Instr} (hr : r ∈ opcodeRows) (hb : r.build i.inst = i) (hi : i.WellFormed) :
    instField (encode i) = i.inst ∧ r.Selects (encode i) := by
  obtain ⟨opc, var, mod, hd⟩ := exists_describes r hr
  have he : encode i = commandWord opc i.inst var mod := hb ▸ hd.encode_build i.inst
  have hf : instField (encode i) = i.inst := he ▸ instField_commandWord opc var mod hi
  refine ⟨hf, hd.fits.selects_iff.2 ⟨hf.symm ▸ he, fun hplain => ?_⟩⟩
  have h0 := hd.inst_build i.inst
  rwa [if_pos hplain, hb, ← hf] at h0

/-! ### The decoder -/

/-- The decoder answers the command of a row the word selects. -/
theorem decode_eq_ok_iff {w : Word} {i : Instr} :
    decode w = .ok i ↔ ∃ r ∈ opcodeRows, r.Selects w ∧ r.build (instField w) = i := by
  unfold decode
  cases hf : opcodeRows.find? (fun r => w &&& r.mask == r.pattern) with
  | none =>
    have hnone := List.find?_eq_none.1 hf
    simp only [reduceCtorEq, false_iff]
    rintro ⟨r, hr, hw, -⟩
    exact hnone r hr (beq_iff_eq.2 hw)
  | some q =>
    have hq := List.mem_of_find?_eq_some hf
    have hqw : q.Selects w := beq_iff_eq.1 (List.find?_some (p := fun r : Row => w &&& r.mask == r.pattern) hf)
    simp only [Except.ok.injEq]
    constructor
    · intro h
      exact ⟨q, hq, hqw, h⟩
    · rintro ⟨r, hr, hw, h⟩
      rwa [row_unique hq hr hqw hw]

/-- A word that selects no row is refused. -/
theorem decode_eq_error {w : Word} (h : ∀ r ∈ opcodeRows, ¬ r.Selects w) : decode w = .error (refusal w) := by
  have hf : opcodeRows.find? (fun r => w &&& r.mask == r.pattern) = none := by simpa using h
  rw [decode, hf]

/-! ### The words of R137 -/

theorem rsvField_eq (w : Word) : rsvField w = w.toNat / 2 ^ 20 := by
  have hlt := w.isLt
  rw [rsvField, field_eq]
  omega

theorem opcField_eq (w : Word) : opcField w = w.toNat % 2 ^ 8 := by
  rw [opcField, field_eq, Nat.pow_zero, Nat.div_one]

/-- The illegal words are those that fail one of the decoder's own tests. -/
theorem illegalWord_iff {w : Word} :
    IllegalWord w ↔ rsvField w ≠ 0 ∨ opcField w ∉ knownOpcodes ∨
      ¬ variantListed (opcField w) (varField w) (modField w) = true ∨
      (opcField w ∈ plainOpcodes ∧ instField w ≠ 0) := by
  rw [IllegalWord, listedOpcode_iff, listedVariant_iff, ← rsvField_eq, ← opcField_eq, ← field_eq w 12, ← field_eq w 16,
    ← field_eq w 8]
  refine or_congr_right (or_congr_right' fun h => ?_)
  rw [mem_plainOpcodes_iff (not_not.1 h)]
  rfl

theorem unsupportedWord_iff {w : Word} :
    UnsupportedWord w ↔ rsvField w = 0 ∧ opcField w = 0x42 ∧ varField w ≤ 2 ∧ modField w = 1 := by
  rw [UnsupportedWord, ← rsvField_eq, ← opcField_eq, ← field_eq w 12, ← field_eq w 16]
  rfl

theorem not_illegalWord_of_unsupportedWord {w : Word} (h : UnsupportedWord w) : ¬ IllegalWord w := by
  obtain ⟨hrsv, hopc, hvar, hmod⟩ := unsupportedWord_iff.1 h
  rw [illegalWord_iff, hrsv, hopc, hmod]
  simp [knownOpcodes, plainOpcodes, variantListed, hvar]

/-- The words R137 lets through are those of the listed commands, with INST = 0 for an opcode without instances. -/
theorem legal_iff {w : Word} :
    (¬ IllegalWord w ∧ ¬ UnsupportedWord w) ↔ ∃ opc var mod, ListedCommand opc var mod ∧
      w = commandWord opc (instField w) var mod ∧ (opc ∈ plainOpcodes → instField w = 0) := by
  rw [illegalWord_iff, unsupportedWord_iff]
  constructor
  · rintro ⟨hlegal, hdual⟩
    push Not at hlegal
    obtain ⟨hrsv, hopc, hv, hplain⟩ := hlegal
    refine ⟨_, _, _, ⟨hopc, hv, fun ⟨h42, h1⟩ => ?_⟩, eq_commandWord_of_rsvField hrsv, hplain⟩
    have hvar : varField w ≤ 2 := by simpa [variantListed, h42, h1] using hv
    exact hdual ⟨hrsv, h42, hvar, h1⟩
  · rintro ⟨opc, var, mod, ⟨hopc, hv, hdual⟩, hw, hplain⟩
    obtain ⟨hvar, hmod⟩ := lt_of_variantListed hv
    obtain ⟨hr, hm, hv', -, ho⟩ := commandWord_fields (lt_of_mem_knownOpcodes hopc)
      (Nat.lt_succ_of_le (instField_le w)) (show var < 16 by omega) (show mod < 16 by omega)
    rw [← hw] at hr hm hv' ho
    rw [hr, hm, hv', ho]
    tauto

/-- A row matches every word that R137 lets through, and no other (R136). -/
theorem exists_selects_iff {w : Word} :
    (∃ r ∈ opcodeRows, r.Selects w) ↔ ¬ IllegalWord w ∧ ¬ UnsupportedWord w := by
  rw [legal_iff]
  constructor
  · rintro ⟨r, hr, hw⟩
    obtain ⟨opc, var, mod, hd⟩ := exists_describes r hr
    exact ⟨opc, var, mod, hd.listed, hd.fits.selects_iff.1 hw⟩
  · rintro ⟨opc, var, mod, hl, hw⟩
    obtain ⟨r, hr, hf⟩ := exists_fits_of_listedCommand hl
    exact ⟨r, hr, hf.selects_iff.2 hw⟩

/-- The refusal of a word is `unsupported` when no test of R137 fails. -/
theorem refusal_eq_unsupported_iff {w : Word} : refusal w = .unsupported ↔ ¬ IllegalWord w := by
  rw [illegalWord_iff]
  unfold refusal
  split_ifs <;> simp_all

theorem decodeCode_of_ne {e : DecodeError} (h : e ≠ .unsupported) : decodeCode e = .illegal := by
  cases e with
  | unsupported => exact absurd rfl h
  | reservedBits | unknownOpcode | badVariant | badInstance => rfl

/-- A word without a row is stored in CMD and ends with the code of its refusal (R51, R402). -/
theorem runCommand_of_not_selects {w : Word} (h : ∀ r ∈ opcodeRows, ¬ r.Selects w) (s : State) :
    runCommand w s = .next { s with cmd := w, last := decodeCode (refusal w), err := true, draws := s.draws + 1 } :=
  runCommand_of_error (decode_eq_error h) s

theorem step_of_commandWrite {s : State} {rest : List HostAction} {w : Word}
    (h : s.bus = .write s.cfg.fcBase 4 w :: rest) : step s = runCommand w { s with bus := rest } :=
  (step_cons h).trans (serve_commandWrite { s with bus := rest } w)

/-! ### INST out of range, and the two-operand command lines -/

/-- A command whose INST is at or above the count of its unit raises RANGE before its body runs (R133, R403). -/
theorem exec_of_unitCount_le {i : Instr} {s : State} {u : FcUnit} (hu : unitOf i = some u)
    (h : unitCount s.cfg u ≤ i.inst) : exec i s = .next (s.raise .range) := by
  rw [unitOf_eq] at hu
  rw [← inst_meaningOf] at h
  rw [exec_eq_run]
  cases hm : meaningOf i with
  | whole commit | plain body => rw [hm] at hu; cases hu
  | avg n body => rw [hm] at hu h; cases hu; exact runAvg_of_le h
  | lo n body => rw [hm] at hu h; cases hu; exact runLo_of_le h
  | giir n body => rw [hm] at hu h; cases hu; exact runGiir_of_le h
  | fir n body => rw [hm] at hu h; cases hu; exact runFir_of_le h

/-- A command line whose operands are OP0 and OP1 (R143). -/
theorem commandActions_pair {i : Instr} {t u : OperandType} (h : operandsOf i = [(0, t), (1, u)]) (c : Params)
    (x y : Word) : commandActions c i [some x, some y] =
      [.write (c.fcBase + 0x20) 4 x, .write (c.fcBase + 0x24) 4 y, .write c.fcBase 4 (encode i)] := by
  rw [commandActions, h]
  rfl

end Sys2Proof

namespace Sys2Proof.Proofs

open Machine Claims

/-- Settles O1: the word has the command's fields, so it selects the command's row. -/
theorem decodeOfEncodeIsIdentity : Obligations.DecodeOfEncodeIsIdentity := by
  intro i hi
  obtain ⟨r, hr, hb⟩ := exists_row_build i
  obtain ⟨hf, hs⟩ := selects_encode hr hb hi
  exact decode_eq_ok_iff.2 ⟨r, hr, hs, hf.symm ▸ hb⟩

/-- Settles O2: a word that selects a row has the row's fields, and the INST its command carries. -/
theorem encodeOfDecodeIsIdentity : Obligations.EncodeOfDecodeIsIdentity := by
  intro w i h
  obtain ⟨r, hr, hw, rfl⟩ := decode_eq_ok_iff.1 h
  obtain ⟨hinst, hencode⟩ := encode_of_selects hr hw
  exact ⟨hinst.trans_le (instField_le w), hencode⟩

/-- Settles O3: the words with a row are those R137 lets through, and the patterns of the rows are distinct. -/
theorem legalWordSelectsExactlyOneRow : Obligations.LegalWordSelectsExactlyOneRow := by
  intro w
  refine ⟨fun hi hu => ?one, fun h => ?none⟩
  case one =>
    obtain ⟨r, hr, hw⟩ := exists_selects_iff.2 ⟨hi, hu⟩
    rw [← List.countP_eq_length_filter]
    exact le_antisymm (countP_selects_le_one w) (List.countP_pos_iff.2 ⟨r, hr, beq_iff_eq.2 hw⟩)
  case none =>
    rw [List.filter_eq_nil_iff]
    intro r hr hw
    obtain ⟨hi, hu⟩ := exists_selects_iff.1 ⟨r, hr, beq_iff_eq.1 hw⟩
    exact h.elim hi hu

/-- Settles O4: a word without a row ends with the code of its refusal, and any other decodes to its row's command. -/
theorem illegalWordsEndWithTheirCode : Obligations.IllegalWordsEndWithTheirCode := by
  intro s rest w hbus
  have norow : ¬ (¬ IllegalWord w ∧ ¬ UnsupportedWord w) → ∀ r ∈ opcodeRows, ¬ r.Selects w :=
    fun h r hr hw => h (exists_selects_iff.1 ⟨r, hr, hw⟩)
  rw [step_of_commandWrite hbus]
  refine ⟨fun hi => ?illegal, fun hu => ?unsupported, fun hi hu => ?command⟩
  case illegal =>
    rw [runCommand_of_not_selects (norow fun h => h.1 hi),
      decodeCode_of_ne fun h => refusal_eq_unsupported_iff.1 h hi]
  case unsupported =>
    rw [runCommand_of_not_selects (norow fun h => h.2 hu),
      refusal_eq_unsupported_iff.2 (not_illegalWord_of_unsupportedWord hu)]
    rfl
  case command =>
    obtain ⟨r, hr, hw⟩ := exists_selects_iff.2 ⟨hi, hu⟩
    have hd := decode_eq_ok_iff.2 ⟨r, hr, hw, rfl⟩
    exact ⟨_, hd, (encodeOfDecodeIsIdentity w _ hd).1⟩

/-- Settles O5: each word is its command's by the fields of R135, and the round trip decodes it. -/
theorem workedEncodings : Obligations.WorkedEncodings := by
  have worked : ∀ {i : Instr} {w : Word}, i.WellFormed → encode i = w → encode i = w ∧ decode w = .ok i :=
    fun hi he => ⟨he, he ▸ decodeOfEncodeIsIdentity _ hi⟩
  refine ⟨?_, ?_, ?_, ?_, ?_, ?_, ?_, ?_, ?_, ?_, ?_⟩
  all_goals exact worked (by decide) rfl

/-- Settles O23: every command of a unit runs on the record its INST selects, and INST is checked first. -/
theorem instanceOutOfRangeEndsWithRange : Obligations.InstanceOutOfRangeEndsWithRange :=
  fun _ _ _ _ hu h => exec_of_unitCount_le hu h

/-- Settles O60: one GIIR.CFG with the two counts, then a GIIR.SETB or GIIR.SETA for each tap, of two operands each. -/
theorem giirLoadExpandsAsWritten : Obligations.GiirLoadExpandsAsWritten := by
  intro c
  simp only [Line.expand, loadTaps, List.zipIdx_cons, List.flatMap_cons, commandActions_pair (i := .giirCfg 1) rfl,
    commandActions_pair (i := .giirSetb 1) rfl, commandActions_pair (i := .giirSeta 1) rfl]
  rfl

end Sys2Proof.Proofs
end

section
/-! SUPPORT. The ring-buffer average (R200, R201): the words of a unit's commands, exact multiples of one sample, and
what the two commands answer. -/

namespace Sys2Proof.Machine

open Claims

/-! ### The words of a command with instances (R131, R136) -/

/-- A command whose word carries the number of its record in INST has the words of `w0`, its word with INST = 0. -/
theorem encodedAs_of_commandWord {build : Nat → Instr} {opc var mod w0 : Nat} (hinst : ∀ n, (build n).inst = n)
    (hencode : ∀ n, encode (build n) = commandWord opc n var mod) (hw : (commandWord opc 0 var mod).toNat = w0) :
    EncodedAs build w0 := by
  intro n hn
  have hword : w0 + n * 2 ^ 8 = (encode (build n)).toNat := by
    rw [hencode, toNat_eq_and_instMask, commandWord_and_instMask, instField_commandWord _ _ _ hn, hw]
  rw [hword, BitVec.ofNat_toNat, BitVec.setWidth_eq]
  exact Proofs.decodeOfEncodeIsIdentity _ ((hinst n).trans_le hn)

/-! ### Exact multiples of one value (R21, R26) -/

theorem natAbs_fint (a : F32) : (fint a).natAbs = funits a := by
  unfold fint
  split <;> simp

/-- Operands of one sign add by magnitude and keep the sign, zeros too. -/
theorem fadd_of_fsign_eq {nan a b : F32} (ha : isFinite a = true) (hb : isFinite b = true) (hs : fsign a = fsign b) :
    fadd nan a b = fpack (fsign a) (roundMag (funits a + funits b) 1) := by
  have hsum : fint a + fint b =
      if fsign a then -((funits a + funits b : Nat) : Int) else (funits a + funits b : Nat) := by
    unfold fint
    rw [← hs]
    split <;> omega
  rw [fadd_finite ha hb, hsum, ← hs, Bool.and_self]
  generalize funits a + funits b = n
  obtain rfl | hn := Nat.eq_zero_or_pos n
  · simp
  · have hneg : ¬ (n : Int) < 0 := by omega
    cases fsign a <;> simp [hn, hn.ne', hneg]

/-- `a` is the finite value `k·v`, with the sign of `v`, a zero's too. -/
structure IsMultiple (k : Nat) (v a : F32) : Prop where
  finite : isFinite a = true
  sign : fsign a = fsign v
  units : funits a = k * funits v

theorem IsMultiple.one {v : F32} (h : isFinite v = true) : IsMultiple 1 v v := ⟨h, rfl, (Nat.one_mul _).symm⟩

/-- Adding `v` to `k·v` is exact where `(k + 1)·v` is a binary32 value. -/
theorem IsMultiple.fadd_self {k : Nat} {nan v a p : F32} (h : IsMultiple k v a) (hv : isFinite v = true)
    (hp : isFinite p = true) (hunits : funits p = (k + 1) * funits v) : IsMultiple (k + 1) v (fadd nan a v) := by
  have hlt : fmag p < infMag := (isFinite_iff p).1 hp
  have hsum : funits a + funits v = magUnits (fmag p) * 1 := by
    rw [h.units, ← funits_eq, hunits, Nat.mul_one, Nat.add_mul, Nat.one_mul]
  rw [fadd_of_fsign_eq h.finite hv h.sign, hsum, roundMag_magUnits one_pos hlt.le]
  have h31 := fmag_lt p
  refine ⟨?_, ?_, ?_⟩
  · rwa [isFinite_iff, fmag_fpack _ h31]
  · rw [fsign_fpack _ h31, h.sign]
  · rw [funits_eq, fmag_fpack _ h31, ← funits_eq, hunits]

/-- A sum of equal terms is exact where their multiples are binary32 values. -/
theorem isMultiple_sumF {ν : NaNs} {t : Nat → F32} {v : F32} {m : Nat} (hv : isFinite v = true)
    (ht : ∀ i ≤ m, t i = v)
    (hex : ∀ k, 1 ≤ k → k ≤ m + 1 → ∃ p, isFinite p = true ∧ funits p = k * funits v) :
    IsMultiple (m + 1) v (sumF ν t m) := by
  induction m with
  | zero => rw [sumF, ht 0 le_rfl]; exact .one hv
  | succ m ih =>
    obtain ⟨p, hp, hunits⟩ := hex (m + 2) (by omega) le_rfl
    have hsum := ih (fun i hi => ht i (by omega)) fun k h1 hk => hex k h1 (by omega)
    rw [sumF, ht (m + 1) le_rfl]
    exact hsum.fadd_self hv hp hunits

/-- Dividing `k·v` by k answers v, bit for bit, where `i2f` is exact. -/
theorem IsMultiple.fdiv_i2f {k : Nat} {nan v a : F32} (h : IsMultiple k v a) (hv : isFinite v = true) (h1 : 1 ≤ k)
    (hk : k ≤ 2 ^ 24) : fdiv nan a (i2f k) = v := by
  have hlt := roundMag_lt (k * 2 ^ 149) 1
  have hi2f : i2f k = fpack false (roundMag (k * 2 ^ 149) 1) := by
    rw [i2f, Int.natAbs_natCast, decide_eq_false (by omega)]
  have hfinite : isFinite (i2f k) = true := isFinite_i2f (by rw [Int.natAbs_natCast]; omega)
  have hunits : funits (i2f k) = k * 2 ^ 149 := by
    rw [hi2f, funits_eq, fmag_fpack _ hlt, magUnits_roundMag_nat hk]
  have hpos : 0 < k * 2 ^ 149 := by positivity
  have hquot : funits a * 2 ^ 149 = magUnits (fmag v) * (k * 2 ^ 149) := by
    rw [h.units, funits_eq, Nat.mul_right_comm, Nat.mul_comm]
  rw [fdiv_finite h.finite hfinite (hunits ▸ hpos), hunits, hquot,
    roundMag_magUnits hpos ((isFinite_iff v).1 hv).le, hi2f, fsign_fpack _ hlt, Bool.bne_false, h.sign,
    fpack_fsign_fmag]

/-! ### What AVG.PROC answers (R200) -/

/-- R200's sum, with R115's index as it stands in the ring: going back less than its length needs one wraparound. -/
theorem avgSum_eq (ν : NaNs) {C N : Nat} (c : Nat) (hN : N ≤ C) (buf : List F32) :
    avgSum ν C c N buf = sumF ν (fun i => rd buf ((c + C - i) % C)) (N - 1) := by
  refine sumF_congr fun i hi => ?_
  rw [ringIndex_eq (by omega)]

theorem avgProc_of_window_bad {s : State} (A : AvgInst) (h : s.op[1].toNat < 1 ∨ s.cfg.avgCap < s.op[1].toNat) :
    avgProc s A = .error .range := if_pos h

theorem avgProc_of_window {s : State} (A : AvgInst) (h1 : 1 ≤ s.op[1].toNat) (hN : s.op[1].toNat ≤ s.cfg.avgCap) :
    avgProc s A = .ok ({ buf := A.buf.set A.cur s.op[0], cur := (A.cur + 1) % s.cfg.avgCap },
      .one (fdiv (s.nans 0) (avgSum s.nans s.cfg.avgCap A.cur s.op[1].toNat (A.buf.set A.cur s.op[0]))
        (i2f s.op[1].toNat))) :=
  if_neg (by unfold asU32; omega)

/-- Writing the sample every place of the window holds leaves the window full of it. -/
theorem rd_set_window {buf : List F32} {C c N : Nat} {v : F32} (hlen : buf.length = C) (hc : c < C)
    (h : ∀ i, 1 ≤ i → i < N → rd buf ((c + C - i) % C) = v) {i : Nat} (hi : i < N) :
    rd (buf.set c v) ((c + C - i) % C) = v := by
  obtain rfl | hpos := Nat.eq_zero_or_pos i
  · rw [Nat.sub_zero, Nat.add_mod_right, Nat.mod_eq_of_lt hc]
    exact rd_set_self (hlen ▸ hc) v
  · rw [rd_set]
    split
    exacts [rfl, h i hpos hi]

end Sys2Proof.Machine

namespace Sys2Proof.Proofs

open Machine Claims

/-- Settles O25: INST and the window are checked first; past the checks the body commits R200's record and quotient. -/
theorem avgProcMeansTheWindow : Obligations.AvgProcMeansTheWindow := by
  refine ⟨encodedAs_of_commandWord (fun _ => rfl) (fun _ => rfl) rfl, fun s n hs =>
    ⟨runAvg_of_le, fun hbad => ?range, fun A hA h1 hN => ⟨s.nans, freeNaNs_quiet s.draws, ?next⟩⟩⟩
  case range =>
    obtain hn | hn := Nat.lt_or_ge n s.cfg.niAvg
    · exact runAvg_of_error hn (avgProc_of_window_bad _ hbad)
    · exact runAvg_of_le hn
  case next =>
    obtain ⟨-, hlen, -⟩ := hs
    have hn : n < s.cfg.niAvg := hlen ▸ (List.getElem?_eq_some_iff.1 hA).1
    have hbody := avgProc_of_window A h1 hN
    rw [avgSum_eq _ _ hN] at hbody
    obtain rfl := State.avgAt_of_get hA
    exact runAvg_of_ok hn hbody

/-- Settles O28: each partial sum is the next multiple of the sample, exactly, and the quotient takes the last one
back to the sample. -/
theorem avgSteadyStateIsExact : Obligations.AvgSteadyStateIsExact := by
  intro s n A hs hn hA h1 hN hfin hwindow hmul
  obtain ⟨-, hproc⟩ := avgProcMeansTheWindow
  obtain ⟨-, -, hnext⟩ := hproc s n hs
  obtain ⟨ν, -, hexec⟩ := hnext A hA h1 hN
  refine ⟨_, hexec, rfl, ?_⟩
  obtain ⟨⟨⟨-, hcap⟩, -⟩, -, havg, -⟩ := hs
  obtain ⟨hlen, hcur⟩ : A.Inv s.cfg := havg A (List.mem_of_getElem? hA)
  have hsum := isMultiple_sumF (ν := ν) (m := s.op[1].toNat - 1) hfin
    (fun i hi => rd_set_window hlen hcur hwindow (i := i) (by omega)) fun k hk1 hk => by
      obtain ⟨p, hp, hint⟩ := hmul k hk1 (by omega)
      exact ⟨p, hp, by rw [← natAbs_fint, ← natAbs_fint, hint, Int.natAbs_mul, Int.natAbs_natCast]⟩
  rw [Nat.sub_add_cancel h1] at hsum
  simpa using hsum.fdiv_i2f hfin h1 (by omega)

/-- Settles O27: INST is checked, and the body answers the reset record and no result. -/
theorem avgClrZeroesTheRing : Obligations.AvgClrZeroesTheRing :=
  ⟨encodedAs_of_commandWord (fun _ => rfl) (fun _ => rfl) rfl, fun _ _ =>
    ⟨runAvg_of_le, fun hn => runAvg_of_ok (body := avgClr) (a := .reset _) (r := .none) hn rfl⟩⟩

end Sys2Proof.Proofs
end

section
/-! SUPPORT. The low-order filters (R230 to R242): R230's factor does not depend on the NaNs drawn, what the bodies of
LPk and HPk answer, and how a low-pass section stands between its last output and its input. -/

namespace Sys2Proof.Machine

open Claims

/-! ### The order of the values in units of 2^-149 (R20) -/

theorem fval_le_fval {a b : F32} : fval a ≤ fval b ↔ fint a ≤ fint b := by
  unfold fval
  rw [div_le_div_iff_of_pos_right (by positivity), Int.cast_le]

theorem fval_nonneg {a : F32} : 0 ≤ fval a ↔ 0 ≤ fint a := by
  unfold fval
  rw [le_div_iff₀ (by positivity), zero_mul, Int.cast_nonneg_iff]

/-! ### The checks of the factor (R230) -/

theorem isNaN_nans_lane (s : State) (m c k : Nat) : isNaN (s.nans.lane m c k) = true := isNaN_quietNaN _

theorem nans_lane_quiet (s : State) (m c : Nat) : (s.nans.lane m c).Quiet := fun _ => freeNaNs_quiet s.draws _

theorem fval_pos_of_posFinite {x : F32} (h : posFinite x = true) : 0 < fval x := by
  obtain ⟨hfin, hgt⟩ := (posFinite_iff x).1 h
  rwa [fgt, flt_eq (by decide) (isNaN_of_isFinite hfin), decide_eq_true_iff, forder_lt_forder,
    fval_eq_zero.2 (by decide)] at hgt

/-- The check of a value does not see the bits of a NaN. -/
theorem NaNEq.posFinite_eq {x y : F32} (h : NaNEq x y) : posFinite x = posFinite y := by
  obtain rfl | ⟨hx, hy⟩ := h
  · rfl
  · simp [posFinite, fgt, flt, hx, hy]

theorem loAccepted_iff {s : State} :
    LoAccepted s ↔ posFinite s.op[1] = true ∧ posFinite s.op[2] = true ∧ posFinite (loW s) = true := by
  simp only [posFinite_iff]
  rfl

theorem loFactor_eq (ν : NaNs) (fc fs : F32) :
    loFactor ν fc fs =
      if posFinite fc = true ∧ posFinite fs = true ∧ posFinite (fdiv (ν 1) fs (fmul (ν 0) fTWOPI fc)) = true
      then .ok (fdiv (ν 1) fs (fmul (ν 0) fTWOPI fc)) else .error .param := by
  unfold loFactor
  simp only [← posFinite_iff]
  split_ifs <;> simp_all

/-- The factor a command computes is R230's w, but for the bits of a NaN. -/
theorem factor_nanEq (s : State) :
    NaNEq (fdiv (s.nans.lane 2 0 1) s.op[2] (fmul (s.nans.lane 2 0 0) fTWOPI s.op[1])) (loW s) :=
  have hnan : isNaN someNaN = true := by decide
  fdiv_nanEq (isNaN_nans_lane ..) hnan (.refl _) (fmul_nanEq (isNaN_nans_lane ..) hnan (.refl _) (.refl _))

theorem loFactor_of_accepted {s : State} (h : LoAccepted s) :
    loFactor (s.nans.lane 2 0) s.op[1] s.op[2] = .ok (loW s) := by
  have hw := factor_nanEq s
  obtain ⟨hfc, hfs, hpos⟩ := loAccepted_iff.1 h
  rw [← hw.posFinite_eq] at hpos
  rw [loFactor_eq, if_pos ⟨hfc, hfs, hpos⟩, hw.eq (isNaN_of_isFinite ((posFinite_iff _).1 hpos).1)]

theorem loFactor_of_not_accepted {s : State} (h : ¬ LoAccepted s) :
    loFactor (s.nans.lane 2 0) s.op[1] s.op[2] = .error .param := by
  rw [loAccepted_iff, ← (factor_nanEq s).posFinite_eq] at h
  rw [loFactor_eq, if_neg h]

/-! ### The divisor a = 1 + w and the gain g = w / a (R230) -/

/-- A sum past the greatest finite value by less than half a grid step rounds back to a finite value. -/
theorem roundMag_add_one_lt {m : Nat} (h : m < infMag) : roundMag (2 ^ 149 + magUnits m) 1 < infMag := by
  rw [roundMag_eq_min, min_lt_iff]
  refine .inl (Nat.lt_of_not_le fun hle => ?_)
  rw [infMag_le_roundPat_iff _ one_pos] at hle
  have hmax := magUnits_le_magUnits (Nat.le_sub_one_of_lt h)
  rw [magUnits_maxFinite] at hmax
  omega

/-- `1 + w` is finite and positive for accepted operands. -/
theorem loA_finite_pos {s : State} (h : LoAccepted s) : isFinite (loA s) = true ∧ 0 < funits (loA s) := by
  obtain ⟨-, -, hw⟩ := loAccepted_iff.1 h
  obtain ⟨-, -, hfin, -⟩ := h
  obtain ⟨-, hlt, hint⟩ := isNonneg_of_fint hfin (fval_nonneg.1 (fval_pos_of_posFinite hw).le)
  have hsum : fint fONE + fint (loW s) = (2 ^ 149 + magUnits (fmag (loW s)) : Nat) := by
    rw [hint, fint, if_neg (by decide), funits_fONE, Int.natCast_add]
  have ha : IsNonneg (loA s) _ := isNonneg_fadd isFinite_fONE hfin hsum (roundMag_add_one_lt hlt)
  have hpos : 1 ≤ roundMag (2 ^ 149 + magUnits (fmag (loW s))) 1 :=
    le_roundMag one_pos (by decide) (by rw [magUnits_small (by norm_num)]; omega)
  exact ⟨ha.finite, ha.units ▸ magUnits_lt_magUnits hpos⟩

/-- No NaN is drawn for a, whose operands are finite. -/
theorem fadd_fONE_loW {s : State} (h : LoAccepted s) (nan : F32) : fadd nan fONE (loW s) = loA s := by
  obtain ⟨-, -, hfin, -⟩ := h
  exact (fadd_finite isFinite_fONE hfin).trans (fadd_finite isFinite_fONE hfin).symm

/-- No NaN is drawn for g, whose operands are finite and whose divisor is no zero. -/
theorem fdiv_loW_loA {s : State} (h : LoAccepted s) (nan : F32) :
    fdiv nan (loW s) (loA s) = fdiv someNaN (loW s) (loA s) := by
  obtain ⟨hfin, hpos⟩ := loA_finite_pos h
  obtain ⟨-, -, hw, -⟩ := h
  rw [fdiv_finite hw hfin hpos, fdiv_finite hw hfin hpos]

/-! ### What the bodies answer (R232 to R238) -/

theorem lpProc_of_accepted {s : State} (h : LoAccepted s) {f : LoId} {k : Nat} {L : LoInst} {F : LoFilter} {u : F32}
    (hF : loLp (s.nans.lane 2 1) (loA s) s.op[0] (L.get f) k = (F, u)) :
    lpProc f k s L = .ok (L.put f F, .one u) := by
  unfold lpProc asF32
  cases s.cfg.loForm
  simp only [loFactor_of_accepted h, fadd_fONE_loW h, hF]

theorem lpProc_of_not_accepted {s : State} (h : ¬ LoAccepted s) (f : LoId) (k : Nat) (L : LoInst) :
    lpProc f k s L = .error .param := by
  unfold lpProc asF32
  cases s.cfg.loForm
  simp only [loFactor_of_not_accepted h]

theorem hpProc_of_accepted {s : State} (h : LoAccepted s) {f : LoId} {k : Nat} {L : LoInst} {F : LoFilter} {u p : F32}
    (hF : loHp (s.nans.lane 2 1) (fdiv someNaN (loW s) (loA s)) s.op[0] (L.get f) k = (F, u, p)) :
    hpProc f k s L = .ok (L.put f { F with x1 := s.op[0] }, .one u) := by
  unfold hpProc asF32
  cases s.cfg.loForm
  simp only [loFactor_of_accepted h, fadd_fONE_loW h, fdiv_loW_loA h, hF]

theorem hpProc_of_not_accepted {s : State} (h : ¬ LoAccepted s) (f : LoId) (k : Nat) (L : LoInst) :
    hpProc f k s L = .error .param := by
  unfold hpProc asF32
  cases s.cfg.loForm
  simp only [loFactor_of_not_accepted h]

/-! ### The cascades, section by section (R231, R232) -/

/-- Section `k` draws its three NaNs from lane `k` of four. -/
theorem lpSection_lane (ν : NaNs) (k : Nat) (a S v : F32) : lpSection (ν.lane 4 k) a S v = lpSec ν k a S v := by
  simp [lpSection, lpSec, NaNs.lane]

theorem hpSection_lane (ν : NaNs) (k : Nat) (g S v p : F32) : hpSection (ν.lane 4 k) g S v p = hpSec ν k g S v p := by
  simp [hpSection, hpSec, NaNs.lane]

theorem loLp_one (ν : NaNs) (a x : F32) (F : LoFilter) :
    let u1 := lpSec ν 0 a F.s1 x
    loLp ν a x F 1 = ({ F with s1 := u1 }, u1) := by
  simp only [loLp, lpSection_lane]; rfl

theorem loLp_two (ν : NaNs) (a x : F32) (F : LoFilter) :
    let u1 := lpSec ν 0 a F.s1 x
    let u2 := lpSec ν 1 a F.s2 u1
    loLp ν a x F 2 = ({ F with s1 := u1, s2 := u2 }, u2) := by
  simp only [loLp, lpSection_lane]; rfl

theorem loLp_three (ν : NaNs) (a x : F32) (F : LoFilter) :
    let u1 := lpSec ν 0 a F.s1 x
    let u2 := lpSec ν 1 a F.s2 u1
    let u3 := lpSec ν 2 a F.s3 u2
    loLp ν a x F 3 = ({ F with s1 := u1, s2 := u2, s3 := u3 }, u3) := by
  simp only [loLp, lpSection_lane]; rfl

theorem loHp_one (ν : NaNs) (g x : F32) (F : LoFilter) :
    let u1 := hpSec ν 0 g F.s1 x F.x1
    loHp ν g x F 1 = ({ F with s1 := u1 }, u1, F.s1) := by
  simp only [loHp, hpSection_lane]; rfl

theorem loHp_two (ν : NaNs) (g x : F32) (F : LoFilter) :
    let u1 := hpSec ν 0 g F.s1 x F.x1
    let u2 := hpSec ν 1 g F.s2 u1 F.s1
    loHp ν g x F 2 = ({ F with s1 := u1, s2 := u2 }, u2, F.s2) := by
  simp only [loHp, hpSection_lane]; rfl

theorem loHp_three (ν : NaNs) (g x : F32) (F : LoFilter) :
    let u1 := hpSec ν 0 g F.s1 x F.x1
    let u2 := hpSec ν 1 g F.s2 u1 F.s1
    let u3 := hpSec ν 2 g F.s3 u2 F.s2
    loHp ν g x F 3 = ({ F with s1 := u1, s2 := u2, s3 := u3 }, u3, F.s3) := by
  simp only [loHp, hpSection_lane]; rfl

/-! ### The commands (R233 to R238) -/

/-- A body that raises PARAM where R230's checks fail, and nothing where they pass. -/
def FactorChecked (body : State → LoInst → Except Code (LoInst × Results)) : Prop :=
  ∀ s L, (¬ LoAccepted s → body s L = .error .param) ∧ (LoAccepted s → ∃ r, body s L = .ok r)

theorem lpProc_factorChecked (f : LoId) (k : Nat) : FactorChecked (lpProc f k) :=
  fun _ L => ⟨fun h => lpProc_of_not_accepted h f k L, fun h => ⟨_, lpProc_of_accepted h rfl⟩⟩

theorem hpProc_factorChecked (f : LoId) (k : Nat) : FactorChecked (hpProc f k) :=
  fun _ L => ⟨fun h => hpProc_of_not_accepted h f k L, fun h => ⟨_, hpProc_of_accepted h rfl⟩⟩

theorem exists_factorChecked {i : Instr} {n : Nat} (hi : IsLoFilter i n) :
    ∃ body, (∀ s, exec i s = runLo n body s) ∧ FactorChecked body := by
  obtain rfl | rfl | rfl | rfl | rfl | rfl := hi
  · exact ⟨_, fun _ => rfl, lpProc_factorChecked .lp1 1⟩
  · exact ⟨_, fun _ => rfl, lpProc_factorChecked .lp2 2⟩
  · exact ⟨_, fun _ => rfl, lpProc_factorChecked .lp3 3⟩
  · exact ⟨_, fun _ => rfl, hpProc_factorChecked .hp1 1⟩
  · exact ⟨_, fun _ => rfl, hpProc_factorChecked .hp2 2⟩
  · exact ⟨_, fun _ => rfl, hpProc_factorChecked .hp3 3⟩

/-- The errors of the six filter commands: INST is checked before the factor. -/
theorem exec_loFilter_errors {i : Instr} {n : Nat} {s : State} (hi : IsLoFilter i n) :
    (s.cfg.niLo ≤ n → EndsWith i s .range) ∧ (n < s.cfg.niLo → ¬ LoAccepted s → EndsWith i s .param) := by
  obtain ⟨body, hexec, hbody⟩ := exists_factorChecked hi
  exact ⟨fun hn => (hexec s).trans (runLo_of_le hn),
    fun hn h => (hexec s).trans (runLo_of_error hn ((hbody s _).1 h))⟩

theorem exec_loFilter_of_accepted {i : Instr} {n : Nat} {s : State} (hi : IsLoFilter i n) (hn : n < s.cfg.niLo)
    (h : LoAccepted s) : ∃ t, exec i s = .next t ∧ t.last = .ok ∧ t.err = s.err := by
  obtain ⟨body, hexec, hbody⟩ := exists_factorChecked hi
  obtain ⟨⟨M, r⟩, hok⟩ := (hbody s (s.loAt n)).2 h
  exact ⟨_, (hexec s).trans (runLo_of_ok hn hok), rfl, rfl⟩

/-! ### One low-pass section (R240, R242) -/

theorem LoFilter.eq_of_fields {F G : LoFilter} (h1 : F.s1 = G.s1) (h2 : F.s2 = G.s2) (h3 : F.s3 = G.s3)
    (hx : F.x1 = G.x1) : F = G := by
  cases F; cases G; simp_all

theorem lpSec_self (ν : NaNs) (k : Nat) {s : State} {V : F32} (h : LoAccepted s) (hV : isFinite V = true)
    (hne : V ≠ 0x80000000#32) : lpSec ν k (loA s) V V = V := by
  obtain ⟨hfin, hpos⟩ := loA_finite_pos h
  rw [← lpSection_lane, lpSection_self _ hfin hpos hV hne]

theorem lpSec_between (ν : NaNs) (k : Nat) {s : State} {S v : F32} (h : LoAccepted s)
    (hgt : fgt (loA s) 0x3F800000#32 = true) (hS : isFinite S = true) (hv : isFinite v = true) (h0 : 0 ≤ fval S)
    (hle : fval S ≤ fval v) :
    isFinite (lpSec ν k (loA s) S v) = true ∧ fval S ≤ fval (lpSec ν k (loA s) S v) ∧
      fval (lpSec ν k (loA s) S v) ≤ fval v := by
  rw [← lpSection_lane, fval_le_fval, fval_le_fval]
  exact lpSection_between _ (loA_finite_pos h).1 hgt hS hv (fval_nonneg.1 h0) (fval_le_fval.1 hle)

end Sys2Proof.Machine

namespace Sys2Proof.Proofs

open Machine Claims

/-- Settles O29: every body raises PARAM where R230's checks fail, and nothing where they pass. -/
theorem loFactorIsChecked : Obligations.LoFactorIsChecked :=
  fun _ _ _ hi hn => ⟨(exec_loFilter_errors hi).2 hn, exec_loFilter_of_accepted hi hn⟩

/-- Settles O30: past the checks each body answers its cascade on its own filter. -/
theorem lowPassCascades : Obligations.LowPassCascades := by
  refine ⟨⟨?_, ?_, ?_⟩, fun s n i hi => ?errors, fun s n L hn hL h => ?next⟩
  iterate 3 exact encodedAs_of_commandWord (fun _ => rfl) (fun _ => rfl) rfl
  case errors =>
    exact exec_loFilter_errors (by unfold IsLoFilter; tauto)
  case next =>
    obtain rfl := State.loAt_of_get hL
    have quiet := nans_lane_quiet s 2 1
    exact ⟨⟨_, quiet, runLo_of_ok hn (lpProc_of_accepted h (loLp_one ..))⟩,
      ⟨_, quiet, runLo_of_ok hn (lpProc_of_accepted h (loLp_two ..))⟩,
      ⟨_, quiet, runLo_of_ok hn (lpProc_of_accepted h (loLp_three ..))⟩⟩

/-- Settles O31: past the checks each body answers its cascade on its own filter, and keeps x. -/
theorem highPassCascades : Obligations.HighPassCascades := by
  refine ⟨⟨?_, ?_, ?_⟩, fun s n i hi => ?errors, fun s n L hn hL h => ?next⟩
  iterate 3 exact encodedAs_of_commandWord (fun _ => rfl) (fun _ => rfl) rfl
  case errors =>
    exact exec_loFilter_errors (by unfold IsLoFilter; tauto)
  case next =>
    obtain rfl := State.loAt_of_get hL
    have quiet := nans_lane_quiet s 2 1
    exact ⟨⟨_, quiet, runLo_of_ok hn (hpProc_of_accepted h (loHp_one ..))⟩,
      ⟨_, quiet, runLo_of_ok hn (hpProc_of_accepted h (loHp_two ..))⟩,
      ⟨_, quiet, runLo_of_ok hn (hpProc_of_accepted h (loHp_three ..))⟩⟩

/-- Settles O33: each section's new output stands between its old one and the new output of the section before it. -/
theorem lowPassStepResponseIsMonotone : Obligations.LowPassStepResponseIsMonotone := by
  intro s n L hn hL h hgt hx
  obtain ⟨-, -, hlp⟩ := lowPassCascades
  obtain ⟨⟨ν1, -, e1⟩, ⟨ν2, -, e2⟩, ⟨ν3, -, e3⟩⟩ := hlp s n L hn hL h
  have hlen : n < s.lo.length := (List.getElem?_eq_some_iff.1 hL).1
  refine ⟨fun f1 h0 h1 => ?lp1, fun f1 f2 h0 h2 h1 => ?lp2, fun f1 f2 f3 h0 h3 h2 h1 => ?lp3⟩
  case lp1 =>
    obtain ⟨g1, l1, u1⟩ := lpSec_between ν1 0 h hgt f1 hx h0 h1
    exact ⟨_, _, e1, rfl, List.getElem?_set_self hlen, Vector.getElem_set_self _, g1, l1, u1⟩
  case lp2 =>
    obtain ⟨g1, l1, u1⟩ := lpSec_between ν2 0 h hgt f1 hx (h0.trans h2) h1
    obtain ⟨g2, l2, u2⟩ := lpSec_between ν2 1 h hgt f2 g1 h0 (h2.trans l1)
    exact ⟨_, _, e2, rfl, List.getElem?_set_self hlen, Vector.getElem_set_self _, g1, g2, l1, l2, u2, u1⟩
  case lp3 =>
    obtain ⟨g1, l1, u1⟩ := lpSec_between ν3 0 h hgt f1 hx (h0.trans (h3.trans h2)) h1
    obtain ⟨g2, l2, u2⟩ := lpSec_between ν3 1 h hgt f2 g1 (h0.trans h3) (h2.trans l1)
    obtain ⟨g3, l3, u3⟩ := lpSec_between ν3 2 h hgt f3 g2 h0 (h3.trans l2)
    exact ⟨_, _, e3, rfl, List.getElem?_set_self hlen, Vector.getElem_set_self _, g1, g2, g3, l1, l2, l3, u3, u2, u1⟩

/-- Settles O34: a section at its input keeps its output, so every section takes V from the one before it and keeps
V. -/
theorem lowPassFixedPointIsExact : Obligations.LowPassFixedPointIsExact := by
  intro s n L hn hL h hV hne
  obtain ⟨-, -, hlp⟩ := lowPassCascades
  obtain ⟨⟨ν1, -, e1⟩, ⟨ν2, -, e2⟩, ⟨ν3, -, e3⟩⟩ := hlp s n L hn hL h
  have self := fun ν k => lpSec_self ν k h hV hne
  have keep : s.lo.set n L = s.lo := by
    obtain ⟨hlen, rfl⟩ := List.getElem?_eq_some_iff.1 hL
    exact List.set_getElem_self hlen
  refine ⟨fun h1 => ?lp1, fun h1 h2 => ?lp2, fun h1 h2 h3 => ?lp3⟩
  case lp1 =>
    have hF : { L.lp1 with s1 := s.op[0] } = L.lp1 := LoFilter.eq_of_fields h1.symm rfl rfl rfl
    simpa only [h1, self, hF, keep] using e1
  case lp2 =>
    have hF : { L.lp2 with s1 := s.op[0], s2 := s.op[0] } = L.lp2 := LoFilter.eq_of_fields h1.symm h2.symm rfl rfl
    simpa only [h1, h2, self, hF, keep] using e2
  case lp3 =>
    have hF : { L.lp3 with s1 := s.op[0], s2 := s.op[0], s3 := s.op[0] } = L.lp3 :=
      LoFilter.eq_of_fields h1.symm h2.symm h3.symm rfl
    simpa only [h1, h2, h3, self, hF, keep] using e3

/-- Settles O32: INST is checked, and the body re-initialises the filters it lists. -/
theorem loClrClearsTheSelectedFilters : Obligations.LoClrClearsTheSelectedFilters := by
  refine ⟨⟨?_, ?_, ?_, ?_, ?_, ?_, ?_⟩, fun s n => ⟨fun hn i hi => ?range, fun L hn hL => ?next⟩⟩
  iterate 7 exact encodedAs_of_commandWord (fun _ => rfl) (fun _ => rfl) rfl
  case range =>
    fin_cases hi <;> exact runLo_of_le hn
  case next =>
    obtain rfl := State.loAt_of_get hL
    refine ⟨?_, ?_, ?_, ?_, ?_, ?_, ?_⟩
    all_goals exact runLo_of_ok (body := loClr _) (r := .none) hn rfl

end Sys2Proof.Proofs
end

section
/-! SUPPORT. The general IIR (R260 to R270): a tap access after its checks, the direct-form-I step on one channel, and
what GIIR.PROC and GIIR.PROC2 answer on a configured record. -/

namespace Sys2Proof.Machine

open Claims

/-! ### Tap accesses (R261 to R264) -/

/-- An access of tap `k` of a table of `len` taps: the error of its checks, else `answer`. -/
def tapAccess {α : Type} (len k : Nat) (answer : α) : Except Code α :=
  match tapCheck len k with
  | some c => .error c
  | none   => .ok answer

theorem giirSetb_eq (s : State) (G : GiirInst) :
    giirSetb s G = tapAccess G.nb s.op[0].toNat ({ G with b := G.b.set s.op[0].toNat s.op[1] }, .none) := rfl

theorem giirSeta_eq (s : State) (G : GiirInst) :
    giirSeta s G = tapAccess G.na s.op[0].toNat ({ G with a := G.a.set s.op[0].toNat s.op[1] }, .none) := rfl

theorem giirGetb_eq (s : State) (G : GiirInst) :
    giirGetb s G = tapAccess G.nb s.op[0].toNat (G, .one (rd G.b s.op[0].toNat)) := rfl

theorem giirGeta_eq (s : State) (G : GiirInst) :
    giirGeta s G = tapAccess G.na s.op[0].toNat (G, .one (rd G.a s.op[0].toNat)) := rfl

theorem tapAccess_unconfigured {α : Type} {len : Nat} (k : Nat) (answer : α) (h : len = 0) :
    tapAccess len k answer = .error .notcfg := by
  rw [tapAccess, tapCheck, if_pos h]

theorem tapAccess_of_le {α : Type} {len k : Nat} (answer : α) (h0 : len ≠ 0) (hk : len ≤ k) :
    tapAccess len k answer = .error .range := by
  rw [tapAccess, tapCheck, if_neg h0, if_pos hk]

theorem tapAccess_of_lt {α : Type} {len k : Nat} (answer : α) (hk : k < len) :
    tapAccess len k answer = .ok answer := by
  rw [tapAccess, tapCheck_eq_none.2 hk]

/-- The outcomes of a tap access of a general-IIR record: NOTCFG before RANGE, else the answer is committed. -/
theorem runGiir_tapAccess {s : State} {n len k : Nat} {body} {G : GiirInst} {r : Results} (hn : n < s.cfg.niGiir)
    (hbody : body s (s.giirAt n) = tapAccess len k (G, r)) :
    (len = 0 → runGiir n body s = .next (s.raise .notcfg)) ∧
    (len ≠ 0 → len ≤ k → runGiir n body s = .next (s.raise .range)) ∧
    (len ≠ 0 → k < len → runGiir n body s = .next (s.setGiir n G r).complete) :=
  ⟨fun h => runGiir_of_error hn (hbody.trans (tapAccess_unconfigured k _ h)),
    fun h0 hk => runGiir_of_error hn (hbody.trans (tapAccess_of_le _ h0 hk)),
    fun _ hk => runGiir_of_ok hn (hbody.trans (tapAccess_of_lt _ hk))⟩

/-- Committing a record as it was changes the results only. -/
theorem State.setGiir_self {s : State} {n : Nat} {G : GiirInst} (h : s.giir[n]? = some G) (r : Results) :
    s.setGiir n G r = { s with res := r.write s.res } := by
  obtain ⟨hn, rfl⟩ := List.getElem?_eq_some_iff.1 h
  rw [State.setGiir, List.set_getElem_self]

/-! ### The direct-form-I step (R268) -/

/-- A history of `m` entries in use after R268 shifted it and wrote `v` (R119). -/
theorem rd_shiftUp_set_zero {m : Nat} {H : List F32} (v : F32) (hm : 0 < m) (hH : m ≤ H.length) :
    ((shiftUp (m - 1) H).set 0 v).length = H.length ∧ rd ((shiftUp (m - 1) H).set 0 v) 0 = v ∧
    (∀ k, 1 ≤ k → k < m → rd ((shiftUp (m - 1) H).set 0 v) k = rd H (k - 1)) ∧
    ∀ k, m ≤ k → rd ((shiftUp (m - 1) H).set 0 v) k = rd H k := by
  have hlt : m - 1 < H.length := by omega
  refine ⟨by simp, rd_set_self (by rw [length_shiftUp]; omega) v, fun k h1 hk => ?_, fun k hk => ?_⟩
  · rw [rd_set_ne _ (by omega), rd_shiftUp hlt, if_pos (by omega)]
  · rw [rd_set_ne _ (by omega), rd_shiftUp hlt, if_neg (by omega)]

/-- A sum draws no NaN for its first term. -/
theorem sumF_congr_nans {ν μ : NaNs} {t u : Nat → F32} {m : Nat} (hν : ∀ k, 1 ≤ k → k ≤ m → ν k = μ k)
    (ht : ∀ k, k ≤ m → t k = u k) : sumF ν t m = sumF μ u m := by
  induction m with
  | zero => exact ht 0 le_rfl
  | succ m ih =>
    rw [sumF, sumF, ih (fun k h1 hk => hν k h1 (by omega)) fun k hk => ht k (by omega), hν (m + 1) (by omega) le_rfl,
      ht (m + 1) le_rfl]

/-- The NaNs drawn for the output side of R268: number 0 for the subtraction, the others for the output sum, whose first
term is no addition. -/
def outputNaNs (ν : NaNs) : NaNs
  | 0     => ν.lane 3 1 0
  | k + 1 => ν.lane 3 2 (k + 1)

theorem outputNaNs_quiet {ν : NaNs} (h : ν.Quiet) : (outputNaNs ν).Quiet
  | 0     => h _
  | _ + 1 => h _

/-- The output sum of R268 over the shifted history is the one over the old history, an entry lower. -/
theorem dotDown_shiftUp (ν : NaNs) (a : List F32) {Y : List F32} {m : Nat} (hm : 2 ≤ m) (hY : m ≤ Y.length) :
    dotDown (ν.lane 3 2) a (shiftUp (m - 1) Y) (m - 1) 1 =
      sumF (fun j => outputNaNs ν (2 * j))
        (fun j => fmul (outputNaNs ν (2 * j + 1)) (rd a (m - 1 - j)) (rd Y (m - 2 - j))) (m - 2) := by
  refine sumF_congr_nans (fun k h1 _ => ?nan) (fun k hk => ?term)
  case nan =>
    obtain ⟨k, rfl⟩ := Nat.exists_eq_add_of_le' h1
    rfl
  case term =>
    have hidx : m - 1 - k - 1 = m - 2 - k := by omega
    rw [rd_shiftUp (by omega), if_pos (by omega), hidx]
    rfl

/-- `df1Step` answers histories and an output that R268 allows. -/
theorem df1_df1Step {ν : NaNs} (hν : ν.Quiet) {G : GiirInst} {X Y : List F32} (x : F32) (hb : 0 < G.nb)
    (ha : 0 < G.na) (hX : G.nb ≤ X.length) (hY : G.na ≤ Y.length) :
    Df1 G X Y x (df1Step ν G X Y x).1 (df1Step ν G X Y x).2.1 (df1Step ν G X Y x).2.2 := by
  refine ⟨ν.lane 3 0, outputNaNs ν, fun _ => hν _, outputNaNs_quiet hν, rd_shiftUp_set_zero x hb hX,
    rd_shiftUp_set_zero _ ha hY, ?_⟩
  dsimp only [df1Step]
  split_ifs with h1
  · rfl
  · rw [dotDown_shiftUp ν G.a (by omega) hY]
    rfl

/-- The step reads the counts and the taps of its record, and no history but the two it is given. -/
theorem df1Step_with_histories (ν : NaNs) (G : GiirInst) (H K H2 K2 X Y : List F32) (v : F32) :
    df1Step ν { G with x := H, y := K, x2 := H2, y2 := K2 } X Y v = df1Step ν G X Y v := rfl

/-! ### What GIIR.PROC and GIIR.PROC2 answer (R265, R266) -/

theorem GiirInst.Inv.na_pos {c : Params} {G : GiirInst} (h : G.Inv c) (hb : G.nb ≠ 0) : 0 < G.na := by
  obtain ⟨-, -, hiff, -⟩ := h
  omega

/-- On a configured record of a well-formed state either channel takes R268's step. -/
theorem df1_of_configured {s : State} {G : GiirInst} (hG : G.Inv s.cfg) (hb : G.nb ≠ 0) (c : Nat)
    {X Y : List F32} (x : F32) (hX : X.length = s.cfg.giirCap) (hY : Y.length = s.cfg.giirCap) :
    Df1 G X Y x (df1Step (s.nans.lane 2 c) G X Y x).1 (df1Step (s.nans.lane 2 c) G X Y x).2.1
      (df1Step (s.nans.lane 2 c) G X Y x).2.2 := by
  have ha := hG.na_pos hb
  obtain ⟨hnb, hna, -⟩ := hG
  exact df1_df1Step (nans_lane_quiet s 2 c) x (Nat.pos_of_ne_zero hb) ha (hX ▸ hnb) (hY ▸ hna)

/-- The record a general-IIR command of a well-formed state selects is well formed, and its number is in range. -/
theorem State.Inv.giir_get {s : State} (h : s.Inv) {n : Nat} {G : GiirInst} (hG : s.giir[n]? = some G) :
    n < s.cfg.niGiir ∧ G.Inv s.cfg := by
  obtain ⟨-, -, -, -, -, hlen, hinv, -⟩ := h
  exact ⟨hlen ▸ (List.getElem?_eq_some_iff.1 hG).1, hinv G (List.mem_of_getElem? hG)⟩

section Exec

variable {s : State} {n : Nat} {G : GiirInst} (hn : n < s.cfg.niGiir) (hG : s.giir[n]? = some G)

include hn hG

theorem runGiir_of_get_ok {body} {H : GiirInst} {r : Results} (h : body s G = .ok (H, r)) :
    runGiir n body s = .next (s.setGiir n H r).complete :=
  runGiir_of_ok hn ((State.giirAt_of_get hG).symm ▸ h)

theorem runGiir_of_get_error {body} {c : Code} (h : body s G = .error c) : runGiir n body s = .next (s.raise c) :=
  runGiir_of_error hn ((State.giirAt_of_get hG).symm ▸ h)

theorem exec_giirProc (hb : G.nb ≠ 0) :
    let p := df1Step (s.nans.lane 2 0) G G.x G.y s.op[0]
    exec (.giirProc n) s = .next { s with
      giir := s.giir.set n { G with x := p.1, y := p.2.1 }, res := s.res.set 0 p.2.2, last := .ok } :=
  runGiir_of_get_ok (body := giirProc) hn hG (if_neg hb)

theorem exec_giirProc2 (hb : G.nb ≠ 0) :
    let p := df1Step (s.nans.lane 2 0) G G.x G.y s.op[0]
    let q := df1Step (s.nans.lane 2 1) G G.x2 G.y2 s.op[1]
    exec (.giirProc2 n) s = .next { s with
      giir := s.giir.set n { G with x := p.1, y := p.2.1, x2 := q.1, y2 := q.2.1 }
      res := (s.res.set 0 p.2.2).set 1 q.2.2, last := .ok } :=
  runGiir_of_get_ok (body := giirProc2) hn hG (if_neg hb)

/-- GIIR.PROC2 on the state with other histories and operands, whose draw index, counts and taps are the same. -/
theorem exec_giirProc2_with (H K H2 K2 : List F32) {op : Vector Word 8} {v1 v2 : F32} (h1 : op[0] = v1)
    (h2 : op[1] = v2) (hb : G.nb ≠ 0) :
    let p := df1Step (s.nans.lane 2 0) G H K v1
    let q := df1Step (s.nans.lane 2 1) G H2 K2 v2
    exec (.giirProc2 n) { s with giir := s.giir.set n { G with x := H, y := K, x2 := H2, y2 := K2 }, op := op } =
      .next { s with
        giir := s.giir.set n { G with x := p.1, y := p.2.1, x2 := q.1, y2 := q.2.1 }
        op := op, res := (s.res.set 0 p.2.2).set 1 q.2.2, last := .ok } := by
  subst h1 h2
  have hlen : n < s.giir.length := (List.getElem?_eq_some_iff.1 hG).1
  have h := exec_giirProc2 (n := n) (G := { G with x := H, y := K, x2 := H2, y2 := K2 })
    (s := { s with giir := s.giir.set n { G with x := H, y := K, x2 := H2, y2 := K2 }, op := op }) hn
    (List.getElem?_set_self hlen) hb
  simpa only [df1Step_with_histories, List.set_set, State.nans] using h

end Exec

end Sys2Proof.Machine

namespace Sys2Proof.Proofs

open Machine Claims

/-- Settles O38: INST and the configuration are checked, and the body commits R268's step on channel 1. -/
theorem giirProcFiltersOneSample : Obligations.GiirProcFiltersOneSample := by
  refine ⟨encodedAs_of_commandWord (fun _ => rfl) (fun _ => rfl) rfl, fun s n hs =>
    ⟨runGiir_of_le, fun G hG hb => ?notcfg, fun G hG hb => ?next⟩⟩
  all_goals obtain ⟨hn, hinv⟩ := hs.giir_get hG
  case notcfg =>
    exact runGiir_of_get_error (body := giirProc) hn hG (if_pos hb)
  case next =>
    have ⟨_, _, _, _, _, hx, hy, _⟩ := hinv
    exact ⟨_, _, _, df1_of_configured hinv hb 0 _ hx hy, exec_giirProc hn hG hb⟩

/-- Settles O39: each channel's step reads its own histories, its own sample and its own lane of NaNs. -/
theorem giirChannelsNeverMix : Obligations.GiirChannelsNeverMix := by
  refine ⟨encodedAs_of_commandWord (fun _ => rfl) (fun _ => rfl) rfl, fun s n hs =>
    ⟨runGiir_of_le, fun G hG hb => ?notcfg, fun G hG hb => ?next⟩⟩
  all_goals obtain ⟨hn, hinv⟩ := hs.giir_get hG
  case notcfg =>
    exact runGiir_of_get_error (body := giirProc2) hn hG (if_pos hb)
  case next =>
    have ⟨_, _, _, _, _, hx, hy, hx2, hy2, _⟩ := hinv
    exact ⟨_, _, _, _, _, _, df1_of_configured hinv hb 0 _ hx hy, df1_of_configured hinv hb 1 _ hx2 hy2,
      exec_giirProc2 hn hG hb,
      fun H2 K2 x2 => ⟨_, _, _, exec_giirProc2_with hn hG G.x G.y H2 K2 (Vector.getElem_set_ne _ _ (by decide))
        (Vector.getElem_set_self _) hb⟩,
      fun H K x => ⟨_, _, _, exec_giirProc2_with hn hG H K G.x2 G.y2 (Vector.getElem_set_self _)
        (Vector.getElem_set_ne _ _ (by decide)) hb⟩⟩

/-- Settles O41: the input sum is its one term, 1.0 times the sample, and nothing is subtracted. -/
theorem giirIdentityFilter : Obligations.GiirIdentityFilter := by
  intro s n G hs hG hnb hna hone hnan
  obtain ⟨-, hproc⟩ := giirProcFiltersOneSample
  obtain ⟨-, -, hnext⟩ := hproc s n hs
  obtain ⟨X, Y, y, hstep, hexec⟩ := hnext G hG (by omega)
  obtain ⟨ν, _, -, -, ⟨-, hX, -, -⟩, -, hout⟩ := hstep
  have hterm : y = fmul (ν 1) fONE s.op[0] := by
    rw [hout, if_pos hna, hnb, sumF, hone, hX]
    rfl
  refine ⟨_, hexec, rfl, ?_⟩
  rw [Vector.getElem_set_self, hterm, fmul_comm, fmul_one _ hnan]

/-- Settles O35: INST and the counts are checked, and the body answers the cleared record with the new counts. -/
theorem giirCfgSetsCountsAndClears : Obligations.GiirCfgSetsCountsAndClears := by
  refine ⟨encodedAs_of_commandWord (fun _ => rfl) (fun _ => rfl) rfl, fun s n =>
    ⟨runGiir_of_le, fun hbad => ?range, fun hn hb1 hb ha1 ha => ?next⟩⟩
  case range =>
    obtain hn | hn := Nat.lt_or_ge n s.cfg.niGiir
    · exact runGiir_of_error (body := giirCfg) hn (if_pos hbad)
    · exact runGiir_of_le hn
  case next =>
    exact runGiir_of_ok (body := giirCfg) hn (if_neg (by unfold asU32; omega))

/-- Settles O36: both writes are tap accesses. -/
theorem giirTapWrites : Obligations.GiirTapWrites := by
  refine ⟨⟨?_, ?_⟩, fun s n => ⟨fun hn => ⟨runGiir_of_le hn, runGiir_of_le hn⟩, fun G hn hG => ?_⟩⟩
  iterate 2 exact encodedAs_of_commandWord (fun _ => rfl) (fun _ => rfl) rfl
  obtain rfl := State.giirAt_of_get hG
  exact ⟨runGiir_tapAccess hn (giirSetb_eq s _), runGiir_tapAccess hn (giirSeta_eq s _)⟩

/-- Settles O37: both reads are tap accesses that commit the record as it was. -/
theorem giirTapReads : Obligations.GiirTapReads := by
  refine ⟨⟨?_, ?_⟩, fun s n => ⟨fun hn => ⟨runGiir_of_le hn, runGiir_of_le hn⟩, fun G hn hG => ?_⟩⟩
  iterate 2 exact encodedAs_of_commandWord (fun _ => rfl) (fun _ => rfl) rfl
  obtain rfl := State.giirAt_of_get hG
  have hb := runGiir_tapAccess hn (giirGetb_eq s _)
  have ha := runGiir_tapAccess hn (giirGeta_eq s _)
  rw [State.setGiir_self hG] at hb ha
  exact ⟨hb, ha⟩

/-- Settles O40: INST is the only check, and the body clears the four histories. -/
theorem giirClrKeepsCoefficients : Obligations.GiirClrKeepsCoefficients :=
  ⟨encodedAs_of_commandWord (fun _ => rfl) (fun _ => rfl) rfl, fun _ _ =>
    ⟨runGiir_of_le, fun _ hn hG => runGiir_of_get_ok (body := giirClr) (r := .none) hn hG rfl⟩⟩

end Sys2Proof.Proofs
end

section
/-! SUPPORT. FIR design and readback (R301 to R321): what each check of R301 answers, the two ways a design ends, the
bounds that let every moving average pass R315, the taps of a sinc design as R302 to R305 name them, and their
symmetry. -/

namespace Sys2Proof.Machine

open Claims

/-! ### Bounds on magnitudes (R21, R26) -/

theorem fmag_i2f (n : Int) : fmag (i2f n) = roundMag (n.natAbs * 2 ^ 149) 1 := fmag_fpack _ (roundMag_lt _ _)

theorem fmag_fmul_le {nan a b : F32} {m : Nat} (ha : isFinite a = true) (hb : isFinite b = true)
    (h : funits a * funits b ≤ magUnits m * 2 ^ 149) : fmag (fmul nan a b) ≤ m := by
  rw [fmul_finite ha hb, fmag_fpack _ (roundMag_lt _ _)]
  exact roundMag_le (by positivity) h

theorem fmag_fdiv_le {nan a b : F32} {m : Nat} (ha : isFinite a = true) (hb : isFinite b = true) (h0 : 0 < funits b)
    (h : funits a * 2 ^ 149 ≤ magUnits m * funits b) : fmag (fdiv nan a b) ≤ m := by
  rw [fdiv_finite ha hb h0, fmag_fpack _ (roundMag_lt _ _)]
  exact roundMag_le h0 h

theorem isFinite_of_fmag_le {a : F32} {m : Nat} (h : fmag a ≤ m) (hm : m < infMag) : isFinite a = true :=
  (isFinite_iff a).2 (h.trans_lt hm)

theorem funits_le_of_fmag_le {a : F32} {m : Nat} (h : fmag a ≤ m) : funits a ≤ magUnits m :=
  magUnits_le_magUnits h

/-- The magnitude bits of 2^30. -/
def magTwo30 : Nat := 157 * 2 ^ 23

theorem magTwo30_lt : magTwo30 < infMag := by decide

theorem magUnits_magTwo30 : magUnits magTwo30 = 2 ^ 30 * 2 ^ 149 := by
  have h : magUnits (156 * 2 ^ 23 + 2 ^ 23) = 2 ^ 23 * 2 ^ 156 :=
    magUnits_pattern 156 (2 ^ 23) (by norm_num) (.inr (by norm_num))
  rw [← pow_add] at h ⊢
  exact h

/-- A value of magnitude 2^30 at most converts to an integer of 32 bits. -/
theorem fitsI32_f2i (r : CoefRound) {a : F32} (h : fmag a ≤ magTwo30) : fitsI32 (f2i r a) = true := by
  have hunits := funits_le_of_fmag_le h
  rw [magUnits_magTwo30] at hunits
  have hmag : truncMag r a ≤ 2 ^ 30 := by
    cases r <;> · simp only [truncMag]; omega
  unfold fitsI32 f2i
  rw [Bool.and_eq_true, decide_eq_true_iff, decide_eq_true_iff]
  split <;> omega

/-! ### Signs (R21, R26) -/

theorem i2f_neg {n : Int} (h : n ≠ 0) : i2f (-n) = fneg (i2f n) := by
  have hsign : decide (-n < 0) = !decide (n < 0) := by
    rw [← decide_not, decide_eq_decide]; omega
  rw [i2f, i2f, fneg_fpack _ (roundMag_lt _ _), Int.natAbs_neg, hsign]

/-- A product with a finite value other than zero changes its sign with that value. -/
theorem fmul_fneg {nan a b : F32} (ha : isNaN a = false) (hb : isFinite b = true) (h0 : isZero b = false) :
    fmul nan a (fneg b) = fneg (fmul nan a b) := by
  have hsign : (fsign a != !fsign b) = !(fsign a != fsign b) := by cases fsign a <;> cases fsign b <;> rfl
  simp only [fmul, isNaN_fneg, isInf_fneg, isZero_fneg, fsign_fneg, funits_fneg, ha, isNaN_of_isFinite hb,
    isInf_of_isFinite hb, h0, hsign, Bool.or_false, Bool.false_eq_true, if_false]
  cases hi : isInf a
  · exact (fneg_fpack _ (roundMag_lt _ _)).symm
  · rw [isZero_of_isInf hi]
    exact (fneg_fpack _ (by decide)).symm

/-- Two changes of sign cancel in a quotient. -/
theorem fdiv_fneg_fneg (nan a b : F32) : fdiv nan (fneg a) (fneg b) = fdiv nan a b := by
  simp only [fdiv, isNaN_fneg, isInf_fneg, isZero_fneg, fsign_fneg, funits_fneg, Bool.not_bne_not]

/-! ### The checks (R301) -/

theorem badFrequency_iff {f : F32} : BadFrequency f ↔ ¬ posFinite f = true := by
  rw [posFinite_iff]; rfl

section Checks

variable {c : Params} {D : Design}

theorem designCheck_of_order_bad (h : D.order < 1 ∨ c.firMax < D.order) : designCheck c D = some .range := if_pos h

theorem designCheck_ma (hk : D.kind = .ma) (h1 : 1 ≤ D.order) (hN : D.order ≤ c.firMax) : designCheck c D = none := by
  rw [designCheck, if_neg (by omega), if_pos hk]

variable (hk : D.kind ≠ .ma) (h1 : 1 ≤ D.order) (hN : D.order ≤ c.firMax)

include hk h1 hN

theorem designCheck_of_even (h : D.order % 2 = 0) : designCheck c D = some .range := by
  rw [designCheck, if_neg (by omega), if_neg hk, if_pos h]

omit h1 in
theorem designCheck_of_one_tap_hamm (hw : D.window = .hamm) (h : D.order = 1) : designCheck c D = some .range := by
  rw [designCheck, if_neg (by omega), if_neg hk, if_neg (by omega), if_pos ⟨hw, h⟩]

theorem designCheck_of_bad_frequencies (hodd : D.order % 2 = 1) (hw : D.window = .rect ∨ D.order ≠ 1)
    (hbad : BadFrequency D.fs ∨ BadFrequency D.f1 ∨ BadBand D.kind D.f1 D.f2) : designCheck c D = some .param := by
  have htaper : ¬ (D.window = .hamm ∧ D.order = 1) := by
    rintro ⟨hh, h⟩
    exact hw.resolve_left (fun hr => by rw [hr] at hh; cases hh) h
  rw [badFrequency_iff, badFrequency_iff] at hbad
  rw [designCheck, if_neg (by omega), if_neg hk, if_neg (by omega), if_neg htaper]
  by_cases hfs : posFinite D.fs = true
  · by_cases hf1 : posFinite D.f1 = true
    · have hband : BadBand D.kind D.f1 D.f2 := (hbad.resolve_left (· hfs)).resolve_left (· hf1)
      rw [if_neg (· hfs), if_neg (· hf1)]
      exact if_pos hband
    · rw [if_neg (· hfs), if_pos hf1]
  · rw [if_pos hfs]

end Checks

theorem accepted_of_sincOperands {s : State} {kind : FirKind} {w : Window} (h : SincOperands s kind w) :
    (designOf kind w s).Accepted s.cfg := by
  obtain ⟨⟨h1, hN⟩, hodd, hw, hfs, hf1, hband⟩ := h
  rw [badFrequency_iff, not_not] at hfs hf1
  refine ⟨h1, hN, hodd, fun hh => ?_, hfs, hf1, fun hk => by_contra fun hb => hband ⟨hk, hb⟩⟩
  exact hw.resolve_left fun hr => by cases hr; cases hh

/-! ### How a design command ends (R301, R315, R316) -/

section Exec

variable {s t : State} {n : Nat} {kind : FirKind} {w : Window}

theorem meaningOf_designInstr (kind : FirKind) (w : Window) (n : Nat) :
    meaningOf (designInstr kind w n) = .fir n (firDesign kind w) := by
  cases kind <;> cases w <;> rfl

theorem exec_designInstr (kind : FirKind) (w : Window) (n : Nat) (s : State) :
    exec (designInstr kind w n) s = runFir n (firDesign kind w) s := by
  rw [exec_eq_run, meaningOf_designInstr, Meaning.run]

theorem design_endsWith_range_of_le (hn : s.cfg.niFir ≤ n) : EndsWith (designInstr kind w n) s .range :=
  (exec_designInstr ..).trans (runFir_of_le hn)

theorem design_endsWith_of_error {c : Code} (hn : n < s.cfg.niFir)
    (h : firDesign kind w s (s.firAt n) = .error c) : EndsWith (designInstr kind w n) s c :=
  (exec_designInstr ..).trans (runFir_of_error hn h)

theorem design_endsWith_of_check {c : Code} (hn : n < s.cfg.niFir)
    (h : designCheck s.cfg (designOf kind w s) = some c) : EndsWith (designInstr kind w n) s c :=
  design_endsWith_of_error hn (by simp only [firDesign, h])

/-- A design whose checks and taps all pass commits its record. -/
theorem exec_design_of_valid {F : FirInst} (hn : n < s.cfg.niFir) (hF : s.fir[n]? = some F)
    (hc : designCheck s.cfg (designOf kind w s) = none)
    (hv : ∀ k, k < (designOf kind w s).order → tapValid s.cfg s.nans (designOf kind w s) k = true) :
    exec (designInstr kind w n) s = .next { s with
      fir := s.fir.set n (commitDesign s.cfg s.nans (designOf kind w s) F), last := .ok } := by
  obtain rfl := State.firAt_of_get hF
  exact (exec_designInstr ..).trans (runFir_of_ok hn (firDesign_of_valid hc hv))

theorem firDesign_eq_ok {F G : FirInst} {r : Results} (h : firDesign kind w s F = .ok (G, r)) :
    designCheck s.cfg (designOf kind w s) = none ∧
    (∀ k, k < (designOf kind w s).order → tapValid s.cfg s.nans (designOf kind w s) k = true) ∧
    G = commitDesign s.cfg s.nans (designOf kind w s) F := by
  unfold firDesign at h
  dsimp only at h
  split at h
  · cases h
  · split at h
    · rename_i hc hall
      cases h
      exact ⟨hc, fun k hk => List.all_eq_true.1 hall k (List.mem_range.2 hk), rfl⟩
    · cases h

/-- A design that ends with OK passed its checks, and its record was committed. -/
theorem exec_design_of_ok {G : FirInst} (h : exec (designInstr kind w n) s = .next t) (hok : t.last = .ok)
    (hG : t.fir[n]? = some G) :
    designCheck s.cfg (designOf kind w s) = none ∧
    (∀ k, k < (designOf kind w s).order → tapValid s.cfg s.nans (designOf kind w s) k = true) ∧
    ∃ F, G = commitDesign s.cfg s.nans (designOf kind w s) F := by
  obtain ⟨u, hu, rfl⟩ := exec_commits_of_ok h hok
  rw [meaningOf_designInstr] at hu
  obtain ⟨-, G', r, hbody, rfl⟩ := hu
  have hlen : n < (s.fir.set n G').length := (List.getElem?_eq_some_iff.1 hG).1
  rw [List.length_set] at hlen
  obtain rfl := eq_of_getElem?_set hlen hG
  obtain ⟨hc, hv, hcommit⟩ := firDesign_eq_ok hbody
  exact ⟨hc, hv, _, hcommit⟩

end Exec

/-! ### The moving average (R310) -/

/-- The float tap of a moving average of `N` samples. -/
def maTap (N : Nat) : F32 := fdiv someNaN fONE (i2f N)

theorem fmag_fONE_le_fmag_i2f {N : Nat} (h1 : 1 ≤ N) : fmag fONE ≤ fmag (i2f N) := by
  rw [fmag_i2f]
  refine le_roundMag one_pos (by decide) ?_
  rw [← funits_eq, funits_fONE, Nat.mul_one, Int.natAbs_natCast]
  exact Nat.le_mul_of_pos_left _ h1

theorem fmag_scaleP_le {c : Params} (hp : c.p ≤ 30) : fmag (scaleP c) ≤ magTwo30 := by
  rw [scaleP, fmag_i2f]
  refine roundMag_le one_pos ?_
  rw [magUnits_magTwo30, Nat.mul_one, Int.natAbs_pow]
  exact Nat.mul_le_mul_right _ (Nat.pow_le_pow_right (by norm_num) hp)

section MovingAverage

variable {N : Nat} (h1 : 1 ≤ N) (h32 : N ≤ 2 ^ 32)

include h1 h32

theorem isFinite_i2f_and_le_funits : isFinite (i2f N) = true ∧ 2 ^ 149 ≤ funits (i2f N) :=
  ⟨isFinite_i2f (by omega), funits_fONE ▸ magUnits_le_magUnits (fmag_fONE_le_fmag_i2f h1)⟩

/-- No NaN is drawn for 1/N. -/
theorem fdiv_fONE_i2f (nan : F32) : fdiv nan fONE (i2f N) = maTap N := by
  obtain ⟨hfin, hunits⟩ := isFinite_i2f_and_le_funits h1 h32
  have hpos : 0 < funits (i2f N) := lt_of_lt_of_le (by positivity) hunits
  rw [maTap, fdiv_finite isFinite_fONE hfin hpos, fdiv_finite isFinite_fONE hfin hpos]

theorem fmag_maTap_le : fmag (maTap N) ≤ fmag fONE := by
  obtain ⟨hfin, hunits⟩ := isFinite_i2f_and_le_funits h1 h32
  refine fmag_fdiv_le isFinite_fONE hfin (lt_of_lt_of_le (by positivity) hunits) ?_
  rw [← funits_eq, funits_fONE]
  exact Nat.mul_le_mul_left _ hunits

theorem isFinite_maTap : isFinite (maTap N) = true := isFinite_of_fmag_le (fmag_maTap_le h1 h32) (by decide)

variable {c : Params} (hp : c.p ≤ 30)

include hp

/-- The scaled tap is 2^30 at most, as the tap is 1.0 at most and 2^P is 2^30 at most. -/
theorem fmag_fmul_maTap_scaleP_le (nan : F32) : fmag (fmul nan (maTap N) (scaleP c)) ≤ magTwo30 := by
  have hscale := fmag_scaleP_le hp
  refine fmag_fmul_le (isFinite_maTap h1 h32) (isFinite_of_fmag_le hscale magTwo30_lt) ?_
  calc funits (maTap N) * funits (scaleP c)
      ≤ magUnits (fmag fONE) * magUnits magTwo30 :=
        Nat.mul_le_mul (funits_le_of_fmag_le (fmag_maTap_le h1 h32)) (funits_le_of_fmag_le hscale)
    _ = magUnits magTwo30 * 2 ^ 149 := by rw [← funits_eq, funits_fONE, Nat.mul_comm]

theorem fmul_maTap_scaleP (nan : F32) : fmul nan (maTap N) (scaleP c) = fmul someNaN (maTap N) (scaleP c) := by
  have hscale := isFinite_of_fmag_le (fmag_scaleP_le hp) magTwo30_lt
  rw [fmul_finite (isFinite_maTap h1 h32) hscale, fmul_finite (isFinite_maTap h1 h32) hscale]

end MovingAverage

theorem fillArray_const {α : Type} {cap N : Nat} (hN : N ≤ cap) (a z : α) :
    fillArray cap N (fun _ => a) z = List.replicate N a ++ List.replicate (cap - N) z := by
  refine List.ext_getElem (by simp [hN]) fun i _ _ => ?_
  simp [fillArray, List.getElem_append]

section MovingAverageTaps

variable {c : Params} {D : Design} (hk : D.kind = .ma) (h1 : 1 ≤ D.order) (h32 : D.order ≤ 2 ^ 32)

include hk h1 h32

theorem idealTap_ma (ν : NaNs) (i : Nat) : idealTap c ν D i = maTap D.order := by
  simp only [idealTap, hk]
  exact fdiv_fONE_i2f h1 h32 _

omit h1 h32 in
theorem designWindow_ma (ν : NaNs) (i : Nat) : designWindow c ν D i = fONE := by
  simp only [designWindow, hk]

theorem tapF_ma (ν : NaNs) (i : Nat) : tapF c ν D i = maTap D.order := by
  rw [tapF, idealTap_ma hk h1 h32, designWindow_ma hk, fmul_one _ (isNaN_of_isFinite (isFinite_maTap h1 h32))]

variable (hp : c.p ≤ 30)

include hp

theorem tapW_ma (ν : NaNs) (i : Nat) : tapW c ν D i = fmul someNaN (maTap D.order) (scaleP c) := by
  have hfin := isFinite_of_fmag_le (fmag_fmul_maTap_scaleP_le h1 h32 hp someNaN) magTwo30_lt
  rw [tapW, idealTap_ma hk h1 h32, designWindow_ma hk, fmul_maTap_scaleP h1 h32 hp,
    fmul_one _ (isNaN_of_isFinite hfin)]

theorem tapValid_ma (ν : NaNs) (i : Nat) : tapValid c ν D i = true := by
  have hle := fmag_fmul_maTap_scaleP_le h1 h32 hp someNaN
  rw [tapValid, tapF_ma hk h1 h32, tapW_ma hk h1 h32 hp, isFinite_maTap h1 h32, isFinite_of_fmag_le hle magTwo30_lt,
    fitsI32_f2i _ hle]
  rfl

theorem commitDesign_ma (ν : NaNs) (F : FirInst) (hN : D.order ≤ c.firMax) :
    commitDesign c ν D F = { F with
      order := D.order
      hf := List.replicate D.order (maTap D.order) ++ List.replicate (c.firMax - D.order) 0
      hi := List.replicate D.order (f2i c.coefRound (fmul someNaN (maTap D.order) (scaleP c))) ++
        List.replicate (c.firMax - D.order) 0
      bufA := zeros (2 * c.firMax)
      bufB := zeros (2 * c.firMax)
      bufR := zeros (2 * c.firMax)
      cur := 0 } := by
  simp only [commitDesign, tapF_ma hk h1 h32, tapW_ma hk h1 h32 hp, fillArray_const hN]

end MovingAverageTaps

/-! ### The taps of a sinc design (R302 to R305, R311 to R314) -/

section Sinc

variable {s : State} {kind : FirKind} {w : Window} (hk : kind ≠ .ma)

include hk

/-- In a design of odd order the centre index is the one whose double is next to the order. -/
theorem idealTap_someNaN {i : Nat} (hodd : s.op[2].toNat % 2 = 1) :
    idealTap s.cfg (fun _ => someNaN) (designOf kind w s) i =
      sincIdeal s.cfg kind s.op[0] s.op[1] s.op[3] s.op[2].toNat i := by
  have hcentre : i = (s.op[2].toNat - 1) / 2 ↔ 2 * i + 1 = s.op[2].toNat := by omega
  unfold idealTap sincIdeal sincTap
  simp only [designOf, asU32, asF32, hcentre]
  cases kind with
  | ma => exact absurd rfl hk
  | lp | hp | bp | bs => rfl

theorem designWindow_someNaN (i : Nat) :
    designWindow s.cfg (fun _ => someNaN) (designOf kind w s) i = winTap s.cfg w s.op[2].toNat i := by
  cases kind with
  | ma => exact absurd rfl hk
  | lp | hp | bp | bs => cases w <;> rfl

theorem tapF_someNaN {i : Nat} (hodd : s.op[2].toNat % 2 = 1) :
    tapF s.cfg (fun _ => someNaN) (designOf kind w s) i = sincHf s kind w i := by
  rw [sincHf, ← idealTap_someNaN (w := w) hk hodd, ← designWindow_someNaN hk]
  rfl

theorem tapW_someNaN {i : Nat} (hodd : s.op[2].toNat % 2 = 1) :
    tapW s.cfg (fun _ => someNaN) (designOf kind w s) i = sincHw s kind w i := by
  rw [sincHw, ← idealTap_someNaN (w := w) hk hodd, ← designWindow_someNaN hk]
  rfl

variable (hD : (designOf kind w s).Accepted s.cfg) {i : Nat} (hi : i < s.op[2].toNat)

include hD hi

/-- The float coefficient a command computes is R305's, but for the bits of a NaN. -/
theorem tapF_nanEq_sincHf : NaNEq (tapF s.cfg (s.nans.tap i) (designOf kind w s) i) (sincHf s kind w i) := by
  rw [← tapF_someNaN hk hD.odd]
  exact tapF_nanEq (fun _ => isNaN_quietNaN _) (fun _ => by decide) hD s.op[2].isLt.le hi

/-- The scaled coefficient a command computes is R305's, but for the bits of a NaN. -/
theorem tapW_nanEq_sincHw : NaNEq (tapW s.cfg (s.nans.tap i) (designOf kind w s) i) (sincHw s kind w i) := by
  rw [← tapW_someNaN hk hD.odd]
  exact tapW_nanEq (fun _ => isNaN_quietNaN _) (fun _ => by decide) hD s.op[2].isLt.le hi

/-- An accepted tap is the one R302 to R305 name: the NaNs drawn leave no trace in it. -/
theorem taps_eq_of_accepted (h : TapAccepted s kind w i) :
    tapF s.cfg (s.nans.tap i) (designOf kind w s) i = sincHf s kind w i ∧
    tapW s.cfg (s.nans.tap i) (designOf kind w s) i = sincHw s kind w i := by
  obtain ⟨hf, hw, -⟩ := h
  have ef := tapF_nanEq_sincHf hk hD hi
  have ew := tapW_nanEq_sincHw hk hD hi
  exact ⟨ef.eq (isNaN_of_isFinite (ef.isFinite_eq.trans hf)), ew.eq (isNaN_of_isFinite (ew.isFinite_eq.trans hw))⟩

theorem tapValid_iff_tapAccepted :
    tapValid s.cfg s.nans (designOf kind w s) i = true ↔ TapAccepted s kind w i := by
  have ef := tapF_nanEq_sincHf hk hD hi
  have ew := tapW_nanEq_sincHw hk hD hi
  simp only [tapValid, TapAccepted, fitsI32, Bool.and_eq_true, decide_eq_true_eq, ef.isFinite_eq, and_assoc]
  refine and_congr_right fun _ => ?_
  rw [ew.isFinite_eq]
  refine and_congr_right fun hw => ?_
  rw [ew.eq (isNaN_of_isFinite (ew.isFinite_eq.trans hw))]

end Sinc

/-- The operands and the float taps of a sinc design that ended with OK. -/
theorem sincDesign_of_ok {s t : State} {n : Nat} {kind : FirKind} {w : Window} {G : FirInst} (hk : kind ≠ .ma)
    (h : exec (designInstr kind w n) s = .next t) (hok : t.last = .ok) (hG : t.fir[n]? = some G) :
    (designOf kind w s).Accepted s.cfg ∧
    ∀ k, k < s.op[2].toNat → rd G.hf k = sincHf s kind w k := by
  obtain ⟨hc, hv, F, rfl⟩ := exec_design_of_ok h hok hG
  have hD := (designCheck_sinc hk).1 hc
  refine ⟨hD, fun k hlt => ?_⟩
  have htap := (tapValid_iff_tapAccepted hk hD hlt).1 (hv k hlt)
  rw [rd_commitDesign, if_pos ⟨hlt, hlt.trans_le hD.order_le⟩]
  exact (taps_eq_of_accepted hk hD hlt htap).1

/-! ### Symmetry of the ideal response (R321) -/

section Symmetry

variable {c : Params} {f fs : F32} {N i : Nat}

/-- The quotient in the argument of FSIN is a number. -/
theorem isNaN_sincQuotient (hf : isFinite f = true) (hs : posFinite fs = true) :
    isNaN (fdiv someNaN (fmul someNaN 0x40C90FDB#32 f) fs) = false :=
  isNaN_fdiv_nonzero (isNaN_fmul_finite (by decide) hf) ((posFinite_iff fs).1 hs).1 (isZero_of_posFinite hs)

variable (hodd : N % 2 = 1) (hi : i < N) (hne : 2 * i + 1 ≠ N)

include hodd hi hne

/-- The index mirrored in the centre is as far from it on the other side. -/
theorem i2f_mirror :
    i2f ((N - 1 - i : Nat) - ((N - 1) / 2 : Nat)) = fneg (i2f ((i : Int) - ((N - 1) / 2 : Nat))) := by
  rw [← i2f_neg (by omega)]
  congr 1
  omega

variable (h32 : N ≤ 2 ^ 32)

include h32

/-- A product with the distance from the centre changes sign with the side. -/
theorem fmul_mirror {nan a : F32} (ha : isNaN a = false) :
    fmul nan a (i2f ((N - 1 - i : Nat) - ((N - 1) / 2 : Nat))) =
      fneg (fmul nan a (i2f ((i : Int) - ((N - 1) / 2 : Nat)))) := by
  rw [i2f_mirror hodd hi hne, fmul_fneg ha (isFinite_i2f (by omega)) (isZero_i2f (by omega))]

omit hne in
/-- The sinc response is even where FSIN is odd: numerator and denominator both change sign. -/
theorem sincTap_mirror (hf : isFinite f = true) (hs : posFinite fs = true) (hsin : SinOddFor c f fs N) :
    sincTap c f fs N (N - 1 - i) = sincTap c f fs N i := by
  unfold sincTap
  by_cases hne : 2 * i + 1 = N
  · rw [if_pos hne, if_pos (by omega)]
  · have hsin_i := hsin i hi hne
    unfold sincArg at hsin_i
    rw [if_neg hne, if_neg (by omega)]
    dsimp only
    rw [fmul_mirror hodd hi hne h32 (isNaN_sincQuotient hf hs), fmul_mirror hodd hi hne h32 (by decide), hsin_i,
      fdiv_fneg_fneg]

omit hodd hne h32 in
/-- The ideal response of a type is even where the low-pass responses it is made of are. -/
theorem sincIdeal_mirror {kind : FirKind} {f2 : F32} (h1 : sincTap c f fs N (N - 1 - i) = sincTap c f fs N i)
    (h2 : kind = .bp ∨ kind = .bs → sincTap c f2 fs N (N - 1 - i) = sincTap c f2 fs N i) :
    sincIdeal c kind f f2 fs N (N - 1 - i) = sincIdeal c kind f f2 fs N i := by
  have hcentre : 2 * (N - 1 - i) + 1 = N ↔ 2 * i + 1 = N := by omega
  unfold sincIdeal
  simp only [h1, hcentre]
  cases kind with
  | ma | lp | hp => rfl
  | bp => simp only [h2 (.inl rfl)]
  | bs => simp only [h2 (.inr rfl)]

end Symmetry

/-! ### Coefficient readback (R317, R318) -/

theorem firGetcf_eq (s : State) (F : FirInst) :
    firGetcf s F = tapAccess F.order s.op[0].toNat (F, .one (rd F.hf s.op[0].toNat)) := rfl

theorem firGetci_eq (s : State) (F : FirInst) :
    firGetci s F = tapAccess F.order s.op[0].toNat (F, .one (low32 (rdInt F.hi s.op[0].toNat))) := rfl

/-- Committing a record as it was changes the results only. -/
theorem State.setFir_self {s : State} {n : Nat} {F : FirInst} (h : s.fir[n]? = some F) (r : Results) :
    s.setFir n F r = { s with res := r.write s.res } := by
  obtain ⟨hn, rfl⟩ := List.getElem?_eq_some_iff.1 h
  rw [State.setFir, List.set_getElem_self]

/-- The outcomes of reading a tap of a FIR record: NOTCFG before RANGE, else the answer, and the record as it was. -/
theorem runFir_tapRead {s : State} {n len k : Nat} {body} {F : FirInst} {r : Results} (hn : n < s.cfg.niFir)
    (hF : s.fir[n]? = some F) (hbody : body s F = tapAccess len k (F, r)) :
    (len = 0 → runFir n body s = .next (s.raise .notcfg)) ∧
    (len ≠ 0 → len ≤ k → runFir n body s = .next (s.raise .range)) ∧
    (k < len → runFir n body s = .next (State.complete { s with res := r.write s.res })) := by
  rw [← State.setFir_self hF]
  obtain rfl := State.firAt_of_get hF
  exact ⟨fun h => runFir_of_error hn (hbody.trans (tapAccess_unconfigured k _ h)),
    fun h0 hk => runFir_of_error hn (hbody.trans (tapAccess_of_le _ h0 hk)),
    fun hk => runFir_of_ok hn (hbody.trans (tapAccess_of_lt _ hk))⟩

end Sys2Proof.Machine

namespace Sys2Proof.Proofs

open Machine Claims

/-- Settles O44: a checked design commits exactly when every tap passes R315, and an accepted tap is the one the rules
name, whatever NaNs were drawn. -/
theorem sincDesignCommitsEveryTap : Obligations.SincDesignCommitsEveryTap := by
  refine ⟨⟨?_, ?_, ?_, ?_, ?_, ?_, ?_, ?_⟩, fun s n kind w F hk hn hF hops => ?design⟩
  iterate 8 exact encodedAs_of_commandWord (fun _ => rfl) (fun _ => rfl) rfl
  case design =>
    have hD := accepted_of_sincOperands hops
    have hc := (designCheck_sinc (D := designOf kind w s) hk).2 hD
    refine ⟨fun ⟨k, hlt, hbad⟩ => ?param, fun hacc => ⟨_, exec_design_of_valid hn hF hc
      fun k hlt => (tapValid_iff_tapAccepted hk hD hlt).2 (hacc k hlt), ⟨rfl, rfl, rfl, rfl, rfl⟩, ⟨rfl, rfl, rfl⟩,
      ⟨length_fillArray .., length_fillArray ..⟩, fun k hle => ?zeros, fun k hlt => ?taps⟩⟩
    case param =>
      rw [← tapValid_iff_tapAccepted hk hD hlt, Bool.not_eq_true] at hbad
      exact design_endsWith_of_error hn (firDesign_of_invalid hc hlt hbad)
    case zeros =>
      have hout : ¬ (k < (designOf kind w s).order ∧ k < s.cfg.firMax) := fun h => absurd h.1 (Nat.not_lt.2 hle)
      rw [rd_commitDesign, rdInt_commitDesign, if_neg hout, if_neg hout]
      exact ⟨rfl, rfl⟩
    case taps =>
      have hin : k < (designOf kind w s).order ∧ k < s.cfg.firMax := ⟨hlt, hlt.trans_le hD.order_le⟩
      obtain ⟨hf, hw⟩ := taps_eq_of_accepted hk hD hlt (hacc k hlt)
      rw [rd_commitDesign, rdInt_commitDesign, if_pos hin, if_pos hin, hf, hw]
      exact ⟨rfl, rfl⟩

/-- Settles O42: a command whose INST is in range ends with the first check that fails. -/
theorem designChecksInOrder : Obligations.DesignChecksInOrder := by
  intro s n kind w hn
  exact ⟨fun hbad => design_endsWith_of_check hn (designCheck_of_order_bad hbad), fun hk h1 hN =>
    ⟨fun heven => design_endsWith_of_check hn (designCheck_of_even hk h1 hN heven),
      fun hw hone => design_endsWith_of_check hn (designCheck_of_one_tap_hamm hk hN hw hone),
      fun hodd hw hbad => design_endsWith_of_check hn (designCheck_of_bad_frequencies hk h1 hN hodd hw hbad)⟩⟩

/-- Settles O43: 1/N is 1.0 at most, and 2^30 at most when scaled, so every tap passes R315. -/
theorem movingAverageDesign : Obligations.MovingAverageDesign := by
  refine ⟨⟨?_, ?_⟩, fun s n w => ⟨design_endsWith_range_of_le, fun hbad => ?range, fun F hlegal hn hF h1 hN => ?next⟩⟩
  iterate 2 exact encodedAs_of_commandWord (fun _ => rfl) (fun _ => rfl) rfl
  case range =>
    obtain hn | hn := Nat.lt_or_ge n s.cfg.niFir
    · exact design_endsWith_of_check hn (designCheck_of_order_bad hbad)
    · exact design_endsWith_range_of_le hn
  case next =>
    obtain ⟨-, -, -, -, -, -, -, hp, -⟩ := hlegal
    have h32 := s.op[2].isLt.le
    have hexec := exec_design_of_valid (w := w) hn hF (designCheck_ma rfl h1 hN)
      fun k _ => tapValid_ma rfl h1 h32 hp s.nans k
    rw [commitDesign_ma rfl h1 h32 hp s.nans F hN] at hexec
    exact hexec

/-- Settles O45: the centre tap is the closed form times 1.0, and the closed form of accepted operands is a number. -/
theorem lowPassCentreTapIsClosedForm : Obligations.LowPassCentreTapIsClosedForm := by
  intro s t n G h hok _ hG
  obtain ⟨hD, htaps⟩ := sincDesign_of_ok (kind := .lp) (w := .rect) (by decide) h hok hG
  have hodd : s.op[2].toNat % 2 = 1 := hD.odd
  have hnum : isNaN (fdiv someNaN (fmul someNaN 0x40000000#32 s.op[0]) s.op[3]) = false :=
    isNaN_fdiv_nonzero (isNaN_fmul_finite (by decide) ((posFinite_iff _).1 hD.f1).1) ((posFinite_iff _).1 hD.fs).1
      (isZero_of_posFinite hD.fs)
  rw [htaps _ (by omega), sincHf, sincIdeal, sincTap, if_pos (by omega)]
  exact fmul_one _ hnum

/-- Settles O46: the low-pass responses of the design's cutoffs are even, so its ideal response is, and every tap is
its ideal response times the same 1.0. -/
theorem rectangularDesignsAreSymmetric : Obligations.RectangularDesignsAreSymmetric := by
  intro s t n kind G hk h hok _ hG hsin1 hsin2 k hlt
  obtain ⟨hD, htaps⟩ := sincDesign_of_ok hk h hok hG
  have hfs : posFinite s.op[3] = true := hD.fs
  have hf1 : isFinite s.op[0] = true := ((posFinite_iff _).1 hD.f1).1
  have h32 := s.op[2].isLt.le
  have hsym := sincIdeal_mirror (kind := kind) hlt (sincTap_mirror hD.odd hlt h32 hf1 hfs hsin1)
    fun hband => sincTap_mirror hD.odd hlt h32 (hD.band hband).1 hfs (hsin2 hband)
  rw [htaps k hlt, htaps _ (by omega), sincHf, sincHf]
  exact congrArg (fmul someNaN · fONE) hsym.symm

/-- Settles O47: both reads are tap accesses that commit the record as it was. -/
theorem firCoefficientReadback : Obligations.FirCoefficientReadback := by
  refine ⟨⟨?_, ?_⟩, fun s n => ⟨fun hn => ⟨runFir_of_le hn, runFir_of_le hn⟩, fun F hn hF => ?_⟩⟩
  iterate 2 exact encodedAs_of_commandWord (fun _ => rfl) (fun _ => rfl) rfl
  obtain ⟨hf0, hfle, hflt⟩ := runFir_tapRead hn hF (firGetcf_eq s F)
  obtain ⟨hi0, hile, hilt⟩ := runFir_tapRead hn hF (firGetci_eq s F)
  exact ⟨fun h => ⟨hf0 h, hi0 h⟩, fun h0 hle => ⟨hfle h0 hle, hile h0 hle⟩, fun _ hlt => ⟨hflt hlt, hilt hlt⟩⟩

end Sys2Proof.Proofs
end

section
/-! SUPPORT. FIR convolution (R340 to R352): how a command of the FIR unit ends on the record it selects, the one sum
the three indexing policies take over a doubled buffer, and the bodies of FIR.PROCF, FIR.PROCI and FIR.PROC2 under any
policy. -/

namespace Sys2Proof.Machine

open Claims

/-! ### How a command of the FIR unit ends (R72, R403) -/

/-- The record a FIR command of a well-formed state selects is well formed, and its number is in range. -/
theorem State.Inv.fir_get {s : State} (h : s.Inv) {n : Nat} {F : FirInst} (hF : s.fir[n]? = some F) :
    n < s.cfg.niFir ∧ F.Inv s.cfg := by
  obtain ⟨-, -, -, -, -, -, -, hlen, hinv⟩ := h
  exact ⟨hlen ▸ (List.getElem?_eq_some_iff.1 hF).1, hinv F (List.mem_of_getElem? hF)⟩

section Exec

variable {i : Instr} {n : Nat} {body : State → FirInst → Except Code (FirInst × Results)} {s : State} {F : FirInst}

theorem exec_of_meaningOf_fir (hi : meaningOf i = .fir n body) (s : State) : exec i s = runFir n body s := by
  rw [exec_eq_run, hi, Meaning.run]

theorem fir_endsWith_range_of_le (hi : meaningOf i = .fir n body) (hn : s.cfg.niFir ≤ n) : EndsWith i s .range :=
  (exec_of_meaningOf_fir hi s).trans (runFir_of_le hn)

theorem fir_endsWith_of_error {c : Code} (hi : meaningOf i = .fir n body) (hn : n < s.cfg.niFir)
    (hF : s.fir[n]? = some F) (h : body s F = .error c) : EndsWith i s c :=
  (exec_of_meaningOf_fir hi s).trans (runFir_of_error hn ((State.firAt_of_get hF).symm ▸ h))

theorem exec_fir_of_body_ok {G : FirInst} {r : Results} (hi : meaningOf i = .fir n body) (hn : n < s.cfg.niFir)
    (hF : s.fir[n]? = some F) (h : body s F = .ok (G, r)) : exec i s = .next (s.setFir n G r).complete :=
  (exec_of_meaningOf_fir hi s).trans (runFir_of_ok hn ((State.firAt_of_get hF).symm ▸ h))

/-- Commands whose bodies agree on well-formed records agree on well-formed states. -/
theorem exec_fir_congr {j : Instr} {body' : State → FirInst → Except Code (FirInst × Results)}
    (hi : meaningOf i = .fir n body) (hj : meaningOf j = .fir n body') (hs : s.Inv)
    (h : ∀ F : FirInst, F.Inv s.cfg → body s F = body' s F) : exec i s = exec j s := by
  rw [exec_of_meaningOf_fir hi, exec_of_meaningOf_fir hj]
  obtain hn | hn := Nat.lt_or_ge n s.cfg.niFir
  · have ⟨_, _, _, _, _, _, _, hlen, _⟩ := hs
    have hF : s.fir[n]? = some s.fir[n] := List.getElem?_eq_getElem (hlen ▸ hn)
    rw [runFir, runFir, State.firAt_of_get hF, h _ (hs.fir_get hF).2]
  · rw [runFir_of_le hn, runFir_of_le hn]

end Exec

theorem meaningOf_prociInstr (p : Policy) (n : Nat) : meaningOf (prociInstr p n) = .fir n (firProci p) := by
  cases p <;> rfl

theorem meaningOf_proc2Instr (p : Policy) (n : Nat) : meaningOf (proc2Instr p n) = .fir n (firProc2 p) := by
  cases p <;> rfl

/-! ### One sum for the three policies (R117, R345, R347, R352) -/

theorem FirInst.Inv.cur_lt {c : Params} {F : FirInst} (h : F.Inv c) (h0 : F.order ≠ 0) : F.cur < F.order := by
  obtain ⟨-, hcur, -⟩ := h
  omega

theorem FirInst.Inv.doubled {c : Params} {F : FirInst} (h : F.Inv c) :
    Doubled F.bufA F.order ∧ Doubled F.bufB F.order ∧ Doubled F.bufR F.order := by
  obtain ⟨-, -, -, -, -, -, -, -, hA, hB, hR, -⟩ := h
  exact ⟨hA, hB, hR⟩

/-- R345's sum over the window of the cursor `c`, oldest sample first. -/
def windowDot (ν : NaNs) (F : FirInst) (buf : List F32) (c : Nat) : F32 :=
  sumF (fun k => ν (2 * k)) (fun k => fmul (ν (2 * k + 1)) (rd F.hf k) (rd buf ((c + k) % F.order))) (F.order - 1)

/-- R347's exact sum over the window of the cursor `c`. -/
def windowSum (F : FirInst) (buf : List Word) (c : Nat) : Int :=
  ((List.range F.order).map fun k => rdInt F.hi k * (rd buf ((c + k) % F.order)).toInt).sum

section Window

variable (p : Policy) {F : FirInst} {buf : List Word} {c : Nat} (hd : Doubled buf F.order) (hc : c < F.order)

include hd hc

theorem dotF_eq_windowDot (ν : NaNs) : dotF ν p F buf c = windowDot ν F buf c :=
  sumF_congr fun k hk => by rw [rd_index_of_doubled hd hc (by omega) p]; rfl

theorem dotI_eq_windowSum : dotI p F buf c = windowSum F buf c := by
  rw [dotI, sumI_eq_sum, windowSum]
  congr 1
  refine List.map_congr_left fun k hk => ?_
  rw [rd_index_of_doubled hd hc (List.mem_range.1 hk) p, sext32]

end Window

theorem overflows64_iff {v : Int} : overflows64 v = true ↔ v < -2 ^ 63 ∨ 2 ^ 63 - 1 < v := by
  rw [overflows64, Bool.or_eq_true, decide_eq_true_iff, decide_eq_true_iff]

/-! ### The bodies under any policy (R346 to R348) -/

section Body

variable {s : State} {F : FirInst}

theorem firProcf_of_undesigned (p : Policy) (h0 : F.order = 0) : firProcf p s F = .error .notcfg := if_pos h0

theorem firProci_of_undesigned (p : Policy) (h0 : F.order = 0) : firProci p s F = .error .notcfg := if_pos h0

theorem firProc2_of_undesigned (p : Policy) (h0 : F.order = 0) : firProc2 p s F = .error .notcfg := if_pos h0

variable (hF : F.Inv s.cfg)

include hF

theorem firProcf_of_designed (p : Policy) (h0 : F.order ≠ 0) :
    let G := firPush F s.op[0] s.op[1]
    firProcf p s F = .ok (G, .one (windowDot s.nans G G.bufA G.cur)) := by
  intro G
  have hG : G.Inv s.cfg := firPush_inv hF h0 _ _
  obtain ⟨hA, -, -⟩ := hG.doubled
  rw [firProcf, if_neg h0, ← dotF_eq_windowDot p hA (hG.cur_lt h0)]
  rfl

theorem firProc2_of_designed (p : Policy) (h0 : F.order ≠ 0) :
    let G := firPush2 F s.op[0] s.op[1]
    firProc2 p s F = .ok (G,
      .two (windowDot (s.nans.lane 2 0) G G.bufA G.cur) (windowDot (s.nans.lane 2 1) G G.bufB G.cur)) := by
  intro G
  have hG : G.Inv s.cfg := firPush2_inv hF h0 _ _
  obtain ⟨hA, hB, -⟩ := hG.doubled
  have hc := hG.cur_lt h0
  rw [firProc2, if_neg h0, ← dotF_eq_windowDot p hA hc, ← dotF_eq_windowDot p hB hc]
  rfl

theorem firProci_of_designed (p : Policy) (h0 : F.order ≠ 0) :
    let G := firPush F s.op[0] s.op[1]
    let sum := windowSum G G.bufR G.cur
    firProci p s F =
      if overflows64 sum then .error .overflow
      else .ok (G, .two (physical s.nans G (asr sum s.cfg.p)) (low32 (asr sum s.cfg.p))) := by
  intro G sum
  have hG : G.Inv s.cfg := firPush_inv hF h0 _ _
  obtain ⟨-, -, hR⟩ := hG.doubled
  have hsum : dotI p G G.bufR G.cur = sum := dotI_eq_windowSum p hR (hG.cur_lt h0)
  rw [firProci, if_neg h0, ← hsum]
  rfl

/-- The indexing policy is of no effect (R352). -/
theorem firProcf_policy_irrelevant (p p' : Policy) : firProcf p s F = firProcf p' s F := by
  by_cases h0 : F.order = 0
  · rw [firProcf_of_undesigned p h0, firProcf_of_undesigned p' h0]
  · rw [firProcf_of_designed hF p h0, firProcf_of_designed hF p' h0]

theorem firProci_policy_irrelevant (p p' : Policy) : firProci p s F = firProci p' s F := by
  by_cases h0 : F.order = 0
  · rw [firProci_of_undesigned p h0, firProci_of_undesigned p' h0]
  · rw [firProci_of_designed hF p h0, firProci_of_designed hF p' h0]

theorem firProc2_policy_irrelevant (p p' : Policy) : firProc2 p s F = firProc2 p' s F := by
  by_cases h0 : F.order = 0
  · rw [firProc2_of_undesigned p h0, firProc2_of_undesigned p' h0]
  · rw [firProc2_of_designed hF p h0, firProc2_of_designed hF p' h0]

end Body

end Sys2Proof.Machine

namespace Sys2Proof.Proofs

open Machine Claims

/-- Settles O48: INST and the design are checked, and over a doubled buffer every policy takes the window's sum. -/
theorem firProcfConvolves : Obligations.FirProcfConvolves := by
  refine ⟨fun p => ?words, fun s n p hs => ⟨fir_endsWith_range_of_le (meaningOf_procfInstr p n),
    fun F hF h0 => ?notcfg, fun F hF h0 => ?next⟩⟩
  case words =>
    cases p <;> exact encodedAs_of_commandWord (fun _ => rfl) (fun _ => rfl) rfl
  all_goals obtain ⟨hn, hinv⟩ := hs.fir_get hF
  case notcfg =>
    exact fir_endsWith_of_error (meaningOf_procfInstr p n) hn hF (firProcf_of_undesigned p h0)
  case next =>
    exact ⟨s.nans, freeNaNs_quiet s.draws,
      exec_fir_of_body_ok (meaningOf_procfInstr p n) hn hF (firProcf_of_designed hinv p h0)⟩

/-- Settles O49: past the checks the sum of the window decides between OVERFLOW and the commit of its floor quotient. -/
theorem firProciConvolvesExactly : Obligations.FirProciConvolvesExactly := by
  refine ⟨fun p => ?words, fun s n p hs => ⟨fir_endsWith_range_of_le (meaningOf_prociInstr p n),
    fun F hF h0 => ?notcfg, fun F hF h0 => ?designed⟩⟩
  case words =>
    cases p <;> exact encodedAs_of_commandWord (fun _ => rfl) (fun _ => rfl) rfl
  all_goals obtain ⟨hn, hinv⟩ := hs.fir_get hF
  case notcfg =>
    exact fir_endsWith_of_error (meaningOf_prociInstr p n) hn hF (firProci_of_undesigned p h0)
  case designed =>
    have hbody := firProci_of_designed hinv p h0
    intro N c bufA bufR sum
    have hpow : (0 : Int) < 2 ^ s.cfg.p := by positivity
    refine ⟨fun hover => ?overflow, fun hmin hmax => ⟨s.nans, asr sum s.cfg.p, freeNaNs_quiet s.draws,
      Int.ediv_mul_le sum hpow.ne', Int.lt_ediv_add_one_mul_self sum hpow, ?next⟩⟩
    case overflow =>
      exact fir_endsWith_of_error (meaningOf_prociInstr p n) hn hF (hbody.trans (if_pos (overflows64_iff.2 hover)))
    case next =>
      have hfits : ¬ overflows64 sum = true := fun h => (overflows64_iff.1 h).elim (not_lt.2 hmin) (not_lt.2 hmax)
      exact exec_fir_of_body_ok (meaningOf_prociInstr p n) hn hF (hbody.trans (if_neg hfits))

/-- Settles O50: as O48 on either channel, each with its own lane of NaNs; the raw buffer is not pushed. -/
theorem firProc2ConvolvesTwoChannels : Obligations.FirProc2ConvolvesTwoChannels := by
  refine ⟨fun p => ?words, fun s n p hs => ⟨fir_endsWith_range_of_le (meaningOf_proc2Instr p n),
    fun F hF h0 => ?notcfg, fun F hF h0 => ?next⟩⟩
  case words =>
    cases p <;> exact encodedAs_of_commandWord (fun _ => rfl) (fun _ => rfl) rfl
  all_goals obtain ⟨hn, hinv⟩ := hs.fir_get hF
  case notcfg =>
    exact fir_endsWith_of_error (meaningOf_proc2Instr p n) hn hF (firProc2_of_undesigned p h0)
  case next =>
    exact ⟨s.nans.lane 2 0, s.nans.lane 2 1, nans_lane_quiet s 2 0, nans_lane_quiet s 2 1,
      exec_fir_of_body_ok (meaningOf_proc2Instr p n) hn hF (firProc2_of_designed hinv p h0)⟩

/-- Settles O51: on a well-formed record the three bodies do not depend on the policy. -/
theorem indexingPoliciesAgree : Obligations.IndexingPoliciesAgree := fun _ n p p' hs =>
  ⟨exec_fir_congr (meaningOf_procfInstr p n) (meaningOf_procfInstr p' n) hs
      fun _ hF => firProcf_policy_irrelevant hF p p',
    exec_fir_congr (meaningOf_prociInstr p n) (meaningOf_prociInstr p' n) hs
      fun _ hF => firProci_policy_irrelevant hF p p',
    exec_fir_congr (meaningOf_proc2Instr p n) (meaningOf_proc2Instr p' n) hs
      fun _ hF => firProc2_policy_irrelevant hF p p'⟩

/-- Settles O53: INST is the only check, and either body answers its record and no result. -/
theorem firSetconvAndClr : Obligations.FirSetconvAndClr := by
  refine ⟨⟨?_, ?_⟩, fun s n => ⟨fun hn => ⟨fir_endsWith_range_of_le rfl hn, fir_endsWith_range_of_le rfl hn⟩,
    fun F hn hF => ⟨?setconv, ?clr⟩⟩⟩
  iterate 2 exact encodedAs_of_commandWord (fun _ => rfl) (fun _ => rfl) rfl
  case setconv =>
    exact exec_fir_of_body_ok (body := firSetconv) (r := .none) rfl hn hF rfl
  case clr =>
    exact exec_fir_of_body_ok (body := firClr) (r := .none) rfl hn hF rfl

end Sys2Proof.Proofs
end

section
/-! SUPPORT. The scale stage (R370, R371): how a command without an instance ends, a 64-bit value in two registers, and
the range of SCALE.I's result. -/

namespace Sys2Proof.Machine

/-- A command that reaches the state through its results alone writes them and ends with OK. -/
theorem exec_of_plain {i : Instr} {body : State → Results} (h : meaningOf i = .plain body) (s : State) :
    exec i s = .next { s with res := (body s).write s.res, last := .ok } := by
  rw [exec_eq_run, h]
  rfl

/-- Two registers hold every 64-bit value whole, the low word first (R13, R57). -/
theorem toInt_high32_append_low32 {r : Int} (hlo : -2 ^ 63 ≤ r) (hhi : r < 2 ^ 63) :
    (high32 r ++ low32 r).toInt = r := by
  have hhigh : (high32 r).toInt = r / 2 ^ 32 := BitVec.toInt_ofInt_eq_self (by decide) (by omega) (by omega)
  have hlow : ((low32 r).toNat : Int) = r % 2 ^ 32 := by
    rw [low32, BitVec.toNat_ofInt]
    omega
  rw [BitVec.toInt_append, if_neg (by decide), hhigh, hlow]
  omega

/-- A signed 32-bit value times a signed 64-bit value, shifted right by 32, is a signed 64-bit value (R371). -/
theorem scaleInt_fits (v lo hi : Word) : -2 ^ 63 ≤ scaleInt v lo hi ∧ scaleInt v lo hi < 2 ^ 63 := by
  have hv : |sext32 v| ≤ 2 ^ 31 := abs_le.2 ⟨BitVec.le_toInt v, (BitVec.toInt_lt).le⟩
  have hf : |sext64 hi lo| ≤ 2 ^ 63 := abs_le.2 ⟨BitVec.le_toInt (hi ++ lo), (BitVec.toInt_lt).le⟩
  have hprod : |sext32 v * sext64 hi lo| ≤ 2 ^ 31 * 2 ^ 63 :=
    (abs_mul _ _).trans_le (mul_le_mul hv hf (abs_nonneg _) (by decide))
  obtain ⟨hmin, hmax⟩ := abs_le.1 hprod
  rw [scaleInt, asr]
  omega

end Sys2Proof.Machine

namespace Sys2Proof.Proofs

open Machine Claims

/-- Settles O55: the floor quotient of the product fits in 64 bits, so the two result registers hold it whole. -/
theorem scaleIntegerIsExact : Obligations.ScaleIntegerIsExact := by
  refine ⟨decodeOfEncodeIsIdentity .scaleI (by decide), fun s => ?_⟩
  obtain ⟨hmin, hmax⟩ := scaleInt_fits s.op[0] s.op[1] s.op[2]
  refine ⟨low32 (scaleInt s.op[0] s.op[1] s.op[2]), high32 (scaleInt s.op[0] s.op[1] s.op[2]),
    exec_of_plain (i := .scaleI) rfl s, ?_⟩
  rw [toInt_high32_append_low32 hmin hmax]
  exact ⟨Int.ediv_mul_le _ (by decide), Int.lt_ediv_add_one_mul_self _ (by decide)⟩

/-- Settles O54: the body answers the product, with the first NaN the command draws. -/
theorem scaleFloat : Obligations.ScaleFloat :=
  ⟨decodeOfEncodeIsIdentity .scaleF (by decide),
    fun s => ⟨s.nans, freeNaNs_quiet s.draws, exec_of_plain (i := .scaleF) rfl s⟩⟩

end Sys2Proof.Proofs
end

section
/-! SUPPORT. The engine control commands (R380, R381, R382): how a command that reaches the state whole ends. -/

namespace Sys2Proof.Machine

/-- A command that reaches the state whole has no check to fail: it commits and ends with OK. -/
theorem exec_of_whole {i : Instr} {commit : State → State} (h : meaningOf i = .whole commit) (s : State) :
    exec i s = .next (commit s).complete := by
  rw [exec_eq_run, h, Meaning.run, finish_ok]

end Sys2Proof.Machine

namespace Sys2Proof.Proofs

open Machine

/-- Settles O15: both commit the reset state of the same parameters, which already has LAST = OK, and the step that
serves a platform reset only takes it off the pending actions. -/
theorem softAndPlatformReset : Obligations.SoftAndPlatformReset := by
  refine ⟨decodeOfEncodeIsIdentity .sreset (by decide), fun s => ?sreset, fun s rest hb => ?platform⟩
  case sreset =>
    exact exec_of_whole (i := .sreset) rfl s
  case platform =>
    have hserve : serve .reset { s with bus := rest } = .next { s with bus := rest }.resetEngine := rfl
    exact (step_cons hb).trans hserve

/-- Settles O16: NOP commits the state as it was, CLRSTAT the state with ERR = 0. -/
theorem nopAndClrstat : Obligations.NopAndClrstat :=
  ⟨decodeOfEncodeIsIdentity .nop (by decide), decodeOfEncodeIsIdentity .clrstat (by decide),
    fun s => ⟨exec_of_whole (i := .nop) rfl s, exec_of_whole (i := .clrstat) rfl s⟩⟩

end Sys2Proof.Proofs
end

section
/-! SUPPORT. No command stops the machine (R400, R406, R407): errors are completion codes of a next state. -/

namespace Sys2Proof.Proofs

open Machine

/-- Settles O17: every meaning ends through `finish`, which answers a next state for an error and for a commit. -/
theorem everyCommandEndsInANextState : Obligations.EveryCommandEndsInANextState := exists_exec_eq_next

end Sys2Proof.Proofs
end
